-- ==== Sys2Proof/Word.lean ====
section
/-!
DEFINITION. The word types of the machine (00_scope.md R10, R13; 40_conversion_numerics.md R101).
-/

namespace Sys2Proof

/-- One byte of memory or of an instruction (R40). -/
abbrev Byte := BitVec 8

/-- A 64-bit word: a general register, an address while it is computed (R13, R27). -/
abbrev Word := BitVec 64

/-- A double precision element, binary64 (R101). -/
abbrev F64 := BitVec 64

/-- A single precision element, binary32 (R101). -/
abbrev F32 := BitVec 32

/-- The storage of one vector register, wide enough for every MAXVL (R6, R20). -/
abbrev Vec := BitVec 512

end Sys2Proof
end

