-- ==== Sys2Proof/Config.lean ====
section
/-!
DEFINITION. What an implementation or a launch fixes (00_scope.md R6 to R9, 70_reset_and_hazards.md R203 item 1), and the
free values. The configuration is plain data held in `State.cfg`, so that a statement about every state is a statement
about every configuration.
-/

namespace Sys2Proof

/-- The operating mode `MODE` (R7, D1): 64-bit mode, or 32-bit protected/compatibility mode. -/
inductive Mode where
  | m64
  | m32
deriving DecidableEq, Repr

/-- The width `MAXVL` of one vector register (R6, D2). -/
inductive MaxVL where
  | v128
  | v256
  | v512
deriving DecidableEq, Repr

/-- `MAXVL` in bits (R6). -/
def MaxVL.bits : MaxVL → Nat
  | .v128 => 128
  | .v256 => 256
  | .v512 => 512

/-- `ATOMIC_GRAIN` in bytes (R53, D18). One agent cannot observe it (log 26). -/
inductive AtomicGrain where
  | one
  | eight
deriving DecidableEq, Repr

/-- A range of addresses that exist and may be read (R52): `size` bytes from `base`. -/
structure Region where
  base : Nat
  size : Nat
deriving DecidableEq, Repr

/-- The launch configuration (R203 item 1 and the parameter table of 92_eei_decisions.md). -/
structure Config where
  /-- `MODE` (R7). -/
  mode : Mode
  /-- `MAXVL` (R6). -/
  maxvl : MaxVL
  /-- `F_SSE2` (R8). -/
  fSSE2 : Bool
  /-- `F_AVX` (R8). -/
  fAVX : Bool
  /-- `F_AVX512F` (R8). -/
  fAVX512F : Bool
  /-- `F_AVX512VL` (R8). -/
  fAVX512VL : Bool
  /-- `F_AVX10_1` (R8, D27). -/
  fAVX10_1 : Bool
  /-- `ATOMIC_GRAIN` (R53). -/
  atomicGrain : AtomicGrain
  /-- `TEXT_LO`: the first address of the program text (R203). -/
  textLo : Nat
  /-- `TEXT_HI`: the first address after the program text (R203). -/
  textHi : Nat
  /-- `END`: the address at which a run is over (R206). -/
  endAddr : Nat
  /-- The data ranges `Readable` admits besides the text (R52, R203). -/
  readable : List Region
deriving DecidableEq, Repr

/-- The constraint of R6 between MAXVL and the feature flags: forms 2 and 3 need MAXVL of at least 256, forms 4 to 6
need 512. -/
def Config.wf (c : Config) : Bool :=
  (!c.fAVX || decide (256 ≤ c.maxvl.bits)) &&
  (!(c.fAVX512F || c.fAVX10_1) || decide (c.maxvl.bits = 512))

/-- FREE VALUE (log 19). The result that R115 calls "undefined" where an unmasked post-computation exception is
detected: R116 never delivers it. -/
opaque Config.undefinedF32 : F64 → F32

/-- FREE VALUE (log 8). Which of several different effective segment overrides, given as their bytes in order, sets the
base: the spec does not say (R48, R61). Used modulo the number of overrides, so that one of those named is taken. -/
opaque Config.segmentPick : List Byte → Nat

end Sys2Proof
end

