-- ==== Sys2Proof/Syntax.lean ====
section
/-!
DEFINITION. The instructions: one constructor of `Instr` per row of spec/opcode_table.json (30_encoding.md R84), with every
field its encoding holds. Extension bits are held with their logical value (R65).
-/

namespace Sys2Proof

/-- A segment register named by an override (R61). -/
inductive SegReg where
  | es
  | cs
  | ss
  | ds
  | fs
  | gs
deriving DecidableEq, Repr

/-- The four bits of a REX byte (R62). -/
structure Rex where
  w : Bool
  r : Bool
  x : Bool
  b : Bool
deriving DecidableEq, Repr

/-- A byte that may stand before the opcode or the VEX or EVEX prefix (R61, R62). -/
inductive Prefix where
  /-- 66. -/
  | opSize
  /-- 67. -/
  | addrSize
  /-- 26, 2E, 36, 3E, 64, 65. -/
  | seg (g : SegReg)
  /-- F0. -/
  | lock
  /-- F2. -/
  | repne
  /-- F3. -/
  | rep
  /-- A REX byte followed by a legacy prefix, which drops it (R62, R76 step 2). -/
  | droppedRex (rex : Rex)
deriving DecidableEq, Repr

/-- The displacement after ModRM or SIB (R43). -/
inductive Disp where
  | none
  | d8 (v : BitVec 8)
  | d32 (v : BitVec 32)
deriving DecidableEq, Repr

/-- A memory operand as ModRM, SIB and displacement designate it (R43, R44), less the extension bits X and B. -/
inductive MemOperand where
  /-- `rm` names the base register; not 100, and not 101 with no displacement. -/
  | base (rm : BitVec 3) (d : Disp)
  /-- `mod = 00, rm = 101`: RIP-relative in M64, absolute in M32 (R46, R47). -/
  | disp32 (v : BitVec 32)
  /-- SIB byte with a base register; not `base = 101` with no displacement. -/
  | sib (scale : BitVec 2) (index base : BitVec 3) (d : Disp)
  /-- SIB byte with `base = 101` and `mod = 00`: no base register, a 32-bit displacement. -/
  | sibDisp32 (scale : BitVec 2) (index : BitVec 3) (v : BitVec 32)
deriving DecidableEq, Repr

/-- The r/m operand of ModRM (R64). -/
inductive RegMem where
  | reg (rm : BitVec 3)
  | mem (m : MemOperand)
deriving DecidableEq, Repr

/-- The rounding control RC: 00, 01, 10, 11 (R25, R104). -/
inductive Rounding where
  | nearest
  | down
  | up
  | zero
deriving DecidableEq, Repr

/-- The free bits of a three-byte VEX prefix (R67). -/
structure Vex3 where
  r : Bool
  x : Bool
  b : Bool
  w : Bool
deriving DecidableEq, Repr

/-- The free bits of an EVEX prefix other than `b` and `L'L` (R69): extension bits, zeroing, mask register number. -/
structure Evex where
  r : Bool
  x : Bool
  b : Bool
  rHi : Bool
  z : Bool
  aaa : BitVec 3
deriving DecidableEq, Repr

/-- The decoded form (R16). -/
inductive Form where
  | legacy
  | vex128
  | vex256
  | evex128
  | evex256
  | evex512
  | evex512Er
deriving DecidableEq, Repr

/-- The thirteen rows of the opcode table (R84), in its order but that row 7 (`evex512Er`) stands where R84 puts it. -/
inductive Instr where
  /-- Row 1: `66 0F 5A /r`, CVTPD2PS. -/
  | cvtpd2ps (pfx : List Prefix) (reg : BitVec 3) (rm : RegMem)
  /-- Row 2: `66 REX 0F 5A /r`, CVTPD2PS. -/
  | cvtpd2psRex (pfx : List Prefix) (rex : Rex) (reg : BitVec 3) (rm : RegMem)
  /-- Row 3: `C5 v1 5A /r`, L = 0. -/
  | vex128C5 (pfx : List Prefix) (r : Bool) (reg : BitVec 3) (rm : RegMem)
  /-- Row 4: `C4 v1 v2 5A /r`, L = 0. -/
  | vex128C4 (pfx : List Prefix) (v : Vex3) (reg : BitVec 3) (rm : RegMem)
  /-- Row 5: `C5 v1 5A /r`, L = 1. -/
  | vex256C5 (pfx : List Prefix) (r : Bool) (reg : BitVec 3) (rm : RegMem)
  /-- Row 6: `C4 v1 v2 5A /r`, L = 1. -/
  | vex256C4 (pfx : List Prefix) (v : Vex3) (reg : BitVec 3) (rm : RegMem)
  /-- Row 7: EVEX, register source, b = 1: embedded rounding. -/
  | evex512Er (pfx : List Prefix) (e : Evex) (rc : Rounding) (reg rm : BitVec 3)
  /-- Row 8: EVEX, L'L = 00, b = 0. -/
  | evex128 (pfx : List Prefix) (e : Evex) (reg : BitVec 3) (rm : RegMem)
  /-- Row 9: EVEX, L'L = 00, b = 1, memory: broadcast. -/
  | evex128Bcst (pfx : List Prefix) (e : Evex) (reg : BitVec 3) (m : MemOperand)
  /-- Row 10: EVEX, L'L = 01, b = 0. -/
  | evex256 (pfx : List Prefix) (e : Evex) (reg : BitVec 3) (rm : RegMem)
  /-- Row 11: EVEX, L'L = 01, b = 1, memory: broadcast. -/
  | evex256Bcst (pfx : List Prefix) (e : Evex) (reg : BitVec 3) (m : MemOperand)
  /-- Row 12: EVEX, L'L = 10, b = 0. -/
  | evex512 (pfx : List Prefix) (e : Evex) (reg : BitVec 3) (rm : RegMem)
  /-- Row 13: EVEX, L'L = 10, b = 1, memory: broadcast. -/
  | evex512Bcst (pfx : List Prefix) (e : Evex) (reg : BitVec 3) (m : MemOperand)
deriving DecidableEq, Repr

/-- The form of an instruction (R16, R71). -/
def Instr.form : Instr → Form
  | .cvtpd2ps .. | .cvtpd2psRex .. => .legacy
  | .vex128C5 .. | .vex128C4 .. => .vex128
  | .vex256C5 .. | .vex256C4 .. => .vex256
  | .evex512Er .. => .evex512Er
  | .evex128 .. | .evex128Bcst .. => .evex128
  | .evex256 .. | .evex256Bcst .. => .evex256
  | .evex512 .. | .evex512Bcst .. => .evex512

/-- The bytes in front of an instruction (R61). -/
def Instr.prefixes : Instr → List Prefix
  | .cvtpd2ps p .. | .cvtpd2psRex p .. | .vex128C5 p .. | .vex128C4 p .. | .vex256C5 p .. | .vex256C4 p .. => p
  | .evex512Er p .. | .evex128 p .. | .evex128Bcst p .. | .evex256 p .. | .evex256Bcst p .. => p
  | .evex512 p .. | .evex512Bcst p .. => p

end Sys2Proof
end

