-- ==== Sys2Proof/Machine/State.lean ====
section
/-!
DEFINITION. The state of the machine, its faults and refusals, and the launch state that stands for reset.
-/

namespace Sys2Proof.Machine

/-- Memory (R40): the bytes that differ from what an unlisted address reads as, addresses strictly rising. -/
abbrev Memory := List Host.Cell

/-- Everything the spec gives the machine (10_state.md), with the launch configuration (R203). -/
structure State where
  /-- The vector registers; XMM and YMM are their low views (R20, R21). -/
  zmm : Vector Vec 32
  /-- The opmask registers K0 to K7 (R22). -/
  k : Vector Word 8
  /-- MXCSR (R24, R25). -/
  mxcsr : BitVec 32
  /-- The general registers, numbered as in R27. -/
  gpr : Vector Word 16
  /-- RIP, or EIP in its low 32 bits in M32 (R28): the address of the current instruction. -/
  rip : Word
  /-- RFLAGS: no instruction of this spec reads or writes it (R29). -/
  rflags : Word
  /-- CR0: EM is bit 2, TS bit 3 (R30, R175). -/
  cr0 : Word
  /-- CR4: OSFXSR is bit 9, OSXMMEXCPT bit 10, OSXSAVE bit 18 (R30, R175, R177). -/
  cr4 : Word
  /-- XCR0: SSE 1, AVX 2, opmask 5, ZMM_Hi256 6, Hi16_ZMM 7 (R30, R175). -/
  xcr0 : Word
  /-- FS_BASE (R48). -/
  fsBase : Word
  /-- GS_BASE (R48). -/
  gsBase : Word
  /-- Memory (R31, R40). -/
  mem : Memory
  /-- The launch configuration, fixed during a run (R203 item 1). -/
  cfg : Config
deriving DecidableEq, Repr

/-- The faults (R178). Each is terminal and holds the state of the outcome `fault(#X, rip)`: the pre-state, with MXCSR
flags ORed in where R116 detected an unmasked exception (R180, R181). All are the spec's own, so stopping here is safe. -/
inductive Fault where
  /-- `#UD`, vector 6. Raised by step for the encodings of R73 and R78, by every meaning for a missing feature (R174) or a
  disabled state (R175), and in place of `#XM` with CR4.OSXMMEXCPT = 0 (R177). Safe. -/
  | invalidOpcode (st : State)
  /-- `#NM`, vector 7. Raised by every meaning with CR0.TS = 1 (R175). Safe. -/
  | deviceNotAvailable (st : State)
  /-- `#GP(0)`, vector 13. Raised by step for an instruction over 15 bytes (R60), by the legacy form for a misaligned
  m128 (R51). Safe. -/
  | generalProtection (st : State)
  /-- `MemFault`: `#GP(0)`, `#SS(0)` or `#PF` on the operand, which the spec does not tell apart (R52, R176). Raised by
  the memory-source meanings. Safe. -/
  | memFault (st : State)
  /-- `#XM`, vector 19. Raised by every meaning but embedded rounding, for an unmasked SIMD floating-point exception
  (R116, R177). Safe. -/
  | simdFloatingPoint (st : State)
deriving DecidableEq, Repr

/-- The refusals (R189): the model asserts nothing about the processor. All are the spec's own, and safe. -/
inductive Refusal where
  /-- An instruction with no meaning in the model yet: none (every arm of exec has its meaning). Safe. -/
  | notModelled (mnemonic : String)
  /-- Raised by step: the bytes are another instruction (R79, R189, D5). Safe. -/
  | otherInstruction
  /-- Raised by step: an M32 encoding with an extension bit set (R80). Safe. -/
  | extensionInM32
  /-- Raised by step: 16-bit addressing (R47, D25). Safe. -/
  | address16
  /-- Raised by step: a byte to fetch lies outside the program text (R206). Safe. -/
  | fetchOutsideText
  /-- Raised by step where `rip + len`, and by the memory-source meanings where the operand, passes the top of the
  address space (R28, R45, R206, D8, D15). Safe. -/
  | addressWrap
deriving DecidableEq, Repr

/-- The launch configuration at the defaults of 92_eei_decisions.md, with no program loaded (log 1, log 4). -/
def launchConfig : Config where
  mode := .m64
  maxvl := .v512
  fSSE2 := true
  fAVX := true
  fAVX512F := true
  fAVX512VL := true
  fAVX10_1 := true
  atomicGrain := .one
  textLo := 0xFFFFFFF0
  textHi := 0xFFFFFFF0
  endAddr := 0xFFFFFFF0
  readable := [⟨0x10000000, 0x1000⟩]

/-- The state a run starts from (R203, D14: the spec's model does not start at the architectural reset, R35, R200; log 1).
Registers hold the values of R34 and R200 (log 2), or the ones log 3 to log 7 name. -/
def State.reset : State where
  zmm := Vector.replicate 32 0#512
  k := Vector.replicate 8 0#64
  mxcsr := 0x1F80#32
  gpr := Vector.replicate 16 0#64
  rip := 0xFFFFFFF0#64
  rflags := 0x2#64
  cr0 := 0x60000010#64
  cr4 := 0x40600#64
  xcr0 := 0xE7#64
  fsBase := 0#64
  gsBase := 0#64
  mem := []
  cfg := launchConfig

end Sys2Proof.Machine
end

