-- ==== Sys2Proof/Machine/Flags.lean ====
section
/-!
DEFINITION. MXCSR: its fields (10_state.md R25), the exception flags (R26, R119), the numeric context of one execution
(40_conversion_numerics.md R104).
-/

namespace Sys2Proof.Machine

/-! ### The fields of MXCSR (R25) -/

/-- DAZ, bit 6. -/
def mxcsrDAZ (x : BitVec 32) : Bool := x.getLsbD 6

/-- IM, bit 7. -/
def mxcsrIM (x : BitVec 32) : Bool := x.getLsbD 7

/-- DM, bit 8. -/
def mxcsrDM (x : BitVec 32) : Bool := x.getLsbD 8

/-- OM, bit 10. -/
def mxcsrOM (x : BitVec 32) : Bool := x.getLsbD 10

/-- UM, bit 11. -/
def mxcsrUM (x : BitVec 32) : Bool := x.getLsbD 11

/-- PM, bit 12. -/
def mxcsrPM (x : BitVec 32) : Bool := x.getLsbD 12

/-- RC, bits 14:13. -/
def mxcsrRC (x : BitVec 32) : Rounding :=
  match x.getLsbD 14, x.getLsbD 13 with
  | false, false => .nearest
  | false, true => .down
  | true, false => .up
  | true, true => .zero

/-- FTZ, bit 15. -/
def mxcsrFTZ (x : BitVec 32) : Bool := x.getLsbD 15

/-! ### Sets of exception flags (R115, R119) -/

/-- A set of the five flags the instruction can set; ZE is never among them (R103, R114). -/
structure FpFlags where
  ie : Bool
  de : Bool
  oe : Bool
  ue : Bool
  pe : Bool
deriving DecidableEq, Repr

/-- No flag. -/
def noFlags : FpFlags := ⟨false, false, false, false, false⟩

/-- Union. -/
def FpFlags.union (f g : FpFlags) : FpFlags :=
  ⟨f.ie || g.ie, f.de || g.de, f.oe || g.oe, f.ue || g.ue, f.pe || g.pe⟩

/-- `bits(F)` (R119): IE 0, DE 1, ZE 2, OE 3, UE 4, PE 5. -/
def FpFlags.bits (f : FpFlags) : BitVec 32 :=
  0#26 ++ BitVec.ofBool f.pe ++ BitVec.ofBool f.ue ++ BitVec.ofBool f.oe ++ 0#1 ++ BitVec.ofBool f.de ++
    BitVec.ofBool f.ie

/-- The union of a list of sets. -/
def unionAll : List FpFlags → FpFlags
  | [] => noFlags
  | f :: fs => f.union (unionAll fs)

/-- `MXCSR[5:0] |= bits(F)` (R119): no flag is cleared and nothing else changes (R26). -/
def raiseFlags (x : BitVec 32) (f : FpFlags) : BitVec 32 := x ||| f.bits

/-! ### The numeric context (R104) -/

/-- `ctx` (R104). -/
structure Ctx where
  rc : Rounding
  sae : Bool
  daz : Bool
  ftz : Bool
  im : Bool
  dm : Bool
  om : Bool
  um : Bool
  pm : Bool
deriving DecidableEq, Repr

/-- The context every form but embedded rounding takes: all of it from MXCSR (R102, R104). -/
def ctxOfMxcsr (x : BitVec 32) : Ctx where
  rc := mxcsrRC x
  sae := false
  daz := mxcsrDAZ x
  ftz := mxcsrFTZ x
  im := mxcsrIM x
  dm := mxcsrDM x
  om := mxcsrOM x
  um := mxcsrUM x
  pm := mxcsrPM x

/-- The context under embedded rounding: RC from the instruction, all five exceptions masked, DAZ and FTZ from MXCSR
(R104, R117). -/
def ctxEmbedded (rc : Rounding) (x : BitVec 32) : Ctx where
  rc := rc
  sae := true
  daz := mxcsrDAZ x
  ftz := mxcsrFTZ x
  im := true
  dm := true
  om := true
  um := true
  pm := true

/-- Whether `unmasked(F)` holds a flag (R116): some flag of F has its mask bit 0. -/
def Ctx.unmasked (c : Ctx) (f : FpFlags) : Bool :=
  (f.ie && !c.im) || (f.de && !c.dm) || (f.oe && !c.om) || (f.ue && !c.um) || (f.pe && !c.pm)

end Sys2Proof.Machine
end

