-- ==== Sys2Proof/Machine/Convert.lean ====
section
/-!
DEFINITION. CvtF64ToF32, the conversion of one element (40_conversion_numerics.md R101 to R115), in exact integer arithmetic.
-/

namespace Sys2Proof.Machine

/-! ### The fields of binary64 (R101, R105) -/

/-- The sign `s = d[63]`. -/
def f64Sign (d : F64) : Bool := d.getLsbD 63

/-- The exponent field `e = d[62:52]`. -/
def f64Exp (d : F64) : Nat := (d.extractLsb' 52 11).toNat

/-- The fraction field `f = d[51:0]`. -/
def f64Frac (d : F64) : Nat := (d.extractLsb' 0 52).toNat

/-- `v × 2^1074` of a finite element: its exact magnitude as an integer (R105: `f × 2^−1074` for a denormal,
`(2^52 + f) × 2^(e−1075)` for a normal number). -/
def exactScaled (d : F64) : Nat :=
  if f64Exp d = 0 then f64Frac d else (2 ^ 52 + f64Frac d) * 2 ^ (f64Exp d - 1)

/-- A binary32 of sign `s` and 31-bit magnitude `n` (R101). -/
def packF32 (s : Bool) (n : Nat) : F32 := BitVec.ofBool s ++ BitVec.ofNat 31 n

/-! ### Rounding (R109) -/

/-- `RoundInt(num / den, rc, s)` (R109), with whether it is inexact. -/
def roundInt (num den : Nat) (rc : Rounding) (s : Bool) : Nat × Bool :=
  let fl := num / den
  let rem := num % den
  let up : Bool :=
    match rc with
    | .nearest => decide (den < 2 * rem) || (decide (2 * rem = den) && decide (fl % 2 = 1))
    | .down => decide (rem ≠ 0) && s
    | .up => decide (rem ≠ 0) && !s
    | .zero => false
  (if up then fl + 1 else fl, decide (rem ≠ 0))

/-- The rounding with unbounded exponent (R109) of a non-zero magnitude `n = v × 2^1074`. -/
structure Unbounded where
  /-- `E' + 1074`, where `E' = floor(log2 r_unb)` (R113). -/
  exp : Nat
  /-- `m' = r_unb / 2^(E'−23)`, in `[2^23, 2^24)` (R113). -/
  sig : Nat
  /-- `inexact_unb` (R109). -/
  inexact : Bool
deriving DecidableEq, Repr

/-- R109: with `E = floor(log2 v)`, `q = v / 2^(E−23)` and `m = RoundInt(q)`; `m = 2^24` means `r_unb = 2^(E+1)`. -/
def roundUnbounded (n : Nat) (rc : Rounding) (s : Bool) : Unbounded :=
  let e := Nat.log2 n
  let m := roundInt (n * 2 ^ 23) (2 ^ e) rc s
  if m.1 = 2 ^ 24 then ⟨e + 1, 2 ^ 23, m.2⟩ else ⟨e, m.1, m.2⟩

/-! ### The outcomes (R106 to R113) -/

/-- `(r, pre, post)` of R115. -/
structure Converted where
  r : F32
  pre : FpFlags
  post : FpFlags
deriving DecidableEq, Repr

/-- The 31-bit magnitude of the masked overflow response (the table of R110). -/
def overflowMagnitude (rc : Rounding) (s : Bool) : Nat :=
  match rc, s with
  | .nearest, _ => 0x7F800000
  | .down, false => 0x7F7FFFFF
  | .down, true => 0x7F800000
  | .up, false => 0x7F800000
  | .up, true => 0x7F7FFFFF
  | .zero, _ => 0x7F7FFFFF

/-- NaN source (R106): sign kept, quiet bit set, the top 22 payload bits kept; IE for a signalling NaN. -/
def cvtNaN (d : F64) : Converted where
  r := BitVec.ofBool (f64Sign d) ++ 0xFF#8 ++ 1#1 ++ d.extractLsb' 29 22
  pre := { noFlags with ie := !d.getLsbD 51 }
  post := noFlags

/-- Overflow (R110). -/
def cvtOverflow (d : F64) (c : Ctx) (pre : FpFlags) (inexact : Bool) : Converted :=
  if c.om then ⟨packF32 (f64Sign d) (overflowMagnitude c.rc (f64Sign d)), pre, { noFlags with oe := true, pe := true }⟩
  else ⟨Config.undefinedF32 d, pre, { noFlags with oe := true, pe := inexact }⟩

/-- Tiny result (R111, R112): `v / 2^−149 = n / 2^925`, rounded from `v` and not from `r_unb`. -/
def cvtTiny (d : F64) (c : Ctx) (pre : FpFlags) (inexact : Bool) : Converted :=
  if !c.um then ⟨Config.undefinedF32 d, pre, { noFlags with ue := true, pe := inexact }⟩
  else if c.ftz then ⟨packF32 (f64Sign d) 0, pre, { noFlags with ue := true, pe := true }⟩
  else
    let n := roundInt (exactScaled d) (2 ^ 925) c.rc (f64Sign d)
    ⟨packF32 (f64Sign d) n.1, pre, { noFlags with ue := n.2, pe := n.2 }⟩

/-- A finite non-zero source (R108 to R113). In `Unbounded.exp`, `2^128` is 1202 and `2^−126` is 948; the exponent field
`E' + 127` of a normal result is `exp − 947`. -/
def cvtFinite (d : F64) (c : Ctx) (pre : FpFlags) : Converted :=
  let u := roundUnbounded (exactScaled d) c.rc (f64Sign d)
  if 1202 ≤ u.exp then cvtOverflow d c pre u.inexact
  else if u.exp < 948 then cvtTiny d c pre u.inexact
  else ⟨packF32 (f64Sign d) ((u.exp - 947) * 2 ^ 23 + (u.sig - 2 ^ 23)), pre, { noFlags with pe := u.inexact }⟩

/-- `CvtF64ToF32(d, ctx)` (R115; D9: the instance the spec supplies, log 20). -/
def cvtF64ToF32 (d : F64) (c : Ctx) : Converted :=
  if f64Exp d = 2047 ∧ f64Frac d ≠ 0 then cvtNaN d
  else if f64Exp d = 2047 then ⟨packF32 (f64Sign d) 0x7F800000, noFlags, noFlags⟩
  else if f64Exp d = 0 ∧ f64Frac d = 0 then ⟨packF32 (f64Sign d) 0, noFlags, noFlags⟩
  else if f64Exp d = 0 ∧ c.daz then ⟨packF32 (f64Sign d) 0, noFlags, noFlags⟩
  else cvtFinite d c { noFlags with de := decide (f64Exp d = 0) }

end Sys2Proof.Machine
end

