-- ==== Sys2Proof/WellFormed.lean ====
section
/-!
DEFINITION. Which terms of `Instr` stand for an encoding of the given mode (30_encoding.md R60 to R80). Decoding answers
well-formed terms only, and every well-formed term has an encoding.
-/

namespace Sys2Proof

/-- Bytes of the displacement (R43). -/
def Disp.size : Disp → Nat
  | .none => 0
  | .d8 _ => 1
  | .d32 _ => 4

/-- Bytes of SIB and displacement (R43, R44). -/
def MemOperand.size : MemOperand → Nat
  | .base _ d => d.size
  | .disp32 _ => 4
  | .sib _ _ _ d => 1 + d.size
  | .sibDisp32 .. => 5

/-- Bytes after ModRM (R60). -/
def RegMem.size : RegMem → Nat
  | .reg _ => 0
  | .mem m => m.size

/-- Length in bytes, counted from the shapes of R60. -/
def Instr.size : Instr → Nat
  | .cvtpd2ps p _ rm => p.length + 3 + rm.size
  | .cvtpd2psRex p _ _ rm => p.length + 4 + rm.size
  | .vex128C5 p _ _ rm | .vex256C5 p _ _ rm => p.length + 4 + rm.size
  | .vex128C4 p _ _ rm | .vex256C4 p _ _ rm => p.length + 5 + rm.size
  | .evex512Er p .. => p.length + 6
  | .evex128 p _ _ rm | .evex256 p _ _ rm | .evex512 p _ _ rm => p.length + 6 + rm.size
  | .evex128Bcst p _ _ m | .evex256Bcst p _ _ m | .evex512Bcst p _ _ m => p.length + 6 + m.size

/-- The memory operand shapes that ModRM and SIB can write (R43, R44). -/
def MemOperand.wf : MemOperand → Bool
  | .base rm d => rm != 4#3 && !(rm == 5#3 && d == .none)
  | .disp32 _ => true
  | .sib _ _ bs d => !(bs == 5#3 && d == .none)
  | .sibDisp32 .. => true

/-- See `MemOperand.wf`. -/
def RegMem.wf : RegMem → Bool
  | .reg _ => true
  | .mem m => m.wf

/-- Whether the r/m operand is in memory. -/
def RegMem.isMem : RegMem → Bool
  | .reg _ => false
  | .mem _ => true

/-- A prefix byte that R61 keeps as a legacy prefix (all but a dropped REX). -/
def Prefix.isLegacy : Prefix → Bool
  | .droppedRex _ => false
  | _ => true

/-- A REX byte is dropped only by a legacy prefix right after it, and exists in M64 only (R62, R76 step 2). -/
def prefixesScan (m : Mode) : List Prefix → Bool
  | [] => true
  | .droppedRex _ :: ps =>
    (m == .m64) && (match ps with | [] => false | p :: _ => p.isLegacy) && prefixesScan m ps
  | _ :: ps => prefixesScan m ps

/-- The prefixes of the legacy shape: 66 present, no LOCK, REPNE or REP (R61, R63). -/
def prefixesLegacy (m : Mode) (ps : List Prefix) : Bool :=
  prefixesScan m ps && ps.contains .opSize && !ps.contains .lock && !ps.contains .repne && !ps.contains .rep

/-- The prefixes of the VEX and EVEX shapes: segment overrides and 67 only, and dropped REX bytes (R61). -/
def prefixesVex (m : Mode) (ps : List Prefix) : Bool :=
  prefixesScan m ps && !ps.contains .opSize && !ps.contains .lock && !ps.contains .repne && !ps.contains .rep

/-- With prefix 67, M32 addresses memory in 16-bit forms, which are refused (R47, D25). -/
def addressable (m : Mode) (ps : List Prefix) (mem : Bool) : Bool :=
  !(m == .m32 && mem && ps.contains .addrSize)

/-- The extension bits an EVEX encoding may set in the mode (R80), and zeroing needs a mask (R72). -/
def Evex.wf (m : Mode) (e : Evex) : Bool :=
  (m == .m64 || !(e.r || e.x || e.b || e.rHi)) && !(e.z && e.aaa == 0#3)

/-- The bits a three-byte VEX encoding may set in the mode (R80). -/
def Vex3.wf (m : Mode) (v : Vex3) : Bool :=
  m == .m64 || !(v.r || v.x || v.b)

/-- Everything about an instruction but its length. -/
def Instr.shapeWf (m : Mode) : Instr → Bool
  | .cvtpd2ps p _ rm => prefixesLegacy m p && rm.wf && addressable m p rm.isMem
  | .cvtpd2psRex p _ _ rm => (m == .m64) && prefixesLegacy m p && rm.wf
  | .vex128C5 p r _ rm | .vex256C5 p r _ rm =>
    (m == .m64 || !r) && prefixesVex m p && rm.wf && addressable m p rm.isMem
  | .vex128C4 p v _ rm | .vex256C4 p v _ rm =>
    v.wf m && prefixesVex m p && rm.wf && addressable m p rm.isMem
  | .evex512Er p e _ _ _ => e.wf m && prefixesVex m p
  | .evex128 p e _ rm | .evex256 p e _ rm | .evex512 p e _ rm =>
    e.wf m && prefixesVex m p && rm.wf && addressable m p rm.isMem
  | .evex128Bcst p e _ mo | .evex256Bcst p e _ mo | .evex512Bcst p e _ mo =>
    e.wf m && prefixesVex m p && mo.wf && addressable m p true

/-- `i` is an instruction of the mode: its shape is one that R76 decodes, and it has at most 15 bytes (R60). -/
def Instr.wf (m : Mode) (i : Instr) : Bool :=
  i.shapeWf m && decide (i.size ≤ 15)

end Sys2Proof
end

