-- ==== Sys2Proof/Decode.lean ====
section
/-!
DEFINITION. Decoding, total on any byte string (30_encoding.md R76), then the encoder, written from the encoding tables of
R60 to R72, then the bridge to the opcode table's words.
-/

namespace Sys2Proof

/-- What the bytes are (R76). `rest` is what follows the instruction. -/
inductive DecodeResult where
  /-- One of the seven forms. -/
  | instr (i : Instr) (rest : List Byte)
  /-- A `#UD` encoding of at most 15 bytes (R73, R78). -/
  | invalid
  /-- More than 15 bytes: `#GP(0)`, before any `#UD` (R60, R76 step 5, C14). -/
  | tooLong
  /-- The bytes are another instruction (R79, R189). -/
  | otherInstruction
  /-- An M32 encoding with an extension bit set (R80). -/
  | extensionInM32
  /-- 16-bit addressing: prefix 67 and a memory operand in M32 (R47, D25). -/
  | address16
  /-- The bytes end before the instruction does. -/
  | truncated
deriving DecidableEq, Repr

/-! ### Legacy prefixes and REX (R61, R62) -/

/-- The legacy prefix a byte is, if it is one (R61). -/
def legacyPrefix (b : Byte) : Option Prefix :=
  if b = 0x66#8 then some .opSize
  else if b = 0x67#8 then some .addrSize
  else if b = 0x26#8 then some (.seg .es)
  else if b = 0x2E#8 then some (.seg .cs)
  else if b = 0x36#8 then some (.seg .ss)
  else if b = 0x3E#8 then some (.seg .ds)
  else if b = 0x64#8 then some (.seg .fs)
  else if b = 0x65#8 then some (.seg .gs)
  else if b = 0xF0#8 then some .lock
  else if b = 0xF2#8 then some .repne
  else if b = 0xF3#8 then some .rep
  else none

/-- The REX bits of a byte 40 to 4F (R62). -/
def rexOf (b : Byte) : Option Rex :=
  if b.extractLsb' 4 4 = 0x4#4 then some ⟨b.getLsbD 3, b.getLsbD 2, b.getLsbD 1, b.getLsbD 0⟩ else none

/-- Steps 1 and 2 of R76: the prefix bytes in order, the REX byte in force, and the bytes from the opcode on. -/
def scanPrefixes (m : Mode) : List Byte → List Prefix × Option Rex × List Byte
  | [] => ([], none, [])
  | b :: rest =>
    match legacyPrefix b with
    | some p =>
      let r := scanPrefixes m rest
      (p :: r.1, r.2)
    | none =>
      match m, rexOf b, rest with
      | .m64, some rex, c :: _ =>
        if (legacyPrefix c).isSome then
          let r := scanPrefixes m rest
          (.droppedRex rex :: r.1, r.2)
        else ([], some rex, rest)
      | .m64, some rex, [] => ([], some rex, [])
      | _, _, _ => ([], none, b :: rest)

/-! ### ModRM, SIB, displacement (R43, R44, R64) -/

/-- The ModRM operand part: the fields, 16-bit addressing, or bytes that end too early. -/
inductive ModRMResult where
  | ok (reg : BitVec 3) (rm : RegMem) (rest : List Byte)
  | address16
  | truncated
deriving DecidableEq, Repr

/-- Four bytes, least significant first (R41). -/
def le32 (b0 b1 b2 b3 : Byte) : BitVec 32 := b3 ++ b2 ++ b1 ++ b0

/-- The displacement that `mod` selects, given to the operand it belongs to (R43). -/
def parseDisp (mod : BitVec 2) (reg : BitVec 3) (mk : Disp → MemOperand) (bs : List Byte) : ModRMResult :=
  if mod = 0#2 then .ok reg (.mem (mk .none)) bs
  else if mod = 1#2 then
    match bs with
    | d :: rest => .ok reg (.mem (mk (.d8 d))) rest
    | [] => .truncated
  else
    match bs with
    | b0 :: b1 :: b2 :: b3 :: rest => .ok reg (.mem (mk (.d32 (le32 b0 b1 b2 b3)))) rest
    | _ => .truncated

/-- A 32-bit displacement with no base register. -/
def parseDisp32 (reg : BitVec 3) (mk : BitVec 32 → MemOperand) (bs : List Byte) : ModRMResult :=
  match bs with
  | b0 :: b1 :: b2 :: b3 :: rest => .ok reg (.mem (mk (le32 b0 b1 b2 b3))) rest
  | _ => .truncated

/-- Step 4 of R76. `a16` says that a memory operand has 16-bit addressing. -/
def parseModRM (a16 : Bool) : List Byte → ModRMResult
  | [] => .truncated
  | modrm :: rest =>
    let mod : BitVec 2 := modrm.extractLsb' 6 2
    let reg : BitVec 3 := modrm.extractLsb' 3 3
    let rm : BitVec 3 := modrm.extractLsb' 0 3
    if mod = 3#2 then .ok reg (.reg rm) rest
    else if a16 then .address16
    else if rm = 4#3 then
      match rest with
      | [] => .truncated
      | sib :: rest' =>
        let scale : BitVec 2 := sib.extractLsb' 6 2
        let index : BitVec 3 := sib.extractLsb' 3 3
        let bs : BitVec 3 := sib.extractLsb' 0 3
        if bs = 5#3 ∧ mod = 0#2 then parseDisp32 reg (.sibDisp32 scale index) rest'
        else parseDisp mod reg (.sib scale index bs) rest'
    else if rm = 5#3 ∧ mod = 0#2 then parseDisp32 reg .disp32 rest
    else parseDisp mod reg (.base rm) rest

/-! ### The opcode and the VEX and EVEX prefixes (R76 step 3) -/

/-- What step 3 finds: a form waiting for its ModRM operand, with the held-back `#UD` (C14), or a verdict. `build`
answers `none` where the form is a `#UD` encoding once ModRM is known (R71). -/
inductive OpcodeResult where
  | form (ud : Bool) (build : BitVec 3 → RegMem → Option Instr) (rest : List Byte)
  | otherInstruction
  | extensionInM32
  | truncated

/-- A prefix that may not stand before C4, C5 or 62 (R61, R62). -/
def badVexPrefix (pfx : List Prefix) (rex : Option Rex) : Bool :=
  pfx.contains .opSize || pfx.contains .lock || pfx.contains .repne || pfx.contains .rep || rex.isSome

/-- The legacy shape, after the byte 0F (R63). -/
def opcodeLegacy (pfx : List Prefix) (rex : Option Rex) : List Byte → OpcodeResult
  | [] => .truncated
  | op :: rest =>
    if op ≠ 0x5A#8 then .otherInstruction
    else if pfx.contains .repne || pfx.contains .rep || !pfx.contains .opSize then .otherInstruction
    else
      .form (pfx.contains .lock)
        (fun reg rm => match rex with
          | none => some (.cvtpd2ps pfx reg rm)
          | some x => some (.cvtpd2psRex pfx x reg rm))
        rest

/-- The two-byte VEX shape, after the byte C5 (R66). -/
def opcodeC5 (m : Mode) (pfx : List Prefix) (rex : Option Rex) : List Byte → OpcodeResult
  | [] => .truncated
  | v1 :: rest =>
    if m = .m32 ∧ v1.extractLsb' 6 2 ≠ 3#2 then .otherInstruction
    else if v1.extractLsb' 0 2 ≠ 1#2 then .otherInstruction
    else match rest with
      | [] => .truncated
      | op :: rest' =>
        if op ≠ 0x5A#8 then .otherInstruction
        else
          .form (badVexPrefix pfx rex || v1.extractLsb' 3 4 != 0xF#4)
            (fun reg rm =>
              if v1.getLsbD 2 then some (.vex256C5 pfx (!v1.getLsbD 7) reg rm)
              else some (.vex128C5 pfx (!v1.getLsbD 7) reg rm))
            rest'

/-- The three-byte VEX shape, after the byte C4 (R67). -/
def opcodeC4 (m : Mode) (pfx : List Prefix) (rex : Option Rex) : List Byte → OpcodeResult
  | [] => .truncated
  | v1 :: rest =>
    if m = .m32 ∧ v1.extractLsb' 6 2 ≠ 3#2 then .otherInstruction
    else if m = .m32 ∧ v1.getLsbD 5 = false then .extensionInM32
    else match rest with
      | v2 :: op :: rest' =>
        if v1.extractLsb' 0 5 ≠ 1#5 ∨ v2.extractLsb' 0 2 ≠ 1#2 ∨ op ≠ 0x5A#8 then .otherInstruction
        else
          let v : Vex3 := ⟨!v1.getLsbD 7, !v1.getLsbD 6, !v1.getLsbD 5, v2.getLsbD 7⟩
          .form (badVexPrefix pfx rex || v2.extractLsb' 3 4 != 0xF#4)
            (fun reg rm =>
              if v2.getLsbD 2 then some (.vex256C4 pfx v reg rm) else some (.vex128C4 pfx v reg rm))
            rest'
      | _ => .truncated

/-- The rounding control two bits select (R104). -/
def Rounding.ofBits (b : BitVec 2) : Rounding :=
  if b = 0#2 then .nearest else if b = 1#2 then .down else if b = 2#2 then .up else .zero

/-- The form of an EVEX encoding, decided by `mod`, `b` and `L'L` (the table of R71); `none` is `#UD`. -/
def evexForm (pfx : List Prefix) (e : Evex) (b : Bool) (ll : BitVec 2) (reg : BitVec 3) (rm : RegMem) :
    Option Instr :=
  match b, rm with
  | true, .reg r => some (.evex512Er pfx e (.ofBits ll) reg r)
  | true, .mem mo =>
    if ll = 0#2 then some (.evex128Bcst pfx e reg mo)
    else if ll = 1#2 then some (.evex256Bcst pfx e reg mo)
    else if ll = 2#2 then some (.evex512Bcst pfx e reg mo)
    else none
  | false, rm =>
    if ll = 0#2 then some (.evex128 pfx e reg rm)
    else if ll = 1#2 then some (.evex256 pfx e reg rm)
    else if ll = 2#2 then some (.evex512 pfx e reg rm)
    else none

/-- The EVEX shape, after the byte 62 (R69, R70). -/
def opcode62 (m : Mode) (pfx : List Prefix) (rex : Option Rex) : List Byte → OpcodeResult
  | [] => .truncated
  | p0 :: rest =>
    if m = .m32 ∧ p0.extractLsb' 6 2 ≠ 3#2 then .otherInstruction
    else match rest with
      | p1 :: p2 :: op :: rest' =>
        if m = .m32 ∧ (p0.getLsbD 5 = false ∨ p0.getLsbD 4 = false ∨ p2.getLsbD 3 = false) then .extensionInM32
        else if p0.extractLsb' 0 3 ≠ 1#3 ∨ p1.extractLsb' 0 2 ≠ 1#2 ∨ op ≠ 0x5A#8 then .otherInstruction
        else
          let e : Evex :=
            ⟨!p0.getLsbD 7, !p0.getLsbD 6, !p0.getLsbD 5, !p0.getLsbD 4, p2.getLsbD 7, p2.extractLsb' 0 3⟩
          .form
            (badVexPrefix pfx rex || p0.getLsbD 3 || !p1.getLsbD 2 || !p1.getLsbD 7 ||
              p1.extractLsb' 3 4 != 0xF#4 || !p2.getLsbD 3 || (e.z && e.aaa == 0#3))
            (fun reg rm => evexForm pfx e (p2.getLsbD 4) (p2.extractLsb' 5 2) reg rm)
            rest'
      | _ => .truncated

/-- Step 3 of R76. -/
def parseOpcode (m : Mode) (pfx : List Prefix) (rex : Option Rex) : List Byte → OpcodeResult
  | [] => .truncated
  | b :: rest =>
    if b = 0x0F#8 then opcodeLegacy pfx rex rest
    else if b = 0xC5#8 then opcodeC5 m pfx rex rest
    else if b = 0xC4#8 then opcodeC4 m pfx rex rest
    else if b = 0x62#8 then opcode62 m pfx rex rest
    else .otherInstruction

/-- The whole procedure of R76 but its step 6, which needs the state: a `refuse` verdict is immediate; a `#UD` is held
back until the length is known, and a length over 15 takes precedence over it (C14). -/
def decode (m : Mode) (bytes : List Byte) : DecodeResult :=
  let sp := scanPrefixes m bytes
  match parseOpcode m sp.1 sp.2.1 sp.2.2 with
  | .truncated => .truncated
  | .otherInstruction => .otherInstruction
  | .extensionInM32 => .extensionInM32
  | .form ud build rest =>
    match parseModRM (m == .m32 && sp.1.contains .addrSize) rest with
    | .truncated => .truncated
    | .address16 => .address16
    | .ok reg rm rest' =>
      if 15 < bytes.length - rest'.length then .tooLong
      else if ud then .invalid
      else match build reg rm with
        | none => .invalid
        | some i => .instr i rest'

/-! ### The encoder (R60 to R72) -/

/-- The byte `0100 W R X B` (R62). -/
def Rex.toByte (r : Rex) : Byte :=
  0x4#4 ++ BitVec.ofBool r.w ++ BitVec.ofBool r.r ++ BitVec.ofBool r.x ++ BitVec.ofBool r.b

/-- The override byte of a segment register (R61). -/
def SegReg.toByte : SegReg → Byte
  | .es => 0x26#8
  | .cs => 0x2E#8
  | .ss => 0x36#8
  | .ds => 0x3E#8
  | .fs => 0x64#8
  | .gs => 0x65#8

/-- The byte of a prefix (R61, R62). -/
def Prefix.toByte : Prefix → Byte
  | .opSize => 0x66#8
  | .addrSize => 0x67#8
  | .seg g => g.toByte
  | .lock => 0xF0#8
  | .repne => 0xF2#8
  | .rep => 0xF3#8
  | .droppedRex r => r.toByte

/-- The bytes of a 32-bit displacement, least significant first (R41). -/
def bytes32 (v : BitVec 32) : List Byte :=
  [v.extractLsb' 0 8, v.extractLsb' 8 8, v.extractLsb' 16 8, v.extractLsb' 24 8]

/-- The `mod` field a displacement selects (R43). -/
def Disp.mod : Disp → BitVec 2
  | .none => 0#2
  | .d8 _ => 1#2
  | .d32 _ => 2#2

/-- The bytes of a displacement. -/
def Disp.bytes : Disp → List Byte
  | .none => []
  | .d8 v => [v]
  | .d32 v => bytes32 v

/-- A byte of fields `xx yyy zzz`: ModRM (R64) and SIB (R44). -/
def byte233 (hi : BitVec 2) (mid lo : BitVec 3) : Byte := hi ++ mid ++ lo

/-- ModRM, SIB and displacement (R43, R44, R64). -/
def RegMem.encode (reg : BitVec 3) : RegMem → List Byte
  | .reg rm => [byte233 3#2 reg rm]
  | .mem (.base rm d) => byte233 d.mod reg rm :: d.bytes
  | .mem (.disp32 v) => byte233 0#2 reg 5#3 :: bytes32 v
  | .mem (.sib scale index bs d) => byte233 d.mod reg 4#3 :: byte233 scale index bs :: d.bytes
  | .mem (.sibDisp32 scale index v) => byte233 0#2 reg 4#3 :: byte233 scale index 5#3 :: bytes32 v

/-- The second byte of a two-byte VEX prefix: `R̄ 1111 L 01` (R66). -/
def vexC5Byte (r l : Bool) : Byte := BitVec.ofBool (!r) ++ 0xF#4 ++ BitVec.ofBool l ++ 1#2

/-- The second byte of a three-byte VEX prefix: `R̄ X̄ B̄ 00001` (R67). -/
def vexC4Byte1 (v : Vex3) : Byte := BitVec.ofBool (!v.r) ++ BitVec.ofBool (!v.x) ++ BitVec.ofBool (!v.b) ++ 1#5

/-- The third byte of a three-byte VEX prefix: `W 1111 L 01` (R67). -/
def vexC4Byte2 (v : Vex3) (l : Bool) : Byte := BitVec.ofBool v.w ++ 0xF#4 ++ BitVec.ofBool l ++ 1#2

/-- P0 of EVEX: `R̄ X̄ B̄ R̄' 0 001` (R69, R70). -/
def evexP0 (e : Evex) : Byte :=
  BitVec.ofBool (!e.r) ++ BitVec.ofBool (!e.x) ++ BitVec.ofBool (!e.b) ++ BitVec.ofBool (!e.rHi) ++ 1#4

/-- P2 of EVEX: `z L'L b 1 aaa` (R69, R70). -/
def evexP2 (e : Evex) (ll : BitVec 2) (b : Bool) : Byte :=
  BitVec.ofBool e.z ++ ll ++ BitVec.ofBool b ++ 1#1 ++ e.aaa

/-- The bits of a rounding control (R104). -/
def Rounding.toBits : Rounding → BitVec 2
  | .nearest => 0#2
  | .down => 1#2
  | .up => 2#2
  | .zero => 3#2

/-- `C5 v1 5A` and the ModRM operand (R66). -/
def encodeC5 (pfx : List Prefix) (r l : Bool) (reg : BitVec 3) (rm : RegMem) : List Byte :=
  pfx.map Prefix.toByte ++ [0xC5#8, vexC5Byte r l, 0x5A#8] ++ rm.encode reg

/-- `C4 v1 v2 5A` and the ModRM operand (R67). -/
def encodeC4 (pfx : List Prefix) (v : Vex3) (l : Bool) (reg : BitVec 3) (rm : RegMem) : List Byte :=
  pfx.map Prefix.toByte ++ [0xC4#8, vexC4Byte1 v, vexC4Byte2 v l, 0x5A#8] ++ rm.encode reg

/-- `62 P0 P1 P2 5A` and the ModRM operand; P1 is FD (R70). -/
def encode62 (pfx : List Prefix) (e : Evex) (ll : BitVec 2) (b : Bool) (reg : BitVec 3) (rm : RegMem) : List Byte :=
  pfx.map Prefix.toByte ++ [0x62#8, evexP0 e, 0xFD#8, evexP2 e ll b, 0x5A#8] ++ rm.encode reg

/-- The bytes of an instruction, in address order (R60, R84). -/
def encode : Instr → List Byte
  | .cvtpd2ps p reg rm => p.map Prefix.toByte ++ [0x0F#8, 0x5A#8] ++ rm.encode reg
  | .cvtpd2psRex p rex reg rm => p.map Prefix.toByte ++ [rex.toByte, 0x0F#8, 0x5A#8] ++ rm.encode reg
  | .vex128C5 p r reg rm => encodeC5 p r false reg rm
  | .vex128C4 p v reg rm => encodeC4 p v false reg rm
  | .vex256C5 p r reg rm => encodeC5 p r true reg rm
  | .vex256C4 p v reg rm => encodeC4 p v true reg rm
  | .evex512Er p e rc reg rm => encode62 p e rc.toBits true reg (.reg rm)
  | .evex128 p e reg rm => encode62 p e 0#2 false reg rm
  | .evex128Bcst p e reg m => encode62 p e 0#2 true reg (.mem m)
  | .evex256 p e reg rm => encode62 p e 1#2 false reg rm
  | .evex256Bcst p e reg m => encode62 p e 1#2 true reg (.mem m)
  | .evex512 p e reg rm => encode62 p e 2#2 false reg rm
  | .evex512Bcst p e reg m => encode62 p e 2#2 true reg (.mem m)

/-- `len`: the length of the instruction in bytes (R28). -/
def Instr.len (i : Instr) : Nat := (encode i).length

/-! ### The opcode table's words -/

/-- The longest instruction (R60). -/
def maxLength : Nat := 15

/-- Byte `k` of a number, least significant byte first. -/
def byteOf (w k : Nat) : Byte := BitVec.ofNat 8 (w >>> (8 * k))

/-- A table word's bytes in address order, the first byte in bits 7 to 0, zeros above `nbits`. -/
def wordBytesLow (nbits w : Nat) : List Byte :=
  (List.range maxLength).map (byteOf (w % 2 ^ nbits))

/-- A table word's bytes in address order, the first byte in the highest byte of `nbits`, zeros behind: the numbering of
the table's own "match", "fixed" and "fields". -/
def wordBytesHigh (nbits w : Nat) : List Byte :=
  let n := (nbits + 7) / 8
  (List.range maxLength).map fun k => if k < n then byteOf (w % 2 ^ nbits) (n - 1 - k) else 0#8

/-- Whether the bytes decode to an instruction in M64. -/
def decodesTo (bytes : List Byte) : Option Instr :=
  match decode .m64 bytes with
  | .instr i _ => some i
  | _ => none

/-- The bytes of a table word (log 24): the first byte lowest; where that is no instruction, the first byte highest, as
the table's "fixed" numbers its three 32-bit rows. No table word is an instruction in both readings. -/
def tableBytes (nbits w : Nat) : List Byte :=
  if (decodesTo (wordBytesLow nbits w)).isSome then wordBytesLow nbits w else wordBytesHigh nbits w

/-- The instruction the decoder reads from a word of the opcode table. -/
def decodeTableWord (nbits w : Nat) : Option Instr := decodesTo (tableBytes nbits w)

end Sys2Proof
end

