-- ==== Sys2Proof/Machine/Ops.lean ====
section
/-!
DEFINITION. The named operations over memory, registers and the configuration, and taking an exception.
-/

namespace Sys2Proof

/-! ### The configuration (R6, R52, R174) -/

/-- Whether one byte exists and may be read: in the text (R203 item 2) or in a data range. -/
def Config.readableByte (c : Config) (a : Nat) : Bool :=
  (decide (c.textLo ≤ a) && decide (a < c.textHi)) ||
  c.readable.any fun r => decide (r.base ≤ a) && decide (a < r.base + r.size)

/-- The number of addresses: `2^64` in M64, `2^32` in M32 (R13, R40). -/
def Mode.addressSpace : Mode → Nat
  | .m64 => 2 ^ 64
  | .m32 => 2 ^ 32

/-- An address cut to the address width (R13, R45, R47). -/
def Mode.wrapAddress : Mode → Word → Word
  | .m64, a => a
  | .m32, a => (a.setWidth 32).setWidth 64

/-- The bits a vector register has (R6, R20). -/
def MaxVL.mask (v : MaxVL) : Vec := BitVec.ofNat 512 (2 ^ v.bits - 1)

/-- The feature condition of a form (R2, R174). -/
def Config.available (c : Config) : Form → Bool
  | .legacy => c.fSSE2
  | .vex128 | .vex256 => c.fAVX
  | .evex128 | .evex256 => (c.fAVX512VL && c.fAVX512F) || c.fAVX10_1
  | .evex512 | .evex512Er => c.fAVX512F || c.fAVX10_1

end Sys2Proof

namespace Sys2Proof.Machine

/-! ### Memory (R40, R41, R50) -/

/-- What an unlisted address reads as (log 9). -/
def unlistedByte : Byte := 0#8

/-- The byte at an address. -/
def Memory.read : Memory → Nat → Byte
  | [], _ => unlistedByte
  | (k, v) :: m, a => if k = a then v else Memory.read m a

/-- Memory with one byte replaced, in canonical form. No instruction writes memory (R42); the launch does (R203). -/
def Memory.write : Memory → Nat → Byte → Memory
  | [], a, v => if v = unlistedByte then [] else [(a, v)]
  | (k, w) :: m, a, v =>
    if a < k then (if v = unlistedByte then (k, w) :: m else (a, v) :: (k, w) :: m)
    else if a = k then (if v = unlistedByte then m else (k, v) :: m)
    else (k, w) :: Memory.write m a v

/-- Consecutive bytes from an address. -/
def Memory.writeBytes : Memory → Nat → List Byte → Memory
  | m, _, [] => m
  | m, a, b :: bs => Memory.writeBytes (m.write a b) (a + 1) bs

/-- Canonical form from an address on: rising addresses, no entry equal to `unlistedByte`. -/
def Memory.wfFrom : Nat → Memory → Bool
  | _, [] => true
  | lo, (k, v) :: m => decide (lo ≤ k) && (v != unlistedByte) && Memory.wfFrom (k + 1) m

/-- The canonical form of memory. -/
def Memory.wf (m : Memory) : Bool := Memory.wfFrom 0 m

/-- `MemRead(la, n)` (R50): bits `[8i+7:8i]` are the byte at `la + i`, zero above `8n` (R41: little-endian). -/
def memRead (m : Memory) (la : Nat) : Nat → Vec
  | 0 => 0#512
  | n + 1 => (m.read la).setWidth 512 ||| (memRead m (la + 1) n <<< 8)

/-! ### Which addresses exist (R52) -/

/-- `Readable(la, n)` (R52). -/
def State.isReadable (s : State) (la n : Nat) : Bool :=
  (List.range n).all fun i => s.cfg.readableByte (la + i)

/-! ### Registers -/

/-- `ZMM[n]`, read: `MAXVL` bits (R20). -/
def State.readZmm (s : State) (n : Fin 32) : Vec := s.zmm[n] &&& s.cfg.maxvl.mask

/-- `ZMM[n]`, written: bits at and above `MAXVL` do not exist (R6). -/
def State.setZmm (s : State) (n : Fin 32) (v : Vec) : State :=
  { s with zmm := s.zmm.set n (v &&& s.cfg.maxvl.mask) }

/-- `K[n]`, read (R22). -/
def State.readK (s : State) (n : BitVec 3) : Word := s.k[n.toFin]

/-- `GPR[n]`, read: 64 bits in M64, the low 32 bits in M32 (R13, R27). -/
def State.readGpr (s : State) (n : BitVec 4) : Word := s.cfg.mode.wrapAddress s.gpr[n.toFin]

/-- The address of the current instruction (R28). -/
def State.ip (s : State) : Word := s.cfg.mode.wrapAddress s.rip

/-- `rip + len`, the address of the next instruction (R28). -/
def State.nextIp (s : State) (len : Nat) : Word := s.cfg.mode.wrapAddress (s.ip + BitVec.ofNat 64 len)

/-- MXCSR replaced. -/
def State.setMxcsr (s : State) (x : BitVec 32) : State := { s with mxcsr := x }

/-- The instruction pointer replaced. -/
def State.setRip (s : State) (a : Word) : State := { s with rip := a }

/-- Memory and the text range replaced: the launch loads a program (R203). -/
def State.setProgram (s : State) (m : Memory) (lo hi : Nat) : State :=
  { s with mem := m, cfg := { s.cfg with textLo := lo, textHi := hi, endAddr := hi } }

/-! ### Availability (R2, R174, R175) -/

/-- CR0.EM and CR4.OSFXSR let the legacy form run (R175). -/
def State.osLegacy (s : State) : Bool := !s.cr0.getLsbD 2 && s.cr4.getLsbD 9

/-- CR4.OSXSAVE and XCR0[2:1] let the VEX forms run (R175). -/
def State.osAvx (s : State) : Bool := s.cr4.getLsbD 18 && s.xcr0.getLsbD 1 && s.xcr0.getLsbD 2

/-- XCR0[7:5] as well let the EVEX forms run (R175). -/
def State.osAvx512 (s : State) : Bool :=
  s.osAvx && s.xcr0.getLsbD 5 && s.xcr0.getLsbD 6 && s.xcr0.getLsbD 7

/-- `ENV_OK(form)`: the negation of the form's `#UD` column in R175. -/
def State.envOk (s : State) : Form → Bool
  | .legacy => s.osLegacy
  | .vex128 | .vex256 => s.osAvx
  | .evex128 | .evex256 | .evex512 | .evex512Er => s.osAvx512

/-- `ENV_TS`: CR0.TS (R175). -/
def State.envTs (s : State) : Bool := s.cr0.getLsbD 3

/-- `ENV_XMMEXCPT`: CR4.OSXMMEXCPT (R177). -/
def State.envXmmExcpt (s : State) : Bool := s.cr4.getLsbD 10

/-! ### Taking an exception (R178 to R181) -/

/-- The exceptions of R178, `MemFault` standing for three of them (R176). -/
inductive Exc where
  | ud
  | nm
  | gp
  | memFault
  | xm
deriving DecidableEq, Repr

/-- Taking an exception (R180, R181): the run ends with `fault(#X, rip)`. The state of the outcome is the one given: the
pre-state, or the pre-state with the flags R116 ORed in. The saved instruction pointer is its `rip`. Delivery into a
handler, and return from one, are outside the spec's scope (R5, R182, R183, D6). -/
def raise (x : Exc) (s : State) : Fault :=
  match x with
  | .ud => .invalidOpcode s
  | .nm => .deviceNotAvailable s
  | .gp => .generalProtection s
  | .memFault => .memFault s
  | .xm => .simdFloatingPoint s

/-- The exception of a fault. -/
def Fault.exc : Fault → Exc
  | .invalidOpcode _ => .ud
  | .deviceNotAvailable _ => .nm
  | .generalProtection _ => .gp
  | .memFault _ => .memFault
  | .simdFloatingPoint _ => .xm

/-- The state in the outcome of a fault (R181). -/
def Fault.state : Fault → State
  | .invalidOpcode s => s
  | .deviceNotAvailable s => s
  | .generalProtection s => s
  | .memFault s => s
  | .simdFloatingPoint s => s

/-- The vector number (R17, R178); which of three `MemFault` is, the spec leaves open (R176). -/
def Exc.vector : Exc → Option Nat
  | .ud => some 6
  | .nm => some 7
  | .gp => some 13
  | .memFault => none
  | .xm => some 19

/-- Why a meaning stops before its effect. -/
inductive Stop where
  | exception (x : Exc)
  | refuse (r : Refusal)
deriving DecidableEq, Repr

/-- The outcome of stopping in a state. -/
def Stop.outcome (s : State) : Stop → Host.Outcome State Fault Refusal
  | .exception x => .fault (raise x s)
  | .refuse r => .refused r

/-- The availability checks in their priority (R175, R179): feature and enablement `#UD`, then `#NM`. -/
def gate (f : Form) (s : State) : Except Stop Unit :=
  if !s.cfg.available f then .error (.exception .ud)
  else if !s.envOk f then .error (.exception .ud)
  else if s.envTs then .error (.exception .nm)
  else .ok ()

end Sys2Proof.Machine
end

