-- ==== Sys2Proof/Machine/Operands.lean ====
section
/-!
DEFINITION. Operands: register numbers (30_encoding.md R65), addresses (20_memory.md R43 to R49), and reading the source
(R50 to R52, 43_vcvtpd2ps_evex.md R156 steps 4 and 5).
-/

namespace Sys2Proof

/-! ### The shape of a form (R12, R16), of a displacement and of an override -/

/-- `disp` (R43): `disp8` is scaled by `scale8` (R49), `disp32` never. -/
def Disp.value (scale8 : Nat) : Disp → Word
  | .none => 0#64
  | .d8 v => v.signExtend 64 * BitVec.ofNat 64 scale8
  | .d32 v => v.signExtend 64

/-- Whether an override can change the address in the mode: in M64 only FS and GS have a base (R48, R61). -/
def SegReg.hasEffect (m : Mode) : SegReg → Bool
  | .fs | .gs => true
  | _ => m == .m32

/-- `KL`: the number of elements (R12). -/
def Form.kl : Form → Nat
  | .legacy | .vex128 | .evex128 => 2
  | .vex256 | .evex256 => 4
  | .evex512 | .evex512Er => 8

/-- `VL` in bits (R12). -/
def Form.vl (f : Form) : Nat := 64 * f.kl

/-- The scaling `N` of a `disp8` for a full-vector operand (R43, R49): 1 for the legacy and VEX forms. -/
def Form.scale8 : Form → Nat
  | .legacy | .vex128 | .vex256 => 1
  | .evex128 => 16
  | .evex256 => 32
  | .evex512 | .evex512Er => 64

/-- Whether the form is one of the EVEX forms. -/
def Form.isEvex : Form → Bool
  | .legacy | .vex128 | .vex256 => false
  | .evex128 | .evex256 | .evex512 | .evex512Er => true

end Sys2Proof

namespace Sys2Proof.Machine

/-! ### Register numbers (R65) -/

/-- A three-bit field with its extension bit above it. -/
def num4 (hi : Bool) (lo : BitVec 3) : BitVec 4 := BitVec.ofBool hi ++ lo

/-- The vector register `hi2 : hi : lo`. -/
def vecNum (hi2 hi : Bool) (lo : BitVec 3) : Fin 32 := (BitVec.ofBool hi2 ++ BitVec.ofBool hi ++ lo : BitVec 5).toFin

/-! ### Addresses (R43 to R49) -/

/-- `idx` (R44): number 0100 is no index. -/
def State.indexValue (s : State) (x : Bool) (scale : BitVec 2) (index : BitVec 3) : Word :=
  if num4 x index = 4#4 then 0#64 else s.readGpr (num4 x index) <<< scale.toNat

/-- The sum of R43, R44, R46 and R47, before it is cut to the address size. -/
def State.addressSum (s : State) (x b : Bool) (scale8 len : Nat) : MemOperand → Word
  | .base rm d => s.readGpr (num4 b rm) + d.value scale8
  | .disp32 v =>
    match s.cfg.mode with
    | .m64 => s.nextIp len + v.signExtend 64
    | .m32 => v.setWidth 64
  | .sib scale index bs d => s.readGpr (num4 b bs) + s.indexValue x scale index + d.value scale8
  | .sibDisp32 scale index v => s.indexValue x scale index + v.signExtend 64

/-- `ea`: cut to 32 bits in M32 (R47) and with prefix 67 in M64 (R45). -/
def State.effectiveAddress (s : State) (pfx : List Prefix) (x b : Bool) (scale8 len : Nat) (m : MemOperand) : Word :=
  let sum := s.addressSum x b scale8 len m
  if s.cfg.mode = .m32 ∨ pfx.contains .addrSize then Mode.wrapAddress .m32 sum else sum

/-- The base of a segment: FS_BASE, GS_BASE, or the flat 0 (R48, D8; M32: log 7). -/
def State.segmentBase (s : State) : SegReg → Word
  | .fs => s.fsBase
  | .gs => s.gsBase
  | _ => 0#64

/-- The overrides of an instruction that can change its address, in order. -/
def overrides (m : Mode) (pfx : List Prefix) : List SegReg :=
  pfx.filterMap fun p =>
    match p with
    | .seg g => if g.hasEffect m then some g else none
    | _ => none

/-- The base added to the effective address (R48): that of the segment named, 0 with none; where overrides with different
bases are named, a free choice among them (log 8). -/
def State.overrideBase (s : State) (pfx : List Prefix) : Word :=
  match overrides s.cfg.mode pfx with
  | [] => 0#64
  | g :: gs =>
    if gs.all (fun h => s.segmentBase h == s.segmentBase g) then s.segmentBase g
    else s.segmentBase ((g :: gs).getD (Config.segmentPick ((g :: gs).map SegReg.toByte) % (gs.length + 1)) g)

/-- `la` (R48): the effective address plus the segment base, in the address width. -/
def State.linearAddress (s : State) (pfx : List Prefix) (x b : Bool) (scale8 len : Nat) (m : MemOperand) : Word :=
  s.cfg.mode.wrapAddress (s.effectiveAddress pfx x b scale8 len m + s.overrideBase pfx)

/-- The scaling `N` of a `disp8` for a broadcast operand (R49). -/
def broadcastScale8 : Nat := 8

/-! ### Reading the source (R50 to R52, R156 step 5) -/

/-- A resolved source operand: a register, a full vector at `la`, or one element at `la` broadcast. -/
inductive Source where
  | reg (n : Fin 32)
  | mem (la : Word)
  | bcst (la : Word)
deriving DecidableEq, Repr

/-- Element `j` of a vector: bits `[64j+63:64j]` (R12). -/
def lane64 (v : Vec) (j : Nat) : F64 := v.extractLsb' (64 * j) 64

/-- The write mask of an EVEX form; `aaa = 000` and the legacy and VEX forms have none (R72, R156 step 4). -/
def State.active (s : State) (aaa : BitVec 3) (j : Nat) : Bool :=
  aaa == 0#3 || (s.readK aaa).getLsbD j

/-- The elements of the active lanes, `none` for a masked-off lane, which is not read (R118). -/
def activeLanes (kl : Nat) (active : Nat → Bool) (x : Nat → F64) : List (Option F64) :=
  (List.range kl).map fun j => if active j then some (x j) else none

/-- An operand of `n` bytes at `la` does not pass the top of the address space (R45, D8). -/
def State.inSpace (s : State) (la : Word) (n : Nat) : Bool :=
  decide (la.toNat + n ≤ s.cfg.mode.addressSpace)

/-- A full memory operand of the legacy and VEX forms (R130 step 3, R140 and R141 step 4): all `VL/8` bytes must be
readable. An operand in device memory, which R54 refuses and R52, R194 and D8 make not Readable, is not readable here and
so raises MemFault: the model's choice (DESIGN CHOICE, log 30), in the two reads below as well. -/
def readVector (s : State) (la : Word) (kl : Nat) : Except Stop (List (Option F64)) :=
  if !s.inSpace la (8 * kl) then .error (.refuse .addressWrap)
  else if !s.isReadable la.toNat (8 * kl) then .error (.exception .memFault)
  else .ok (activeLanes kl (fun _ => true) (lane64 (memRead s.mem la.toNat (8 * kl))))

/-- A full memory operand of the EVEX forms (R156 step 5, b = 0): the bytes of the active lanes must be readable. -/
def readLanes (s : State) (la : Word) (kl : Nat) (active : Nat → Bool) : Except Stop (List (Option F64)) :=
  if !s.inSpace la (8 * kl) then .error (.refuse .addressWrap)
  else if !((List.range kl).all fun j => !active j || s.isReadable (la.toNat + 8 * j) 8) then
    .error (.exception .memFault)
  else .ok (activeLanes kl active fun j => (memRead s.mem (la.toNat + 8 * j) 8).setWidth 64)

/-- A broadcast operand (R156 step 5, b = 1; R158): its 8 bytes must be readable if a lane is active. -/
def readBroadcast (s : State) (la : Word) (kl : Nat) (active : Nat → Bool) : Except Stop (List (Option F64)) :=
  if !s.inSpace la 8 then .error (.refuse .addressWrap)
  else if (List.range kl).any active && !s.isReadable la.toNat 8 then .error (.exception .memFault)
  else .ok (activeLanes kl active fun _ => (memRead s.mem la.toNat 8).setWidth 64)

/-- The source elements of a form (R130 step 3, R140 step 4, R141 step 4, R156 step 5). The legacy form's memory operand
must be 16-byte aligned (R51). -/
def readSource (s : State) (f : Form) (src : Source) (aaa : BitVec 3) : Except Stop (List (Option F64)) :=
  match src with
  | .reg n => .ok (activeLanes (f.kl) (s.active aaa) (lane64 (s.readZmm n)))
  | .mem la =>
    if f = .legacy ∧ la.toNat % 16 ≠ 0 then .error (.exception .gp)
    else if f.isEvex then readLanes s la (f.kl) (s.active aaa)
    else readVector s la (f.kl)
  | .bcst la => readBroadcast s la (f.kl) (s.active aaa)

/-- The r/m operand of a form resolved: register `B:rm`, in the EVEX forms `X:B:rm`, or memory (R64, R65). -/
def State.source (s : State) (f : Form) (pfx : List Prefix) (x b : Bool) (len : Nat) : RegMem → Source
  | .reg rm => .reg (vecNum (f.isEvex && x) b rm)
  | .mem m => .mem (s.linearAddress pfx x b f.scale8 len m)

/-- The broadcast operand resolved (R49, R158). -/
def State.bcstSource (s : State) (pfx : List Prefix) (x b : Bool) (len : Nat) (m : MemOperand) : Source :=
  .bcst (s.linearAddress pfx x b broadcastScale8 len m)

end Sys2Proof.Machine
end

