-- ==== Sys2Proof/Machine/Packed.lean ====
section
/-!
DEFINITION. The packed procedure (40_conversion_numerics.md R116 to R119), the write-back, and the one procedure that the
meanings of all forms instantiate (41 R130, 42 R140 and R141, 43 R156).
-/

namespace Sys2Proof.Machine

/-! ### PackedConvert (R116) -/

/-- What PackedConvert answers: the results of the active lanes with MXCSR after it, or `raise #XM` with MXCSR after it. -/
inductive PackedResult where
  | results (rs : List (Option F32)) (mxcsr : BitVec 32)
  | raiseXm (mxcsr : BitVec 32)
deriving DecidableEq, Repr

/-- The pre-computation flags of a lane; a masked-off lane has none (R118). -/
def lanePre : Option Converted → FpFlags
  | none => noFlags
  | some c => c.pre

/-- The post-computation flags of a lane; an SNaN lane has no post-computation stage (R116). -/
def lanePost : Option Converted → FpFlags
  | none => noFlags
  | some c => if c.pre.ie then noFlags else c.post

/-- PackedConvert (R116), `none` being a lane outside A (R118). -/
def packedConvert (c : Ctx) (mxcsr : BitVec 32) (xs : List (Option F64)) : PackedResult :=
  let cs := xs.map (Option.map (cvtF64ToF32 · c))
  let rs := cs.map (Option.map Converted.r)
  let pre := unionAll (cs.map lanePre)
  let post := unionAll (cs.map lanePost)
  if c.sae then .results rs mxcsr
  else if c.unmasked pre then .raiseXm (raiseFlags mxcsr pre)
  else if c.unmasked post then .raiseXm (raiseFlags mxcsr (pre.union post))
  else .results rs (raiseFlags mxcsr (pre.union post))

/-! ### The destination (R130 step 6, R140 and R141 step 7, R156 step 8) -/

/-- Element `j` of a result: bits `[32j+31:32j]` (R12). -/
def lane32 (v : Vec) (j : Nat) : F32 := v.extractLsb' (32 * j) 32

/-- A vector of 32-bit elements, the first in the low bits, zero above the last. -/
def ofLanes : List F32 → Vec
  | [] => 0#512
  | x :: xs => x.setWidth 512 ||| (ofLanes xs <<< 32)

/-- The destination elements: the result of an active lane; the old element, or 0 with zeroing, of another (R156 step 8). -/
def mergeLanes (old : Vec) (z : Bool) (rs : List (Option F32)) : List F32 :=
  rs.mapIdx fun j r =>
    match r with
    | some x => x
    | none => if z then 0#32 else lane32 old j

/-- The new value of the destination: bits 127:0 replaced and the rest kept in the legacy form (R130 step 6), every bit
above the elements cleared in the others (R140, R141, R156). -/
def writeBack (f : Form) (old : Vec) (z : Bool) (rs : List (Option F32)) : Vec :=
  let new := ofLanes (mergeLanes old z rs)
  match f with
  | .legacy => new ||| ((old >>> 128) <<< 128)
  | _ => new

/-! ### The common procedure -/

/-- The context of a form (R104): embedded rounding, or MXCSR. -/
def State.ctx (s : State) : Option Rounding → Ctx
  | some rc => ctxEmbedded rc s.mxcsr
  | none => ctxOfMxcsr s.mxcsr

/-- The exception an unmasked SIMD floating-point exception raises (R177). -/
def State.simdException (s : State) : Exc := if s.envXmmExcpt then .xm else .ud

/-- The steps every form takes (R130, R140, R141, R156), in the priority of R179: availability, source, conversion,
write-back, `rip + len`. `er` is the embedded rounding control. -/
def convert (f : Form) (dst : Fin 32) (src : Source) (aaa : BitVec 3) (z : Bool) (er : Option Rounding) (len : Nat)
    (s : State) : Host.Outcome State Fault Refusal :=
  match gate f s with
  | .error e => e.outcome s
  | .ok _ =>
    match readSource s f src aaa with
    | .error e => e.outcome s
    | .ok xs =>
      match packedConvert (s.ctx er) s.mxcsr xs with
      | .raiseXm x => .fault (raise s.simdException (s.setMxcsr x))
      | .results rs x =>
        .next (((s.setZmm dst (writeBack f (s.readZmm dst) z rs)).setMxcsr x).setRip (s.nextIp len))

end Sys2Proof.Machine
end

