-- ==== Sys2Proof/Machine/Evex.lean ====
section
/-!
DEFINITION. VCVTPD2PS, the EVEX forms (43_vcvtpd2ps_evex.md R150 to R153, R156). The encoding checks of R156 step 1 are the
decoder's (R76, R78).
-/

namespace Sys2Proof.Machine

/-- Embedded rounding: register source, 512 bits, `EVEX.RC` for `MXCSR.RC`, all exceptions suppressed (R71, R117, R153). -/
def execEvex512Er (pfx : List Prefix) (e : Evex) (rc : Rounding) (reg rm : BitVec 3) (s : State) :
    Host.Outcome State Fault Refusal :=
  let len := (Instr.evex512Er pfx e rc reg rm).len
  convert .evex512Er (vecNum e.rHi e.r reg) (.reg (vecNum e.x e.b rm)) e.aaa e.z (some rc) len s

/-- EVEX.128, register or m128 source (R150). -/
def execEvex128 (pfx : List Prefix) (e : Evex) (reg : BitVec 3) (rm : RegMem) (s : State) :
    Host.Outcome State Fault Refusal :=
  let len := (Instr.evex128 pfx e reg rm).len
  convert .evex128 (vecNum e.rHi e.r reg) (s.source .evex128 pfx e.x e.b len rm) e.aaa e.z none len s

/-- EVEX.128, m64bcst source (R150, R158). -/
def execEvex128Bcst (pfx : List Prefix) (e : Evex) (reg : BitVec 3) (m : MemOperand) (s : State) :
    Host.Outcome State Fault Refusal :=
  let len := (Instr.evex128Bcst pfx e reg m).len
  convert .evex128 (vecNum e.rHi e.r reg) (s.bcstSource pfx e.x e.b len m) e.aaa e.z none len s

/-- EVEX.256, register or m256 source (R151). -/
def execEvex256 (pfx : List Prefix) (e : Evex) (reg : BitVec 3) (rm : RegMem) (s : State) :
    Host.Outcome State Fault Refusal :=
  let len := (Instr.evex256 pfx e reg rm).len
  convert .evex256 (vecNum e.rHi e.r reg) (s.source .evex256 pfx e.x e.b len rm) e.aaa e.z none len s

/-- EVEX.256, m64bcst source (R151, R158). -/
def execEvex256Bcst (pfx : List Prefix) (e : Evex) (reg : BitVec 3) (m : MemOperand) (s : State) :
    Host.Outcome State Fault Refusal :=
  let len := (Instr.evex256Bcst pfx e reg m).len
  convert .evex256 (vecNum e.rHi e.r reg) (s.bcstSource pfx e.x e.b len m) e.aaa e.z none len s

/-- EVEX.512, register or m512 source (R152). -/
def execEvex512 (pfx : List Prefix) (e : Evex) (reg : BitVec 3) (rm : RegMem) (s : State) :
    Host.Outcome State Fault Refusal :=
  let len := (Instr.evex512 pfx e reg rm).len
  convert .evex512 (vecNum e.rHi e.r reg) (s.source .evex512 pfx e.x e.b len rm) e.aaa e.z none len s

/-- EVEX.512, m64bcst source (R152, R158). -/
def execEvex512Bcst (pfx : List Prefix) (e : Evex) (reg : BitVec 3) (m : MemOperand) (s : State) :
    Host.Outcome State Fault Refusal :=
  let len := (Instr.evex512Bcst pfx e reg m).len
  convert .evex512 (vecNum e.rHi e.r reg) (s.bcstSource pfx e.x e.b len m) e.aaa e.z none len s

end Sys2Proof.Machine
end

