-- ==== Sys2Proof/Machine/Legacy.lean ====
section
/-!
DEFINITION. CVTPD2PS, the legacy SSE form (41_cvtpd2ps_legacy_sse.md R130): its two rows of the opcode table.
-/

namespace Sys2Proof.Machine

/-- `66 0F 5A /r` with no REX: the extension bits are 0 (R63, R65, R130). -/
def execCvtpd2ps (pfx : List Prefix) (reg : BitVec 3) (rm : RegMem) (s : State) : Host.Outcome State Fault Refusal :=
  let len := (Instr.cvtpd2ps pfx reg rm).len
  convert .legacy (vecNum false false reg) (s.source .legacy pfx false false len rm) 0#3 false none len s

/-- `66 REX 0F 5A /r`: REX.R, REX.X and REX.B extend the numbers, REX.W is ignored (R62, R65, R130). -/
def execCvtpd2psRex (pfx : List Prefix) (rex : Rex) (reg : BitVec 3) (rm : RegMem) (s : State) :
    Host.Outcome State Fault Refusal :=
  let len := (Instr.cvtpd2psRex pfx rex reg rm).len
  convert .legacy (vecNum false rex.r reg) (s.source .legacy pfx rex.x rex.b len rm) 0#3 false none len s

end Sys2Proof.Machine
end

