-- ==== Sys2Proof/Machine/Vex.lean ====
section
/-!
DEFINITION. VCVTPD2PS, the VEX.128 and VEX.256 forms (42_vcvtpd2ps_vex.md R140, R141). The `vvvv` check is the decoder's (R73).
-/

namespace Sys2Proof.Machine

/-- `C5 v1 5A /r`, L = 0: X and B are 0 (R65, R66, R140). -/
def execVex128C5 (pfx : List Prefix) (r : Bool) (reg : BitVec 3) (rm : RegMem) (s : State) :
    Host.Outcome State Fault Refusal :=
  let len := (Instr.vex128C5 pfx r reg rm).len
  convert .vex128 (vecNum false r reg) (s.source .vex128 pfx false false len rm) 0#3 false none len s

/-- `C4 v1 v2 5A /r`, L = 0: W is ignored (R67, R75, R140). -/
def execVex128C4 (pfx : List Prefix) (v : Vex3) (reg : BitVec 3) (rm : RegMem) (s : State) :
    Host.Outcome State Fault Refusal :=
  let len := (Instr.vex128C4 pfx v reg rm).len
  convert .vex128 (vecNum false v.r reg) (s.source .vex128 pfx v.x v.b len rm) 0#3 false none len s

/-- `C5 v1 5A /r`, L = 1 (R66, R141). -/
def execVex256C5 (pfx : List Prefix) (r : Bool) (reg : BitVec 3) (rm : RegMem) (s : State) :
    Host.Outcome State Fault Refusal :=
  let len := (Instr.vex256C5 pfx r reg rm).len
  convert .vex256 (vecNum false r reg) (s.source .vex256 pfx false false len rm) 0#3 false none len s

/-- `C4 v1 v2 5A /r`, L = 1: W is ignored (R67, R75, R141). -/
def execVex256C4 (pfx : List Prefix) (v : Vex3) (reg : BitVec 3) (rm : RegMem) (s : State) :
    Host.Outcome State Fault Refusal :=
  let len := (Instr.vex256C4 pfx v reg rm).len
  convert .vex256 (vecNum false v.r reg) (s.source .vex256 pfx v.x v.b len rm) 0#3 false none len s

end Sys2Proof.Machine
end

