-- ==== Sys2Proof/Machine/Dispatch.lean ====
section
/-! DEFINITION. The dispatch: one arm per constructor of `Instr`, each the meaning of its row (30_encoding.md R84). -/

namespace Sys2Proof.Machine

def exec (i : Instr) (s : State) : Host.Outcome State Fault Refusal :=
  match i with
  | .cvtpd2ps pfx reg rm => Sys2Proof.Machine.execCvtpd2ps pfx reg rm s
  | .cvtpd2psRex pfx rex reg rm => Sys2Proof.Machine.execCvtpd2psRex pfx rex reg rm s
  | .vex128C5 pfx r reg rm => Sys2Proof.Machine.execVex128C5 pfx r reg rm s
  | .vex128C4 pfx v reg rm => Sys2Proof.Machine.execVex128C4 pfx v reg rm s
  | .vex256C5 pfx r reg rm => Sys2Proof.Machine.execVex256C5 pfx r reg rm s
  | .vex256C4 pfx v reg rm => Sys2Proof.Machine.execVex256C4 pfx v reg rm s
  | .evex512Er pfx e rc reg rm => Sys2Proof.Machine.execEvex512Er pfx e rc reg rm s
  | .evex128 pfx e reg rm => Sys2Proof.Machine.execEvex128 pfx e reg rm s
  | .evex128Bcst pfx e reg m => Sys2Proof.Machine.execEvex128Bcst pfx e reg m s
  | .evex256 pfx e reg rm => Sys2Proof.Machine.execEvex256 pfx e reg rm s
  | .evex256Bcst pfx e reg m => Sys2Proof.Machine.execEvex256Bcst pfx e reg m s
  | .evex512 pfx e reg rm => Sys2Proof.Machine.execEvex512 pfx e reg rm s
  | .evex512Bcst pfx e reg m => Sys2Proof.Machine.execEvex512Bcst pfx e reg m s

end Sys2Proof.Machine
end

