-- ==== Sys2Proof/Machine/Fetch.lean ====
section
/-!
DEFINITION. Fetching (70_reset_and_hazards.md R205, R206; 30_encoding.md R76) and loading a program (R203).
-/

namespace Sys2Proof.Machine

/-- A byte that the prefix scan of R76 can pass over. -/
def isPrefixByte (m : Mode) (b : Byte) : Bool :=
  (legacyPrefix b).isSome || (m == .m64 && (rexOf b).isSome)

/-- `n` consecutive bytes from an address. -/
def readBytes (mem : Memory) (a : Nat) : Nat → List Byte
  | 0 => []
  | n + 1 => mem.read a :: readBytes mem (a + 1) n

/-- The longest instruction less its prefixes: 62 P0 P1 P2 5A ModRM SIB disp32 (R60). -/
def longestBody : Nat := 11

/-- Of the `n` bytes at an address, those the decoder can examine: leading prefix bytes, then one opcode and operand. -/
def fetchFrom (m : Mode) (mem : Memory) : Nat → Nat → List Byte
  | 0, _ => []
  | n + 1, a =>
    if isPrefixByte m (mem.read a) then mem.read a :: fetchFrom m mem n (a + 1)
    else readBytes mem a (min (n + 1) longestBody)

/-- The end of what can be fetched: the end of the text, or the top of the address space (R28, R206). -/
def State.fetchEnd (s : State) : Nat := min s.cfg.textHi s.cfg.mode.addressSpace

/-- The bytes at the instruction pointer. -/
def State.fetchBytes (s : State) : List Byte :=
  fetchFrom s.cfg.mode s.mem (s.fetchEnd - s.ip.toNat) s.ip.toNat

/-- What stands at the instruction pointer: the end of the run, an instruction to execute, or a stop. -/
inductive Fetched where
  | done
  | instr (i : Instr)
  | stop (e : Stop)
deriving DecidableEq, Repr

/-- `rip = END`: the run is over (R206). -/
def State.atEnd (s : State) : Bool := decide (s.ip.toNat = s.cfg.endAddr)

/-- Whether the instruction pointer is inside the text (R203, R206). -/
def State.inText (s : State) : Bool := decide (s.cfg.textLo ≤ s.ip.toNat) && decide (s.ip.toNat < s.fetchEnd)

/-- Fetch and decode (R76, R189, R206). An instruction whose next address passes the top of the address space is refused
(R28, D15, log 14), before its feature, its enablement or its operand is looked at (R206 against R76 step 6, R85 and R179:
DESIGN CHOICE, log 32); a `#UD` encoding, or one of more than 15 bytes, faults even where it ends at the top (R206 against
R179: DESIGN CHOICE, log 31). -/
def State.fetch (s : State) : Fetched :=
  if s.atEnd then .done
  else if !s.inText then .stop (.refuse .fetchOutsideText)
  else
    match decode s.cfg.mode s.fetchBytes with
    | .instr i _ =>
      if s.ip.toNat + i.len < s.cfg.mode.addressSpace then .instr i else .stop (.refuse .addressWrap)
    | .invalid => .stop (.exception .ud)
    | .tooLong => .stop (.exception .gp)
    | .otherInstruction => .stop (.refuse .otherInstruction)
    | .extensionInM32 => .stop (.refuse .extensionInM32)
    | .address16 => .stop (.refuse .address16)
    | .truncated =>
      .stop (.refuse (if s.cfg.mode.addressSpace ≤ s.cfg.textHi then .addressWrap else .fetchOutsideText))

/-- A program placed at the instruction pointer, as the launch does (R203): its bytes, the text range, END after it. -/
def State.loadProgram (s : State) (bytes : List Byte) : State :=
  s.setProgram (s.mem.writeBytes s.ip.toNat bytes) s.ip.toNat (s.ip.toNat + bytes.length)

end Sys2Proof.Machine
end

