-- ==== Sys2Proof/Machine/Step.lean ====
section
/-! DEFINITION. One step: fetch, decode, execute (70_reset_and_hazards.md R205, R206). -/

namespace Sys2Proof.Machine

/-- One step. At END the run is over: the state stays as it is (R206, log 11). -/
def step (s : State) : Host.Outcome State Fault Refusal :=
  match s.fetch with
  | .done => .next s
  | .instr i => exec i s
  | .stop e => e.outcome s

/-- The state with a table word loaded as the program at its instruction pointer (R203, log 4, log 24). -/
def State.withFetchWord (s : State) (nbits w : Nat) : State := s.loadProgram (tableBytes nbits w)

end Sys2Proof.Machine
end

