-- ==== Sys2Proof/Safety.lean ====
section
/-!
DEFINITION. The words in which statements are made: what an instruction names, when it is ready to complete, which
exceptions its lanes detect, the invariant of the machine, and the values of the two floating-point formats.
-/

namespace Sys2Proof

/-! ### What an instruction names (30_encoding.md R64, R65, R71, R72) -/

/-- The destination register (R65). -/
def Instr.dst : Instr → Fin 32
  | .cvtpd2ps _ reg _ => Machine.vecNum false false reg
  | .cvtpd2psRex _ rex reg _ => Machine.vecNum false rex.r reg
  | .vex128C5 _ r reg _ | .vex256C5 _ r reg _ => Machine.vecNum false r reg
  | .vex128C4 _ v reg _ | .vex256C4 _ v reg _ => Machine.vecNum false v.r reg
  | .evex512Er _ e _ reg _ => Machine.vecNum e.rHi e.r reg
  | .evex128 _ e reg _ | .evex256 _ e reg _ | .evex512 _ e reg _ => Machine.vecNum e.rHi e.r reg
  | .evex128Bcst _ e reg _ | .evex256Bcst _ e reg _ | .evex512Bcst _ e reg _ => Machine.vecNum e.rHi e.r reg

/-- The EVEX fields of an instruction that has them. -/
def Instr.evex? : Instr → Option Evex
  | .evex512Er _ e _ _ _ => some e
  | .evex128 _ e _ _ | .evex256 _ e _ _ | .evex512 _ e _ _ => some e
  | .evex128Bcst _ e _ _ | .evex256Bcst _ e _ _ | .evex512Bcst _ e _ _ => some e
  | .cvtpd2ps .. | .cvtpd2psRex .. | .vex128C5 .. | .vex128C4 .. | .vex256C5 .. | .vex256C4 .. => none

/-- The mask register number `aaa`; 000 is no write mask (R72). -/
def Instr.aaa (i : Instr) : BitVec 3 := (i.evex?.map Evex.aaa).getD 0#3

/-- Zeroing-masking (R72). -/
def Instr.zeroing (i : Instr) : Bool := (i.evex?.map Evex.z).getD false

/-- The embedded rounding control, of the one row that has it (R71). -/
def Instr.rounding : Instr → Option Rounding
  | .evex512Er _ _ rc _ _ => some rc
  | .cvtpd2ps .. | .cvtpd2psRex .. | .vex128C5 .. | .vex128C4 .. | .vex256C5 .. | .vex256C4 .. => none
  | .evex128 .. | .evex128Bcst .. | .evex256 .. | .evex256Bcst .. | .evex512 .. | .evex512Bcst .. => none

/-- The source operand, resolved in a state (R64, R65; 20_memory.md R43 to R49). -/
def Instr.source (i : Instr) (s : Machine.State) : Machine.Source :=
  match i with
  | .cvtpd2ps p _ rm => s.source .legacy p false false i.len rm
  | .cvtpd2psRex p rex _ rm => s.source .legacy p rex.x rex.b i.len rm
  | .vex128C5 p _ _ rm => s.source .vex128 p false false i.len rm
  | .vex128C4 p v _ rm => s.source .vex128 p v.x v.b i.len rm
  | .vex256C5 p _ _ rm => s.source .vex256 p false false i.len rm
  | .vex256C4 p v _ rm => s.source .vex256 p v.x v.b i.len rm
  | .evex512Er _ e _ _ rm => .reg (Machine.vecNum e.x e.b rm)
  | .evex128 p e _ rm => s.source .evex128 p e.x e.b i.len rm
  | .evex128Bcst p e _ m => s.bcstSource p e.x e.b i.len m
  | .evex256 p e _ rm => s.source .evex256 p e.x e.b i.len rm
  | .evex256Bcst p e _ m => s.bcstSource p e.x e.b i.len m
  | .evex512 p e _ rm => s.source .evex512 p e.x e.b i.len rm
  | .evex512Bcst p e _ m => s.bcstSource p e.x e.b i.len m

end Sys2Proof

namespace Sys2Proof.Machine

/-! ### When an instruction is ready to complete -/

/-- The form is available and enabled: no `#UD` and no `#NM` (R174, R175). -/
def State.enabled (s : State) (f : Form) : Bool := s.cfg.available f && s.envOk f && !s.envTs

/-- The source can be read: aligned for the legacy form (R51), inside the address space (R45), and the bytes the form must
read are readable (R52). -/
def State.sourceReady (s : State) (f : Form) (aaa : BitVec 3) : Source → Bool
  | .reg _ => true
  | .mem la =>
    (f != .legacy || decide (la.toNat % 16 = 0)) && s.inSpace la (8 * f.kl) &&
    (List.range f.kl).all fun j => !s.active aaa j || s.isReadable (la.toNat + 8 * j) 8
  | .bcst la => s.inSpace la 8 && (!(List.range f.kl).any (s.active aaa) || s.isReadable la.toNat 8)

/-- The 64-bit element whose 8 bytes start at an address, the first least significant (R41). -/
def State.elementAt (s : State) (a : Nat) : F64 :=
  s.mem.read (a + 7) ++ s.mem.read (a + 6) ++ s.mem.read (a + 5) ++ s.mem.read (a + 4) ++
  s.mem.read (a + 3) ++ s.mem.read (a + 2) ++ s.mem.read (a + 1) ++ s.mem.read a

/-- Source element `j`: of a register, of a memory vector, or the broadcast element (R50, R155). -/
def State.sourceElement (s : State) (src : Source) (j : Nat) : F64 :=
  match src with
  | .reg n => lane64 (s.readZmm n) j
  | .mem la => s.elementAt (la.toNat + 8 * j)
  | .bcst la => s.elementAt la.toNat

end Sys2Proof.Machine

namespace Sys2Proof

open Machine

/-- The conversion of lane `j` of an instruction (R115, R116). -/
def Instr.lane (i : Instr) (s : State) (j : Nat) : Converted :=
  cvtF64ToF32 (s.sourceElement (i.source s) j) (s.ctx i.rounding)

/-- Whether lane `j` is active (R156 step 4). -/
def Instr.activeLane (i : Instr) (s : State) (j : Nat) : Bool := s.active i.aaa j

/-- Whether some active lane has a property (R116, R118). -/
def Instr.anyLane (i : Instr) (s : State) (p : Converted → Bool) : Bool :=
  (List.range i.form.kl).any fun j => i.activeLane s j && p (i.lane s j)

/-- PRE: the pre-computation flags that active lanes detect (R116). -/
def Instr.preFlags (i : Instr) (s : State) : FpFlags :=
  { noFlags with ie := i.anyLane s fun c => c.pre.ie, de := i.anyLane s fun c => c.pre.de }

/-- POST: the post-computation flags that active lanes detect (R116). -/
def Instr.postFlags (i : Instr) (s : State) : FpFlags :=
  { noFlags with
    oe := i.anyLane s fun c => c.post.oe
    ue := i.anyLane s fun c => c.post.ue
    pe := i.anyLane s fun c => c.post.pe }

/-- Whether an unmasked exception is detected (R116); never under embedded rounding (R117). -/
def Instr.unmaskedDetected (i : Instr) (s : State) : Bool :=
  i.rounding.isNone && (s.ctx i.rounding).unmasked ((i.preFlags s).union (i.postFlags s))

/-- The instruction can complete in the state: available and enabled, its source readable, no unmasked exception
detected. -/
def Instr.ready (i : Instr) (s : State) : Bool :=
  s.enabled i.form && s.sourceReady i.form i.aaa (i.source s) && !i.unmaskedDetected s

/-- MXCSR after an instruction that completes (R116, R117, R119). -/
def Instr.mxcsrAfter (i : Instr) (s : State) : BitVec 32 :=
  if i.rounding.isSome then s.mxcsr else s.mxcsr ||| ((i.preFlags s).union (i.postFlags s)).bits

end Sys2Proof

namespace Sys2Proof.Machine

/-! ### What stands at the instruction pointer -/

/-- The run is not over, the instruction pointer is in the text, and the bytes there begin with these (R205, R206). -/
def State.fetches (s : State) (bytes : List Byte) : Prop :=
  s.atEnd = false ∧ s.inText = true ∧ ∃ rest, s.fetchBytes = bytes ++ rest

/-! ### What is unchanged -/

/-- Everything but the vector registers, MXCSR and the instruction pointer is unchanged; every byte of memory reads as
before (R33). -/
structure SameElse (s t : State) : Prop where
  k : t.k = s.k
  gpr : t.gpr = s.gpr
  rflags : t.rflags = s.rflags
  cr0 : t.cr0 = s.cr0
  cr4 : t.cr4 = s.cr4
  xcr0 : t.xcr0 = s.xcr0
  fsBase : t.fsBase = s.fsBase
  gsBase : t.gsBase = s.gsBase
  mem : ∀ a, t.mem.read a = s.mem.read a
  cfg : t.cfg = s.cfg

/-- The frame of an instruction with one destination (R33, R134, R145, R160): beside `SameElse`, every other vector
register is unchanged, and of MXCSR only flags may have been set. -/
structure Frame (dst : Fin 32) (s t : State) : Prop where
  else_ : SameElse s t
  zmm : ∀ n : Fin 32, n ≠ dst → t.zmm[n] = s.zmm[n]
  mxcsrHigh : t.mxcsr >>> 6 = s.mxcsr >>> 6
  mxcsrSticky : t.mxcsr &&& s.mxcsr = s.mxcsr

/-! ### Changing a state inside an outcome -/

/-- A function applied to the state a fault holds. -/
def Fault.map (g : State → State) : Fault → Fault
  | .invalidOpcode s => .invalidOpcode (g s)
  | .deviceNotAvailable s => .deviceNotAvailable (g s)
  | .generalProtection s => .generalProtection (g s)
  | .memFault s => .memFault (g s)
  | .simdFloatingPoint s => .simdFloatingPoint (g s)

/-- A function applied to the state of an outcome. Two runs whose outcomes differ by it differ in nothing else. -/
def mapOutcome (g : State → State) : Host.Outcome State Fault Refusal → Host.Outcome State Fault Refusal
  | .next s => .next (g s)
  | .fault f => .fault (f.map g)
  | .refused r => .refused r

/-! ### The invariant -/

/-- What holds of a state and is kept by every step: memory in canonical form, `MXCSR[31:16] = 0` (R25, R203), no vector
register bit at or above MAXVL (R6, R20), EIP of 32 bits in M32 (R28), and the constraint of R6 on the configuration. -/
structure State.Inv (s : State) : Prop where
  mem : s.mem.wf = true
  mxcsr : s.mxcsr >>> 16 = 0#32
  zmm : ∀ n : Fin 32, s.zmm[n] &&& s.cfg.maxvl.mask = s.zmm[n]
  rip : s.cfg.mode.wrapAddress s.rip = s.rip
  cfg : s.cfg.wf = true

/-! ### The formats (R101) -/

/-- A double NaN. -/
def isNaN64 (d : F64) : Bool := decide (f64Exp d = 2047) && decide (f64Frac d ≠ 0)

/-- A finite double. -/
def isFinite64 (d : F64) : Bool := decide (f64Exp d < 2047)

/-- The exponent field of a single. -/
def f32Exp (x : F32) : Nat := (x.extractLsb' 23 8).toNat

/-- The fraction field of a single. -/
def f32Frac (x : F32) : Nat := (x.extractLsb' 0 23).toNat

/-- A single NaN. -/
def isNaN32 (x : F32) : Bool := decide (f32Exp x = 255) && decide (f32Frac x ≠ 0)

/-- A signalling single NaN: the top fraction bit is 0. -/
def isSNaN32 (x : F32) : Bool := isNaN32 x && !x.getLsbD 22

/-- A single denormal. -/
def isDenormal32 (x : F32) : Bool := decide (f32Exp x = 0) && decide (f32Frac x ≠ 0)

/-- A finite single. -/
def isFinite32 (x : F32) : Bool := decide (f32Exp x < 255)

/-- The magnitude of a finite single times `2^1074`, the scale of `exactScaled`. -/
def f32Scaled (x : F32) : Nat :=
  if f32Exp x = 0 then f32Frac x * 2 ^ 925 else (2 ^ 23 + f32Frac x) * 2 ^ (f32Exp x - 1 + 925)

/-- The distance of two magnitudes. -/
def distance (a b : Nat) : Nat := (a - b) + (b - a)

/-- The magnitude bits of a double. -/
def f64Magnitude (d : F64) : Nat := (d.extractLsb' 0 63).toNat

/-- An integer that orders the doubles other than NaN as the real numbers and infinities they stand for; both zeros are 0. -/
def f64Key (d : F64) : Int := if d.getLsbD 63 then -(f64Magnitude d : Int) else f64Magnitude d

/-- The same for singles. -/
def f32Key (x : F32) : Int :=
  if x.getLsbD 31 then -((x.extractLsb' 0 31).toNat : Int) else (x.extractLsb' 0 31).toNat

/-- The exact double image of a single (R121 item 7): same sign and value; infinities and NaN payloads carried over. -/
def widenF32 (x : F32) : F64 :=
  if f32Exp x = 255 then x.extractLsb' 31 1 ++ 0x7FF#11 ++ x.extractLsb' 0 23 ++ 0#29
  else if f32Exp x ≠ 0 then x.extractLsb' 31 1 ++ BitVec.ofNat 11 (f32Exp x + 896) ++ x.extractLsb' 0 23 ++ 0#29
  else if f32Frac x = 0 then x.extractLsb' 31 1 ++ 0#63
  else
    let l := Nat.log2 (f32Frac x)
    x.extractLsb' 31 1 ++ BitVec.ofNat 11 (l + 874) ++ BitVec.ofNat 52 (f32Frac x * 2 ^ (52 - l))

/-- A context with every exception masked (R104). -/
def Ctx.allMasked (c : Ctx) : Bool := c.im && c.dm && c.om && c.um && c.pm

/-- Whether rounding goes away from zero for the sign: up for positive, down for negative (R109). -/
def roundsAway (rc : Rounding) (s : Bool) : Bool :=
  match rc, s with
  | .up, false => true
  | .down, true => true
  | _, _ => false

end Sys2Proof.Machine
end

