-- ==== Sys2Proof/Certificates/Slice0/Obligations.lean ====
section
/-!
DEFINITION. The statements for the provers, from the numbered rules of spec/: encodings, fetching, results and frames of
every form, faults, what is and is not read, the numerics of the conversion, and the invariant.
-/

section

open Sys2Proof Sys2Proof.Machine

/-! ### Encodings (30_encoding.md) -/

/-- R60 to R76: decoding the bytes of any instruction of the mode, whatever follows them, gives that instruction. -/
def Obligations.DecodeOfEncodedInstruction : Prop :=
  ∀ (m : Mode) (i : Instr) (rest : List Byte), i.wf m = true → decode m (encode i ++ rest) = .instr i rest

/-- R76: bytes that decode to an instruction are that instruction's encoding, and it is one of the mode: no byte and no
bit of an encoding is dropped, and no other bytes are taken for an instruction. -/
def Obligations.DecodedBytesAreTheEncoding : Prop :=
  ∀ (m : Mode) (bytes : List Byte) (i : Instr) (rest : List Byte),
    decode m bytes = .instr i rest → bytes = encode i ++ rest ∧ i.wf m = true

/-- R60, R76 step 5, R179 (90_conflicts.md C14; `#GP(0)` at all: log 21): an instruction of more than 15 bytes is too long,
and that comes before a `#UD` encoding of R73 or R78, which is invalid at 15 bytes or fewer: LOCK on the legacy shape, with
and without REX, and in the two VEX shapes and the EVEX shape a reserved field or a 66, F0, F2, F3 or REX byte in front.
`front` is the REX byte in force, or nothing. -/
def Obligations.OverlongComesBeforeInvalid : Prop :=
  (∀ (m : Mode) (i : Instr) (rest : List Byte),
    i.shapeWf m = true → 15 < i.size → decode m (encode i ++ rest) = .tooLong) ∧
  (∀ (m : Mode) (pfx : List Prefix) (front : List Byte) (reg : BitVec 3) (rm : RegMem) (rest : List Byte),
    prefixesScan m pfx = true → (front = [] ∨ m = .m64 ∧ ∃ rex : Rex, front = [rex.toByte]) →
    rm.wf = true → addressable m pfx rm.isMem = true →
    let before := pfx.map Prefix.toByte ++ front
    let decoded := fun shape : List Byte => decode m (before ++ shape ++ rm.encode reg ++ rest)
    let verdict := fun shape : List Byte =>
      if 15 < before.length + shape.length + 1 + rm.size then DecodeResult.tooLong else .invalid
    let badFront := front ≠ [] ∨ pfx.contains .opSize = true ∨ pfx.contains .lock = true ∨
      pfx.contains .repne = true ∨ pfx.contains .rep = true
    (pfx.contains .opSize = true → pfx.contains .lock = true → pfx.contains .repne = false →
      pfx.contains .rep = false → decoded [0x0F#8, 0x5A#8] = verdict [0x0F#8, 0x5A#8]) ∧
    (∀ v1 : Byte, (m = .m32 → v1.extractLsb' 6 2 = 3#2) → v1.extractLsb' 0 2 = 1#2 →
      (v1.extractLsb' 3 4 ≠ 0xF#4 ∨ badFront) → decoded [0xC5#8, v1, 0x5A#8] = verdict [0xC5#8, v1, 0x5A#8]) ∧
    (∀ v1 v2 : Byte, (m = .m32 → v1.extractLsb' 5 3 = 7#3) → v1.extractLsb' 0 5 = 1#5 → v2.extractLsb' 0 2 = 1#2 →
      (v2.extractLsb' 3 4 ≠ 0xF#4 ∨ badFront) →
      decoded [0xC4#8, v1, v2, 0x5A#8] = verdict [0xC4#8, v1, v2, 0x5A#8]) ∧
    (∀ p0 p1 p2 : Byte, (m = .m32 → p0.extractLsb' 4 4 = 0xF#4 ∧ p2.getLsbD 3 = true) →
      p0.extractLsb' 0 3 = 1#3 → p1.extractLsb' 0 2 = 1#2 →
      (p1.extractLsb' 3 4 ≠ 0xF#4 ∨ p0.getLsbD 3 = true ∨ p1.getLsbD 2 = false ∨ p1.getLsbD 7 = false ∨
        p2.getLsbD 3 = false ∨ (p2.getLsbD 7 = true ∧ p2.extractLsb' 0 3 = 0#3) ∨
        (p2.extractLsb' 5 2 = 3#2 ∧ (p2.getLsbD 4 = false ∨ rm.isMem = true)) ∨ badFront) →
      decoded [0x62#8, p0, p1, p2, 0x5A#8] = verdict [0x62#8, p0, p1, p2, 0x5A#8]))

/-- R73, R172: a VEX or EVEX encoding, register or memory source, whose stored `vvvv` is not 1111 raises `#UD` with no
state changed and no operand read (the source may be unreadable). The three shapes in turn; `v1` and `v2` are any bytes
with the map and `pp` of the instruction, `p0` to `p2` likewise. That this holds where the last byte is the top one of the
address space too is the model's choice (log 31). -/
def Obligations.ReservedVvvvRaisesUd : Prop :=
  ∀ (s : State) (pfx : List Prefix) (reg : BitVec 3) (rm : RegMem),
    prefixesVex s.cfg.mode pfx = true → rm.wf = true → addressable s.cfg.mode pfx rm.isMem = true →
    (∀ v1 : Byte, (s.cfg.mode = .m32 → v1.extractLsb' 6 2 = 3#2) → v1.extractLsb' 0 2 = 1#2 →
      v1.extractLsb' 3 4 ≠ 0xF#4 → pfx.length + 4 + rm.size ≤ 15 →
      s.fetches (pfx.map Prefix.toByte ++ [0xC5#8, v1, 0x5A#8] ++ rm.encode reg) →
      step s = .fault (.invalidOpcode s)) ∧
    (∀ v1 v2 : Byte, (s.cfg.mode = .m32 → v1.extractLsb' 5 3 = 7#3) → v1.extractLsb' 0 5 = 1#5 →
      v2.extractLsb' 0 2 = 1#2 → v2.extractLsb' 3 4 ≠ 0xF#4 → pfx.length + 5 + rm.size ≤ 15 →
      s.fetches (pfx.map Prefix.toByte ++ [0xC4#8, v1, v2, 0x5A#8] ++ rm.encode reg) →
      step s = .fault (.invalidOpcode s)) ∧
    (∀ p0 p1 p2 : Byte, (s.cfg.mode = .m32 → p0.extractLsb' 4 4 = 0xF#4 ∧ p2.getLsbD 3 = true) →
      p0.extractLsb' 0 3 = 1#3 → p1.extractLsb' 0 2 = 1#2 → p1.extractLsb' 3 4 ≠ 0xF#4 →
      pfx.length + 6 + rm.size ≤ 15 →
      s.fetches (pfx.map Prefix.toByte ++ [0x62#8, p0, p1, p2, 0x5A#8] ++ rm.encode reg) →
      step s = .fault (.invalidOpcode s))

/-- R78, its EVEX rows: a reserved bit of P0 or P1, `W = 0`, `V̄' = 0` (in M64; in M32 it is refused, R80), `z = 1` with
`aaa = 000`, or `L'L = 11` without embedded rounding, raises `#UD` (D28: log 21; at the
top of the address space: log 31). -/
def Obligations.ReservedEvexBitsRaiseUd : Prop :=
  ∀ (s : State) (pfx : List Prefix) (reg : BitVec 3) (rm : RegMem) (p0 p1 p2 : Byte),
    prefixesVex s.cfg.mode pfx = true → rm.wf = true → addressable s.cfg.mode pfx rm.isMem = true →
    (s.cfg.mode = .m32 → p0.extractLsb' 4 4 = 0xF#4 ∧ p2.getLsbD 3 = true) →
    p0.extractLsb' 0 3 = 1#3 → p1.extractLsb' 0 2 = 1#2 → pfx.length + 6 + rm.size ≤ 15 →
    (p0.getLsbD 3 = true ∨ p1.getLsbD 2 = false ∨ p1.getLsbD 7 = false ∨ p2.getLsbD 3 = false ∨
      (p2.getLsbD 7 = true ∧ p2.extractLsb' 0 3 = 0#3) ∨
      (p2.extractLsb' 5 2 = 3#2 ∧ (p2.getLsbD 4 = false ∨ rm.isMem = true))) →
    s.fetches (pfx.map Prefix.toByte ++ [0x62#8, p0, p1, p2, 0x5A#8] ++ rm.encode reg) →
    step s = .fault (.invalidOpcode s)

/-- R61, R62, R78: LOCK on the legacy shape, with and without REX, and 66, F2, F3, F0 or a REX byte in force before a VEX or
EVEX prefix, raise `#UD` (at the top of the address space: log 31). -/
def Obligations.ForbiddenPrefixesRaiseUd : Prop :=
  (∀ (s : State) (pfx : List Prefix) (reg : BitVec 3) (rm : RegMem),
    prefixesScan s.cfg.mode pfx = true → pfx.contains .opSize = true → pfx.contains .lock = true →
    pfx.contains .repne = false → pfx.contains .rep = false → rm.wf = true →
    addressable s.cfg.mode pfx rm.isMem = true → pfx.length + 3 + rm.size ≤ 15 →
    s.fetches (encode (.cvtpd2ps pfx reg rm)) → step s = .fault (.invalidOpcode s)) ∧
  (∀ (s : State) (pfx : List Prefix) (rex : Rex) (reg : BitVec 3) (rm : RegMem),
    s.cfg.mode = .m64 → prefixesScan .m64 pfx = true → pfx.contains .opSize = true → pfx.contains .lock = true →
    pfx.contains .repne = false → pfx.contains .rep = false → rm.wf = true → pfx.length + 4 + rm.size ≤ 15 →
    s.fetches (encode (.cvtpd2psRex pfx rex reg rm)) → step s = .fault (.invalidOpcode s)) ∧
  (∀ (s : State) (pfx : List Prefix) (i : Instr),
    prefixesScan s.cfg.mode pfx = true → i.form ≠ .legacy → i.prefixes = [] → i.wf s.cfg.mode = true →
    (s.cfg.mode = .m64 ∨ pfx.contains .addrSize = false) → pfx.length + i.size ≤ 15 →
    (pfx.contains .opSize || pfx.contains .lock || pfx.contains .repne || pfx.contains .rep) = true →
    s.fetches (pfx.map Prefix.toByte ++ encode i) → step s = .fault (.invalidOpcode s)) ∧
  (∀ (s : State) (pfx : List Prefix) (rex : Rex) (i : Instr),
    s.cfg.mode = .m64 → prefixesScan .m64 pfx = true → i.form ≠ .legacy → i.prefixes = [] → i.wf .m64 = true →
    pfx.length + 1 + i.size ≤ 15 →
    s.fetches (pfx.map Prefix.toByte ++ [rex.toByte] ++ encode i) → step s = .fault (.invalidOpcode s))

/-- R79: the neighbours are refused as other instructions. In turn: `0F 5A` with no 66, or with F2 or F3; the VEX and EVEX
encodings with another `pp`; the EVEX encoding in map 5 with `pp = 01` and `W = 1`. -/
def Obligations.NeighboursAreRefused : Prop :=
  ∀ (s : State) (pfx : List Prefix), prefixesScan s.cfg.mode pfx = true →
    ((pfx.contains .opSize = false ∨ pfx.contains .repne = true ∨ pfx.contains .rep = true) →
      s.fetches (pfx.map Prefix.toByte ++ [0x0F#8, 0x5A#8]) → step s = .refused .otherInstruction) ∧
    (prefixesVex s.cfg.mode pfx = true →
      (∀ v1 : Byte, v1.extractLsb' 0 2 ≠ 1#2 → s.fetches (pfx.map Prefix.toByte ++ [0xC5#8, v1, 0x5A#8]) →
        step s = .refused .otherInstruction) ∧
      (∀ v1 v2 : Byte, (s.cfg.mode = .m32 → v1.extractLsb' 5 3 = 7#3) → v1.extractLsb' 0 5 = 1#5 →
        v2.extractLsb' 0 2 ≠ 1#2 → s.fetches (pfx.map Prefix.toByte ++ [0xC4#8, v1, v2, 0x5A#8]) →
        step s = .refused .otherInstruction) ∧
      (∀ p0 p1 p2 : Byte, (s.cfg.mode = .m32 → p0.extractLsb' 4 4 = 0xF#4 ∧ p2.getLsbD 3 = true) →
        p0.getLsbD 3 = false → p1.getLsbD 2 = true →
        (p1.extractLsb' 0 2 ≠ 1#2 ∨ (p0.extractLsb' 0 3 = 5#3 ∧ p1.getLsbD 7 = true)) →
        s.fetches (pfx.map Prefix.toByte ++ [0x62#8, p0, p1, p2, 0x5A#8]) → step s = .refused .otherInstruction))

/-- R80: in M32, C4, C5 and 62 before a byte with bits 7:6 other than 11, and the bytes 40 to 4F, are other instructions; a
stored `B̄`, `R̄'` or `V̄'` of 0 is refused, before any `#UD` test; and only registers 0 to 7 are reachable. R47, D25: with
prefix 67 a memory operand has 16-bit addressing, which is refused in each of the four shapes, whatever `#UD` or length
verdict the bytes would have had (that order is the model's, log 16). -/
def Obligations.ThirtyTwoBitModeDifferences : Prop :=
  ∀ (s : State) (pfx : List Prefix), s.cfg.mode = .m32 → prefixesScan .m32 pfx = true →
    (∀ op v1 : Byte, op = 0xC4#8 ∨ op = 0xC5#8 ∨ op = 0x62#8 → v1.extractLsb' 6 2 ≠ 3#2 →
      s.fetches (pfx.map Prefix.toByte ++ [op, v1]) → step s = .refused .otherInstruction) ∧
    (∀ rex : Rex, s.fetches (pfx.map Prefix.toByte ++ [rex.toByte]) → step s = .refused .otherInstruction) ∧
    (∀ v1 : Byte, v1.extractLsb' 6 2 = 3#2 → v1.getLsbD 5 = false →
      s.fetches (pfx.map Prefix.toByte ++ [0xC4#8, v1]) → step s = .refused .extensionInM32) ∧
    (∀ p0 p1 p2 op : Byte, p0.extractLsb' 6 2 = 3#2 →
      (p0.getLsbD 5 = false ∨ p0.getLsbD 4 = false ∨ p2.getLsbD 3 = false) →
      s.fetches (pfx.map Prefix.toByte ++ [0x62#8, p0, p1, p2, op]) → step s = .refused .extensionInM32) ∧
    (∀ i : Instr, i.wf .m32 = true → i.dst.val < 8 ∧ ∀ n, i.source s = .reg n → n.val < 8) ∧
    (pfx.contains .addrSize = true → ∀ modrm : Byte, modrm.extractLsb' 6 2 ≠ 3#2 →
      let refusedAfter := fun shape : List Byte =>
        s.fetches (pfx.map Prefix.toByte ++ shape ++ [modrm]) → step s = .refused .address16
      (pfx.contains .opSize = true → pfx.contains .repne = false → pfx.contains .rep = false →
        refusedAfter [0x0F#8, 0x5A#8]) ∧
      (∀ v1 : Byte, v1.extractLsb' 6 2 = 3#2 → v1.extractLsb' 0 2 = 1#2 → refusedAfter [0xC5#8, v1, 0x5A#8]) ∧
      (∀ v1 v2 : Byte, v1.extractLsb' 5 3 = 7#3 → v1.extractLsb' 0 5 = 1#5 → v2.extractLsb' 0 2 = 1#2 →
        refusedAfter [0xC4#8, v1, v2, 0x5A#8]) ∧
      (∀ p0 p1 p2 : Byte, p0.extractLsb' 4 4 = 0xF#4 → p2.getLsbD 3 = true → p0.extractLsb' 0 3 = 1#3 →
        p1.extractLsb' 0 2 = 1#2 → refusedAfter [0x62#8, p0, p1, p2, 0x5A#8]))

/-- Words written out from R63, R66, R67 and R84 decode to the instructions they stand for: `66 0F 5A CA`, with REX
`66 45 0F 5A CA`, VEX `C5 FD 5A DA`, `C4 41 79 5A CA`, EVEX `62 01 FD CF 5A F7`, embedded rounding `62 F1 FD 38 5A CA`,
broadcast `62 F1 FD 58 5A 48 01`. -/
def Obligations.SampleWordsDecode : Prop :=
  decode .m64 [0x66, 0x0F, 0x5A, 0xCA] = .instr (.cvtpd2ps [.opSize] 1 (.reg 2)) [] ∧
  decode .m64 [0x66, 0x45, 0x0F, 0x5A, 0xCA] =
    .instr (.cvtpd2psRex [.opSize] ⟨false, true, false, true⟩ 1 (.reg 2)) [] ∧
  decode .m64 [0xC5, 0xFD, 0x5A, 0xDA] = .instr (.vex256C5 [] false 3 (.reg 2)) [] ∧
  decode .m64 [0xC4, 0x41, 0x79, 0x5A, 0xCA] = .instr (.vex128C4 [] ⟨true, false, true, false⟩ 1 (.reg 2)) [] ∧
  decode .m64 [0x62, 0x01, 0xFD, 0xCF, 0x5A, 0xF7] =
    .instr (.evex512 [] ⟨true, true, true, true, true, 7⟩ 6 (.reg 7)) [] ∧
  decode .m64 [0x62, 0xF1, 0xFD, 0x38, 0x5A, 0xCA] =
    .instr (.evex512Er [] ⟨false, false, false, false, false, 0⟩ .down 1 2) [] ∧
  decode .m64 [0x62, 0xF1, 0xFD, 0x58, 0x5A, 0x48, 0x01] =
    .instr (.evex512Bcst [] ⟨false, false, false, false, false, 0⟩ 1 (.base 0 (.d8 1))) []

/-! ### Steps (70_reset_and_hazards.md R205, R206) -/

/-- R76: where the bytes at the instruction pointer decode to an instruction whose next address is inside the address
space, a step is exec of it; nothing else is done around exec. -/
def Obligations.StepRunsTheDecodedInstruction : Prop :=
  ∀ (s : State) (i : Instr) (rest : List Byte), s.atEnd = false → s.inText = true →
    decode s.cfg.mode s.fetchBytes = .instr i rest → s.ip.toNat + i.len < s.cfg.mode.addressSpace → step s = exec i s

/-- R76, R203, R206: an instruction of the mode whose bytes stand in memory at the instruction pointer, all of them inside
the text, is executed by the step. -/
def Obligations.StepRunsTheInstructionInMemory : Prop :=
  ∀ (s : State) (i : Instr), i.wf s.cfg.mode = true → s.atEnd = false → s.cfg.textLo ≤ s.ip.toNat →
    s.ip.toNat + i.len ≤ s.cfg.textHi → s.ip.toNat + i.len < s.cfg.mode.addressSpace →
    (∀ (k : Nat) (h : k < (encode i).length), s.mem.read (s.ip.toNat + k) = (encode i)[k]) → step s = exec i s

/-- R76, R189, R28, R206: what a step answers for every decoding that is not an instruction to execute. Bytes that end before
their instruction does are refused as a fetch outside the text, or, where the text reaches the top of the address space,
as a wrap (log 13). An instruction whose next address is the top of the address space or beyond is refused: for an
instruction that ends exactly at the top that is an inference (log 14), and that the refusal comes before a `#UD` or `#NM`
of its form and before the faults of its operand is the model's choice (log 32). `#GP(0)` for more than 15 bytes is
decision D21 (log 21). That `#UD` and `#GP(0)` are raised where the last byte is the top one of the address space too is the
model's choice (log 31). -/
def Obligations.StepOnOtherDecodings : Prop :=
  ∀ s : State, s.atEnd = false → s.inText = true →
    (decode s.cfg.mode s.fetchBytes = .invalid → step s = .fault (.invalidOpcode s)) ∧
    (decode s.cfg.mode s.fetchBytes = .tooLong → step s = .fault (.generalProtection s)) ∧
    (decode s.cfg.mode s.fetchBytes = .otherInstruction → step s = .refused .otherInstruction) ∧
    (decode s.cfg.mode s.fetchBytes = .extensionInM32 → step s = .refused .extensionInM32) ∧
    (decode s.cfg.mode s.fetchBytes = .address16 → step s = .refused .address16) ∧
    (∀ (i : Instr) (rest : List Byte), decode s.cfg.mode s.fetchBytes = .instr i rest →
      s.cfg.mode.addressSpace ≤ s.ip.toNat + i.len → step s = .refused .addressWrap) ∧
    (decode s.cfg.mode s.fetchBytes = .truncated →
      step s = .refused (if s.cfg.textHi < s.cfg.mode.addressSpace then .fetchOutsideText else .addressWrap))

/-- R206: at END the run is over, and the state stays as it is (that it is shown as a step that changes nothing is the
model's choice, log 11); a fetch outside the text is refused: the instruction pointer is outside it and is not END, or an
instruction's bytes stand at it and the text ends before they do. -/
def Obligations.EndOfRunAndEdgeOfText : Prop :=
  (∀ s : State, s.ip.toNat = s.cfg.endAddr → step s = .next s) ∧
  (∀ s : State, s.ip.toNat ≠ s.cfg.endAddr → (s.ip.toNat < s.cfg.textLo ∨ s.cfg.textHi ≤ s.ip.toNat) →
    step s = .refused .fetchOutsideText) ∧
  (∀ (s : State) (i : Instr), i.wf s.cfg.mode = true → s.atEnd = false → s.inText = true →
    s.cfg.textHi < s.ip.toNat + i.len → s.cfg.textHi < s.cfg.mode.addressSpace →
    (∀ (k : Nat) (h : k < (encode i).length), s.ip.toNat + k < s.cfg.textHi →
      s.mem.read (s.ip.toNat + k) = (encode i)[k]) →
    step s = .refused .fetchOutsideText)

/-- R28, R205, R206: a step that completes before END executed the instruction at the instruction pointer, and the next one
is at `rip + len`, with no wrap-around (an instruction that ends exactly at the top of the address space does not
complete: log 14); there is no other successor. R60: `len` is 4 to 15. -/
def Obligations.ExecutionIsSequential : Prop :=
  ∀ s t : State, step s = .next t → s.atEnd = false →
    ∃ (i : Instr) (rest : List Byte), decode s.cfg.mode s.fetchBytes = .instr i rest ∧ exec i s = .next t ∧
      t.rip.toNat = s.ip.toNat + i.len ∧ 4 ≤ i.len ∧ i.len ≤ 15

/-! ### Results of every form -/

/-- R130 step 6, R131, R134: the legacy form (`cvtpd2ps`, `cvtpd2psRex`) completes whenever it is available and enabled, its
source is aligned and readable and no unmasked exception is detected. Bits 63:0 of the destination are the two
conversions, bits 127:64 are zero, the bits above keep their value; MXCSR takes the flags detected. -/
def Obligations.LegacyFormCompletes : Prop :=
  ∀ (i : Instr) (s : State), i.form = .legacy → i.ready s = true →
    ∃ t, exec i s = .next t ∧
      lane32 (t.readZmm i.dst) 0 = (i.lane s 0).r ∧ lane32 (t.readZmm i.dst) 1 = (i.lane s 1).r ∧
      (t.readZmm i.dst).extractLsb' 64 64 = 0#64 ∧ t.readZmm i.dst >>> 128 = s.readZmm i.dst >>> 128 ∧
      t.mxcsr = s.mxcsr ||| ((i.preFlags s).union (i.postFlags s)).bits ∧ t.rip = s.nextIp i.len ∧ Frame i.dst s t

/-- R140 step 7, R142, R145: the VEX.128 form (`vex128C5`, `vex128C4`). Bits 63:0 are the two conversions, every bit above
is zero. -/
def Obligations.Vex128FormCompletes : Prop :=
  ∀ (i : Instr) (s : State), i.form = .vex128 → i.ready s = true →
    ∃ t, exec i s = .next t ∧
      lane32 (t.readZmm i.dst) 0 = (i.lane s 0).r ∧ lane32 (t.readZmm i.dst) 1 = (i.lane s 1).r ∧
      t.readZmm i.dst >>> 64 = 0#512 ∧
      t.mxcsr = s.mxcsr ||| ((i.preFlags s).union (i.postFlags s)).bits ∧ t.rip = s.nextIp i.len ∧ Frame i.dst s t

/-- R141 step 7, R142, R145: the VEX.256 form (`vex256C5`, `vex256C4`). Bits 127:0 are the four conversions, every bit above
is zero. -/
def Obligations.Vex256FormCompletes : Prop :=
  ∀ (i : Instr) (s : State), i.form = .vex256 → i.ready s = true →
    ∃ t, exec i s = .next t ∧
      lane32 (t.readZmm i.dst) 0 = (i.lane s 0).r ∧ lane32 (t.readZmm i.dst) 1 = (i.lane s 1).r ∧
      lane32 (t.readZmm i.dst) 2 = (i.lane s 2).r ∧ lane32 (t.readZmm i.dst) 3 = (i.lane s 3).r ∧
      t.readZmm i.dst >>> 128 = 0#512 ∧
      t.mxcsr = s.mxcsr ||| ((i.preFlags s).union (i.postFlags s)).bits ∧ t.rip = s.nextIp i.len ∧ Frame i.dst s t

/-- R150, R156: the EVEX.128 form (`evex128`, `evex128Bcst`). Each of the two elements is its conversion where the mask has
the lane active, else 0 with zeroing and the old element with merging; every bit above 63 is zero. -/
def Obligations.Evex128FormCompletes : Prop :=
  ∀ (i : Instr) (s : State), i.form = .evex128 → i.ready s = true →
    ∃ t, exec i s = .next t ∧
      (∀ j, j < 2 → lane32 (t.readZmm i.dst) j =
        if i.aaa = 0#3 ∨ s.k[i.aaa.toFin].getLsbD j = true then (i.lane s j).r
        else if i.zeroing then 0#32 else lane32 (s.readZmm i.dst) j) ∧
      t.readZmm i.dst >>> 64 = 0#512 ∧
      t.mxcsr = s.mxcsr ||| ((i.preFlags s).union (i.postFlags s)).bits ∧ t.rip = s.nextIp i.len ∧ Frame i.dst s t

/-- R151, R156: the EVEX.256 form (`evex256`, `evex256Bcst`): four elements in bits 127:0, zero above. -/
def Obligations.Evex256FormCompletes : Prop :=
  ∀ (i : Instr) (s : State), i.form = .evex256 → i.ready s = true →
    ∃ t, exec i s = .next t ∧
      (∀ j, j < 4 → lane32 (t.readZmm i.dst) j =
        if i.aaa = 0#3 ∨ s.k[i.aaa.toFin].getLsbD j = true then (i.lane s j).r
        else if i.zeroing then 0#32 else lane32 (s.readZmm i.dst) j) ∧
      t.readZmm i.dst >>> 128 = 0#512 ∧
      t.mxcsr = s.mxcsr ||| ((i.preFlags s).union (i.postFlags s)).bits ∧ t.rip = s.nextIp i.len ∧ Frame i.dst s t

/-- R152, R156: the EVEX.512 form (`evex512`, `evex512Bcst`): eight elements in bits 255:0, zero above. The form needs
MAXVL of 512 (R6), which `Config.wf` says. -/
def Obligations.Evex512FormCompletes : Prop :=
  ∀ (i : Instr) (s : State), i.form = .evex512 → s.cfg.wf = true → i.ready s = true →
    ∃ t, exec i s = .next t ∧
      (∀ j, j < 8 → lane32 (t.readZmm i.dst) j =
        if i.aaa = 0#3 ∨ s.k[i.aaa.toFin].getLsbD j = true then (i.lane s j).r
        else if i.zeroing then 0#32 else lane32 (s.readZmm i.dst) j) ∧
      t.readZmm i.dst >>> 256 = 0#512 ∧
      t.mxcsr = s.mxcsr ||| ((i.preFlags s).union (i.postFlags s)).bits ∧ t.rip = s.nextIp i.len ∧ Frame i.dst s t

/-- R153, R156: embedded rounding (`evex512Er`) completes whenever the form is available and enabled, whatever its source
holds. R117: all eight lanes convert under EVEX.RC with every exception masked and DAZ and FTZ of MXCSR, and MXCSR is not
written (the suppression is decision D11: log 21). R157, R160: masking, zeroing, `rip` and the frame are those of EVEX.512.
The form needs MAXVL of 512 (R6), which `Config.wf` says. -/
def Obligations.EmbeddedRoundingCompletes : Prop :=
  ∀ (pfx : List Prefix) (e : Evex) (rc : Rounding) (reg rm : BitVec 3) (s : State),
    s.cfg.wf = true → s.enabled .evex512Er = true →
    ∃ t, exec (.evex512Er pfx e rc reg rm) s = .next t ∧
      (∀ j, j < 8 → lane32 (t.readZmm (vecNum e.rHi e.r reg)) j =
        if e.aaa = 0#3 ∨ s.k[e.aaa.toFin].getLsbD j = true then
          (cvtF64ToF32 (lane64 (s.readZmm (vecNum e.x e.b rm)) j)
            ⟨rc, true, s.mxcsr.getLsbD 6, s.mxcsr.getLsbD 15, true, true, true, true, true⟩).r
        else if e.z then 0#32 else lane32 (s.readZmm (vecNum e.rHi e.r reg)) j) ∧
      t.readZmm (vecNum e.rHi e.r reg) >>> 256 = 0#512 ∧ t.mxcsr = s.mxcsr ∧
      t.rip = s.nextIp (Instr.evex512Er pfx e rc reg rm).len ∧ Frame (vecNum e.rHi e.r reg) s t

/-- R33, R134, R145, R160: whatever instruction completes, only its destination register, the flags of MXCSR (by setting
them) and the instruction pointer change; every byte of memory reads as before. -/
def Obligations.FrameOfEveryInstruction : Prop :=
  ∀ (i : Instr) (s t : State), exec i s = .next t → Frame i.dst s t ∧ t.rip = s.nextIp i.len

/-- R25, R116: with every exception masked, an instruction that is enabled and whose source can be read completes. -/
def Obligations.MaskedExceptionsNeverStop : Prop :=
  ∀ (i : Instr) (s : State), s.enabled i.form = true → s.sourceReady i.form i.aaa (i.source s) = true →
    s.mxcsr.extractLsb' 7 6 = 0x3F#6 → ∃ t, exec i s = .next t

/-! ### Faults (60_exceptions.md) -/

/-- R174: a form whose feature flag is 0 raises `#UD` whatever the state. -/
def Obligations.MissingFeatureRaisesUd : Prop :=
  ∀ (i : Instr) (s : State),
    (i.form = .legacy ∧ s.cfg.fSSE2 = false ∨
      (i.form = .vex128 ∨ i.form = .vex256) ∧ s.cfg.fAVX = false ∨
      (i.form = .evex128 ∨ i.form = .evex256) ∧
        (s.cfg.fAVX512VL = false ∨ s.cfg.fAVX512F = false) ∧ s.cfg.fAVX10_1 = false ∨
      (i.form = .evex512 ∨ i.form = .evex512Er) ∧ s.cfg.fAVX512F = false ∧ s.cfg.fAVX10_1 = false) →
    exec i s = .fault (.invalidOpcode s)

/-- R175: state the operating system has not enabled makes a form `#UD`; with it enabled, CR0.TS makes an available form
`#NM`. -/
def Obligations.DisabledStateRaisesUdOrNm : Prop :=
  ∀ (i : Instr) (s : State),
    ((i.form = .legacy ∧ (s.cr0.getLsbD 2 = true ∨ s.cr4.getLsbD 9 = false) ∨
        i.form ≠ .legacy ∧ (s.cr4.getLsbD 18 = false ∨ s.xcr0.extractLsb' 1 2 ≠ 3#2) ∨
        i.form.isEvex = true ∧ s.xcr0.extractLsb' 5 3 ≠ 7#3) →
      exec i s = .fault (.invalidOpcode s)) ∧
    (s.cfg.available i.form = true →
      (i.form = .legacy ∧ s.cr0.getLsbD 2 = false ∧ s.cr4.getLsbD 9 = true ∨
        i.form ≠ .legacy ∧ s.cr4.getLsbD 18 = true ∧ s.xcr0.extractLsb' 1 2 = 3#2 ∧
          (i.form.isEvex = true → s.xcr0.extractLsb' 5 3 = 7#3)) →
      s.cr0.getLsbD 3 = true → exec i s = .fault (.deviceNotAvailable s))

/-- R51, R179: the legacy m128 must be 16-byte aligned, else `#GP(0)`, before the memory is looked at; no other form raises
`#GP(0)` for its operand. A misaligned operand that passes the top of the address space, which R45 refuses, raises `#GP(0)`
as well: that order is the model's choice (log 15). -/
def Obligations.LegacyAlignment : Prop :=
  ∀ (i : Instr) (s : State) (la : Word),
    (i.form = .legacy → s.enabled .legacy = true → i.source s = .mem la → la.toNat % 16 ≠ 0 →
      exec i s = .fault (.generalProtection s)) ∧
    (∀ t, exec i s = .fault (.generalProtection t) → i.form = .legacy ∧ ∃ a, i.source s = .mem a ∧ a.toNat % 16 ≠ 0)

/-- R52, R156 step 5, R179: an enabled instruction that must read a byte that is not readable raises `MemFault`, with no
flag set; masked-off lanes are not read, so with no lane active the instruction completes whatever is readable (D12:
log 21). -/
def Obligations.UnreadableOperandRaisesMemFault : Prop :=
  ∀ (i : Instr) (s : State) (la : Word), s.enabled i.form = true →
    (∀ j, i.source s = .mem la → (i.form = .legacy → la.toNat % 16 = 0) → la.toNat + 8 * i.form.kl ≤ s.cfg.mode.addressSpace →
      j < 8 * i.form.kl → s.active i.aaa (j / 8) = true → s.cfg.readableByte (la.toNat + j) = false →
      exec i s = .fault (.memFault s)) ∧
    (∀ j b, i.source s = .bcst la → la.toNat + 8 ≤ s.cfg.mode.addressSpace → j < i.form.kl →
      s.active i.aaa j = true → b < 8 → s.cfg.readableByte (la.toNat + b) = false → exec i s = .fault (.memFault s)) ∧
    (i.form.isEvex = true → (∀ j, j < i.form.kl → s.active i.aaa j = false) →
      (i.source s = .mem la ∧ la.toNat + 8 * i.form.kl ≤ s.cfg.mode.addressSpace ∨
        i.source s = .bcst la ∧ la.toNat + 8 ≤ s.cfg.mode.addressSpace) →
      ∃ t, exec i s = .next t ∧ t.mxcsr = s.mxcsr)

/-- R45, R206: an operand that would pass the top of the address space is refused, masked-off lanes included and before
readability (that order is the model's choice, log 15), and a meaning refuses nothing else. -/
def Obligations.WrappingOperandIsRefused : Prop :=
  ∀ (i : Instr) (s : State),
    (∀ la, s.enabled i.form = true →
      (i.source s = .mem la ∧ (i.form = .legacy → la.toNat % 16 = 0) ∧ s.cfg.mode.addressSpace < la.toNat + 8 * i.form.kl ∨
        i.source s = .bcst la ∧ s.cfg.mode.addressSpace < la.toNat + 8) →
      exec i s = .refused .addressWrap) ∧
    (∀ r, exec i s = .refused r → r = .addressWrap ∧
      ∃ la, i.source s = .mem la ∧ s.cfg.mode.addressSpace < la.toNat + 8 * i.form.kl ∨
        i.source s = .bcst la ∧ s.cfg.mode.addressSpace < la.toNat + 8)

/-- R116, R177, R179: with a readable source, an unmasked pre-computation exception of an active lane stops the instruction
with all detected pre-computation flags set and no other; failing that, an unmasked post-computation exception stops it
with all detected flags set. The exception is `#XM`, or `#UD` with CR4.OSXMMEXCPT = 0; the destination and the
instruction pointer keep their value. That the flags at the fault are exactly these is decision D7 (log 21), and that they
come with the `#UD` too is an inference (log 29). Embedded rounding, which raises neither, is left to
`EmbeddedRoundingSuppressesExceptions`. -/
def Obligations.UnmaskedExceptionStops : Prop :=
  ∀ (i : Instr) (s : State), s.enabled i.form = true → s.sourceReady i.form i.aaa (i.source s) = true →
    i.form ≠ .evex512Er →
    let stop := fun u : State => if s.cr4.getLsbD 10 then Fault.simdFloatingPoint u else Fault.invalidOpcode u
    let pre := i.preFlags s
    let post := i.postFlags s
    let m := s.mxcsr
    ((pre.ie && !m.getLsbD 7 || pre.de && !m.getLsbD 8) = true →
      exec i s = .fault (stop { s with mxcsr := m ||| pre.bits })) ∧
    ((pre.ie && !m.getLsbD 7 || pre.de && !m.getLsbD 8) = false →
      (post.oe && !m.getLsbD 10 || post.ue && !m.getLsbD 11 || post.pe && !m.getLsbD 12) = true →
      exec i s = .fault (stop { s with mxcsr := m ||| (pre.union post).bits }))

/-- R180, R181: a step that raises an exception ends in a fault whose state is the pre-state, but for flags of MXCSR that a
SIMD floating-point exception (or, by inference, its `#UD` substitute: R177, log 29) may have set; the saved instruction
pointer is that of the faulting instruction. -/
def Obligations.FaultKeepsThePreState : Prop :=
  ∀ (s : State) (f : Fault), step s = .fault f →
    f.state = s ∨
    ((f.exc = .xm ∨ f.exc = .ud ∧ s.cr4.getLsbD 10 = false) ∧
      ∃ g : FpFlags, f.state = { s with mxcsr := s.mxcsr ||| g.bits })

/-! ### What an instruction reads and does not read -/

/-- R29: an instruction neither reads nor writes EFLAGS: with another value there, the outcome is the same but for that
value, which stays. -/
def Obligations.EflagsNeitherReadNorWritten : Prop :=
  ∀ (i : Instr) (s : State) (v : Word),
    exec i { s with rflags := v } = mapOutcome (fun t => { t with rflags := v }) (exec i s)

/-- R27, R33, R42: with a register source an instruction reads no general register, no segment base and no memory, and it
writes none. -/
def Obligations.RegisterSourceTouchesNoMemory : Prop :=
  ∀ (i : Instr) (s : State) (n : Fin 32) (g : Vector Word 16) (m : Memory) (f b : Word), i.source s = .reg n →
    exec i { s with gpr := g, mem := m, fsBase := f, gsBase := b } =
      mapOutcome (fun t => { t with gpr := g, mem := m, fsBase := f, gsBase := b }) (exec i s)

/-- R33, R42, R52, R118: of memory an instruction reads the bytes of its active lanes only (for a broadcast the 8 bytes, if
a lane is active): with any other memory that agrees on them the outcome is the same. -/
def Obligations.OnlyActiveLanesReadMemory : Prop :=
  ∀ (i : Instr) (s : State) (m : Memory),
    (∀ la, i.source s = .mem la → ∀ j, j < 8 * i.form.kl → s.active i.aaa (j / 8) = true →
      m.read (la.toNat + j) = s.mem.read (la.toNat + j)) →
    (∀ la, i.source s = .bcst la → (∃ j, j < i.form.kl ∧ s.active i.aaa j = true) → ∀ b, b < 8 →
      m.read (la.toNat + b) = s.mem.read (la.toNat + b)) →
    exec i { s with mem := m } = mapOutcome (fun t => { t with mem := m }) (exec i s)

/-- R118, R145, R160: of a source register an instruction reads the active elements only: bits above VL and masked-off
elements may hold anything. -/
def Obligations.OnlyActiveLanesReadRegister : Prop :=
  ∀ (i : Instr) (s : State) (n : Fin 32) (v : Vec), i.source s = .reg n → n ≠ i.dst →
    (∀ j, j < i.form.kl → s.active i.aaa j = true →
      lane64 (v &&& s.cfg.maxvl.mask) j = lane64 (s.readZmm n) j) →
    exec i { s with zmm := s.zmm.set n v } = mapOutcome (fun t => { t with zmm := t.zmm.set n v }) (exec i s)

/-- R22, R23, R157: of the opmask registers an instruction reads bits `KL−1:0` of `K[aaa]` only, and none with
`aaa = 000`; it writes none. -/
def Obligations.OnlyMaskBitsRead : Prop :=
  ∀ (i : Instr) (s : State) (k : Vector Word 8),
    (i.aaa ≠ 0#3 → ∀ j, j < i.form.kl → k[i.aaa.toFin].getLsbD j = s.k[i.aaa.toFin].getLsbD j) →
    exec i { s with k := k } = mapOutcome (fun t => { t with k := k }) (exec i s)

/-- R30: of the control registers an instruction reads CR0.EM, CR0.TS, CR4.OSFXSR, CR4.OSXMMEXCPT, CR4.OSXSAVE and XCR0
bits 1, 2, 5, 6 and 7, and nothing else; it writes none. -/
def Obligations.OnlyEnableBitsOfControlRegistersRead : Prop :=
  ∀ (i : Instr) (s : State) (a b c : Word),
    (∀ j, j = 2 ∨ j = 3 → a.getLsbD j = s.cr0.getLsbD j) →
    (∀ j, j = 9 ∨ j = 10 ∨ j = 18 → b.getLsbD j = s.cr4.getLsbD j) →
    (∀ j, j = 1 ∨ j = 2 ∨ j = 5 ∨ j = 6 ∨ j = 7 → c.getLsbD j = s.xcr0.getLsbD j) →
    exec i { s with cr0 := a, cr4 := b, xcr0 := c } =
      mapOutcome (fun t => { t with cr0 := a, cr4 := b, xcr0 := c }) (exec i s)

/-- R114: ZE is never set, in a completed instruction or a fault, and ZM is never read (nor written): flipping it flips it
in the outcome and does nothing else. -/
def Obligations.DivideByZeroNeverInvolved : Prop :=
  (∀ (i : Instr) (s t : State), exec i s = .next t → t.mxcsr.getLsbD 2 = s.mxcsr.getLsbD 2) ∧
  (∀ (i : Instr) (s : State) (f : Fault), exec i s = .fault f → f.state.mxcsr.getLsbD 2 = s.mxcsr.getLsbD 2) ∧
  (∀ (i : Instr) (s : State),
    exec i { s with mxcsr := s.mxcsr ^^^ 0x200#32 } =
      mapOutcome (fun t => { t with mxcsr := t.mxcsr ^^^ 0x200#32 }) (exec i s))

/-- R26, R119: the six flags are outputs and sticky: with any of them already set, the outcome is the same but that they
are set in it too, so none is cleared and none causes a fault. In a completed instruction and in a fault MXCSR[31:6] is as
it was and every flag that was set is set; embedded rounding changes nothing in MXCSR. -/
def Obligations.ExceptionFlagsAreSticky : Prop :=
  (∀ (i : Instr) (s : State) (x : BitVec 32), x >>> 6 = 0#32 →
    exec i { s with mxcsr := s.mxcsr ||| x } = mapOutcome (fun t => { t with mxcsr := t.mxcsr ||| x }) (exec i s)) ∧
  (∀ (i : Instr) (s t : State), exec i s = .next t ∨ (∃ f, exec i s = .fault f ∧ f.state = t) →
    t.mxcsr >>> 6 = s.mxcsr >>> 6 ∧ t.mxcsr &&& s.mxcsr = s.mxcsr ∧
    (i.form = .evex512Er → t.mxcsr = s.mxcsr))

/-- R117: embedded rounding neither reads nor writes MXCSR but for DAZ and FTZ, which it reads: RC, the masks and the flags
may hold anything; and it raises no `#XM` and no substitute for it: once enabled it completes (D11: log 21). -/
def Obligations.EmbeddedRoundingSuppressesExceptions : Prop :=
  ∀ (pfx : List Prefix) (e : Evex) (rc : Rounding) (reg rm : BitVec 3) (s : State),
    (∀ x : BitVec 32, x.getLsbD 6 = s.mxcsr.getLsbD 6 → x.getLsbD 15 = s.mxcsr.getLsbD 15 →
      exec (.evex512Er pfx e rc reg rm) { s with mxcsr := x } =
        mapOutcome (fun t => { t with mxcsr := x }) (exec (.evex512Er pfx e rc reg rm) s)) ∧
    (∀ f, exec (.evex512Er pfx e rc reg rm) s = .fault f → s.enabled .evex512Er = false ∧ f.state = s)

/-- R162: with no write mask and the same operands, EVEX.128 does exactly what VEX.128 does and EVEX.256 what VEX.256 does
(results, flags, zeroing, faults), but for the length; VEX.128 differs from the legacy form, on a source that form accepts,
only in the length and in bits MAXVL−1:128 of the destination. -/
def Obligations.FormsAgree : Prop :=
  (∀ (i j : Instr) (s : State),
    (i.form = .vex128 ∧ j.form = .evex128 ∨ i.form = .vex256 ∧ j.form = .evex256) → j.aaa = 0#3 → i.dst = j.dst →
    i.source s = j.source s → s.enabled i.form = true → s.enabled j.form = true →
    (∀ t, exec i s = .next t → exec j s = .next { t with rip := s.nextIp j.len }) ∧
    (∀ f, exec i s = .fault f → exec j s = .fault f) ∧ (∀ r, exec i s = .refused r → exec j s = .refused r)) ∧
  (∀ (i j : Instr) (s t : State),
    i.form = .legacy → j.form = .vex128 → i.dst = j.dst → i.source s = j.source s → s.enabled .vex128 = true →
    exec i s = .next t →
    ∃ u, exec j s = .next u ∧ u.mxcsr = t.mxcsr ∧ SameElse t u ∧ (∀ n, n ≠ i.dst → u.zmm[n] = t.zmm[n]) ∧
      (u.readZmm i.dst).extractLsb' 0 128 = (t.readZmm i.dst).extractLsb' 0 128 ∧ u.readZmm i.dst >>> 128 = 0#512)

/-- R62, R75: REX.W on the legacy form and the W bit of the three-byte VEX prefix are ignored. -/
def Obligations.WIsIgnored : Prop :=
  (∀ (pfx : List Prefix) (rex : Rex) (w : Bool) (reg : BitVec 3) (rm : RegMem) (s : State),
    exec (.cvtpd2psRex pfx { rex with w := w } reg rm) s = exec (.cvtpd2psRex pfx rex reg rm) s) ∧
  (∀ (pfx : List Prefix) (v : Vex3) (w : Bool) (reg : BitVec 3) (rm : RegMem) (s : State),
    exec (.vex128C4 pfx { v with w := w } reg rm) s = exec (.vex128C4 pfx v reg rm) s ∧
    exec (.vex256C4 pfx { v with w := w } reg rm) s = exec (.vex256C4 pfx v reg rm) s)

/-! ### Addresses (20_memory.md) -/

/-- R43 to R48: the linear address of an operand with no prefix, for each operand form with each displacement: base, `disp32`
alone (RIP-relative in M64, absolute in M32), SIB with and without index and base; then with a segment override. In M64 sums
are modulo `2^64`. In M32 (R47) they are modulo `2^32` over the low halves of the registers, with no extension bits. FS
and GS add their base in both modes (in M32 by inference, log 7), the other overrides add 0. -/
def Obligations.LinearAddressForms : Prop :=
  ∀ (s : State) (n len : Nat),
    (s.cfg.mode = .m64 → ∀ x b : Bool,
      let la := s.linearAddress [] x b n len
      let forms := fun (mk : Disp → MemOperand) (sum : Word) =>
        la (mk .none) = sum ∧ (∀ v : BitVec 8, la (mk (.d8 v)) = sum + v.signExtend 64 * BitVec.ofNat 64 n) ∧
        (∀ w : BitVec 32, la (mk (.d32 w)) = sum + w.signExtend 64)
      let idx := fun (sc : BitVec 2) (ix : BitVec 3) =>
        if x = false ∧ ix = 4#3 then 0#64 else s.gpr[(num4 x ix).toFin] <<< sc.toNat
      (∀ rm : BitVec 3, forms (.base rm) s.gpr[(num4 b rm).toFin]) ∧
      (∀ w : BitVec 32, la (.disp32 w) = s.rip + BitVec.ofNat 64 len + w.signExtend 64) ∧
      (∀ (sc : BitVec 2) (ix bs : BitVec 3), forms (.sib sc ix bs) (s.gpr[(num4 b bs).toFin] + idx sc ix)) ∧
      (∀ (sc : BitVec 2) (ix : BitVec 3) (w : BitVec 32), la (.sibDisp32 sc ix w) = idx sc ix + w.signExtend 64) ∧
      (∀ m : MemOperand, s.linearAddress [.seg .fs] x b n len m = la m + s.fsBase ∧
        s.linearAddress [.seg .gs] x b n len m = la m + s.gsBase ∧
        ∀ g : SegReg, g ≠ .fs → g ≠ .gs → s.linearAddress [.seg g] x b n len m = la m)) ∧
    (s.cfg.mode = .m32 →
      let la := s.linearAddress [] false false n len
      let reg := fun r : BitVec 3 => (s.gpr[(num4 false r).toFin]).extractLsb' 0 32
      let is := fun (m : MemOperand) (v : BitVec 32) => la m = v.setWidth 64
      let forms := fun (mk : Disp → MemOperand) (sum : BitVec 32) =>
        is (mk .none) sum ∧ (∀ v : BitVec 8, is (mk (.d8 v)) (sum + v.signExtend 32 * BitVec.ofNat 32 n)) ∧
        (∀ w : BitVec 32, is (mk (.d32 w)) (sum + w))
      let idx := fun (sc : BitVec 2) (ix : BitVec 3) => if ix = 4#3 then 0#32 else reg ix <<< sc.toNat
      (∀ rm : BitVec 3, forms (.base rm) (reg rm)) ∧
      (∀ w : BitVec 32, is (.disp32 w) w) ∧
      (∀ (sc : BitVec 2) (ix bs : BitVec 3), forms (.sib sc ix bs) (reg bs + idx sc ix)) ∧
      (∀ (sc : BitVec 2) (ix : BitVec 3) (w : BitVec 32), is (.sibDisp32 sc ix w) (idx sc ix + w)) ∧
      (∀ m : MemOperand,
        s.linearAddress [.seg .fs] false false n len m = ((la m + s.fsBase).extractLsb' 0 32).setWidth 64 ∧
        s.linearAddress [.seg .gs] false false n len m = ((la m + s.gsBase).extractLsb' 0 32).setWidth 64 ∧
        ∀ g : SegReg, g ≠ .fs → g ≠ .gs → s.linearAddress [.seg g] false false n len m = la m))

/-- R45: in M64, with a prefix 67 anywhere among the prefixes, the effective address of every operand is the one without it,
computed the same way and cut to its low 32 bits; without a 67 the prefixes do not change it. R47: in M32 the effective
address of every operand has 32 bits, whatever the prefixes: it is the sum modulo `2^32` over the low halves of the
registers; and the linear address, with the segment base added, is below `2^32` too. -/
def Obligations.ThirtyTwoBitAddresses : Prop :=
  ∀ (s : State) (pfx : List Prefix) (x b : Bool) (n len : Nat) (m : MemOperand),
    (s.cfg.mode = .m64 → s.effectiveAddress pfx x b n len m =
      if pfx.contains .addrSize then ((s.effectiveAddress [] x b n len m).extractLsb' 0 32).setWidth 64
      else s.effectiveAddress [] x b n len m) ∧
    (s.cfg.mode = .m32 →
      let reg := fun r : BitVec 4 => (s.gpr[r.toFin]).extractLsb' 0 32
      let idx := fun (sc : BitVec 2) (ix : BitVec 3) =>
        if num4 x ix = 4#4 then 0#32 else reg (num4 x ix) <<< sc.toNat
      let disp := fun d : Disp => match d with
        | .none => 0#32
        | .d8 v => v.signExtend 32 * BitVec.ofNat 32 n
        | .d32 w => w
      let sum : BitVec 32 := match m with
        | .base rm d => reg (num4 b rm) + disp d
        | .disp32 w => w
        | .sib sc ix bs d => reg (num4 b bs) + idx sc ix + disp d
        | .sibDisp32 sc ix w => idx sc ix + w
      s.effectiveAddress pfx x b n len m = sum.setWidth 64 ∧ (s.effectiveAddress pfx x b n len m).toNat < 2 ^ 32 ∧
      (s.linearAddress pfx x b n len m).toNat < 2 ^ 32)

/-- R43, R44, R49: in an EVEX instruction a `disp8` stands for a displacement `N` times as large: the operand is the one the
same instruction with the scaled `disp32` reads, `N` being the size of the vector, or 8 for a broadcast; with a base
register alone and with a SIB byte. -/
def Obligations.CompressedDisplacement : Prop :=
  ∀ (s : State) (pfx : List Prefix) (e : Evex) (reg : BitVec 3) (v : BitVec 8),
    let scaled := fun mk : Disp → MemOperand =>
      let d8 := mk (.d8 v)
      let d32 := fun n : BitVec 32 => mk (.d32 (v.signExtend 32 * n))
      (Instr.evex128 pfx e reg (.mem d8)).source s = (Instr.evex128 pfx e reg (.mem (d32 16))).source s ∧
      (Instr.evex256 pfx e reg (.mem d8)).source s = (Instr.evex256 pfx e reg (.mem (d32 32))).source s ∧
      (Instr.evex512 pfx e reg (.mem d8)).source s = (Instr.evex512 pfx e reg (.mem (d32 64))).source s ∧
      (Instr.evex128Bcst pfx e reg d8).source s = (Instr.evex128Bcst pfx e reg (d32 8)).source s ∧
      (Instr.evex256Bcst pfx e reg d8).source s = (Instr.evex256Bcst pfx e reg (d32 8)).source s ∧
      (Instr.evex512Bcst pfx e reg d8).source s = (Instr.evex512Bcst pfx e reg (d32 8)).source s
    (∀ rm : BitVec 3, scaled (.base rm)) ∧ (∀ (sc : BitVec 2) (ix bs : BitVec 3), scaled (.sib sc ix bs))

/-! ### The conversion of one element (40_conversion_numerics.md) -/

/-- R106: a NaN source. -/
def Obligations.NaNConversion : Prop :=
  (∀ (d : F64) (c : Ctx), isNaN64 d = true →
    cvtF64ToF32 d c =
      ⟨d.extractLsb' 63 1 ++ 0xFF#8 ++ 1#1 ++ d.extractLsb' 29 22,
       ⟨!d.getLsbD 51, false, false, false, false⟩, noFlags⟩) ∧
  (∀ c : Ctx, cvtF64ToF32 0x7FF0000000000001 c = ⟨0x7FC00000, { noFlags with ie := true }, noFlags⟩ ∧
    cvtF64ToF32 0x7FF8000000000000 c = ⟨0x7FC00000, noFlags, noFlags⟩ ∧
    cvtF64ToF32 0xFFF4000020000000 c = ⟨0xFFE00001, { noFlags with ie := true }, noFlags⟩ ∧
    cvtF64ToF32 0x7FFFFFFFFFFFFFFF c = ⟨0x7FFFFFFF, noFlags, noFlags⟩)

/-- R107: infinities and zeros convert exactly, with no flag, whatever the context. -/
def Obligations.InfinityAndZeroConversion : Prop :=
  ∀ c : Ctx, cvtF64ToF32 0x7FF0000000000000 c = ⟨0x7F800000, noFlags, noFlags⟩ ∧
    cvtF64ToF32 0xFFF0000000000000 c = ⟨0xFF800000, noFlags, noFlags⟩ ∧
    cvtF64ToF32 0x0000000000000000 c = ⟨0x00000000, noFlags, noFlags⟩ ∧
    cvtF64ToF32 0x8000000000000000 c = ⟨0x80000000, noFlags, noFlags⟩

/-- R108: a denormal source. With DAZ it is a zero of its sign, with no flag at all; without, DE is signalled and, Underflow
being masked, the result is a signed zero or the smallest denormal by the direction of rounding (a zero with FTZ), always
with UE and PE. -/
def Obligations.DenormalConversion : Prop :=
  ∀ (d : F64) (c : Ctx), f64Exp d = 0 → f64Frac d ≠ 0 →
    (c.daz = true → cvtF64ToF32 d c = ⟨packF32 (f64Sign d) 0, noFlags, noFlags⟩) ∧
    (c.daz = false → (cvtF64ToF32 d c).pre = { noFlags with de := true }) ∧
    (c.daz = false → c.um = true →
      cvtF64ToF32 d c =
        ⟨packF32 (f64Sign d) (if c.ftz = false ∧ roundsAway c.rc (f64Sign d) = true then 1 else 0),
         { noFlags with de := true }, { noFlags with ue := true, pe := true }⟩)

/-- R109: `RoundInt` by the table, in exact integers, and the rounding with unbounded exponent: a significand of 24 bits
whose value is `m × 2^(E−23)`. -/
def Obligations.RoundingWithUnboundedExponent : Prop :=
  (∀ (num den : Nat) (s : Bool), 0 < den →
    (∀ rc, (roundInt num den rc s).2 = decide ((roundInt num den rc s).1 * den ≠ num)) ∧
    2 * distance num ((roundInt num den .nearest s).1 * den) ≤ den ∧
    (2 * distance num ((roundInt num den .nearest s).1 * den) = den → (roundInt num den .nearest s).1 % 2 = 0) ∧
    (roundInt num den .zero s).1 = num / den ∧
    (roundInt num den .down false).1 = num / den ∧ (roundInt num den .up true).1 = num / den ∧
    (roundInt num den .down true).1 = (num + den - 1) / den ∧
    (roundInt num den .up false).1 = (num + den - 1) / den) ∧
  (∀ (n : Nat) (rc : Rounding) (s : Bool), n ≠ 0 →
    let e := Nat.log2 n
    let u := roundUnbounded n rc s
    2 ^ e ≤ n ∧ n < 2 ^ (e + 1) ∧ 2 ^ 23 ≤ u.sig ∧ u.sig < 2 ^ 24 ∧
    u.sig * 2 ^ u.exp = (roundInt (n * 2 ^ 23) (2 ^ e) rc s).1 * 2 ^ e ∧
    (u.inexact = true ↔ u.sig * 2 ^ u.exp ≠ n * 2 ^ 23))

/-- R110: overflow: the smallest magnitudes that overflow in each direction of rounding, the result table with Overflow
masked, and the flags with it masked and unmasked. -/
def Obligations.OverflowConversion : Prop :=
  ∀ (d : F64) (c : Ctx), isFinite64 d = true →
    let least :=
      if c.rc = .nearest then 0x47EFFFFFF0000000
      else if roundsAway c.rc (f64Sign d) then 0x47EFFFFFE0000001 else 0x47F0000000000000
    let x := cvtF64ToF32 d c
    (x.post.oe = decide (least ≤ f64Magnitude d)) ∧
    (least ≤ f64Magnitude d → c.om = true → x.post = { noFlags with oe := true, pe := true } ∧
      x.r = match c.rc, f64Sign d with
        | .nearest, false => 0x7F800000#32
        | .nearest, true => 0xFF800000#32
        | .down, false => 0x7F7FFFFF#32
        | .down, true => 0xFF800000#32
        | .up, false => 0x7F800000#32
        | .up, true => 0xFF7FFFFF#32
        | .zero, false => 0x7F7FFFFF#32
        | .zero, true => 0xFF7FFFFF#32) ∧
    (least ≤ f64Magnitude d → c.om = false →
      x.post = { noFlags with oe := true, pe := decide (f64Magnitude d % 2 ^ 29 ≠ 0) })

/-- R111: tininess is detected after rounding: the magnitudes below which a non-zero result is tiny, in each direction of
rounding, and what a tiny result is: with Underflow unmasked UE, and PE if the rounding with unbounded exponent is inexact;
with it masked and FTZ a zero with UE and PE; else the exact value rounded to a multiple of `2^−149`, with UE and PE if that
is inexact. A result that is not tiny has no UE. -/
def Obligations.UnderflowConversion : Prop :=
  ∀ (d : F64) (c : Ctx), isFinite64 d = true → f64Magnitude d ≠ 0 → (f64Exp d ≠ 0 ∨ c.daz = false) →
    let bound :=
      if c.rc = .nearest then 0x380FFFFFF0000000
      else if roundsAway c.rc (f64Sign d) then 0x380FFFFFE0000001 else 0x3810000000000000
    let lost := if f64Exp d = 0 then f64Frac d % 2 ^ (Nat.log2 (f64Frac d) - 23) else f64Frac d % 2 ^ 29
    let n := roundInt (exactScaled d) (2 ^ 925) c.rc (f64Sign d)
    let x := cvtF64ToF32 d c
    (bound ≤ f64Magnitude d → x.post.ue = false) ∧
    (f64Magnitude d < bound → c.um = false → x.post = { noFlags with ue := true, pe := decide (lost ≠ 0) }) ∧
    (f64Magnitude d < bound → c.um = true → c.ftz = true →
      x.r = packF32 (f64Sign d) 0 ∧ x.post = { noFlags with ue := true, pe := true }) ∧
    (f64Magnitude d < bound → c.um = true → c.ftz = false →
      n.1 ≤ 2 ^ 23 ∧ x.r = packF32 (f64Sign d) n.1 ∧
      x.post = { noFlags with
        ue := decide (n.1 * 2 ^ 925 ≠ exactScaled d), pe := decide (n.1 * 2 ^ 925 ≠ exactScaled d) })

/-- R112: FTZ acts only with Underflow masked and on a tiny result, which it replaces by a zero of the same sign with UE and
PE; on any other conversion (`2^−126` reached by rounding up among them) it changes nothing. -/
def Obligations.FlushToZeroConversion : Prop :=
  ∀ (d : F64) (c : Ctx),
    let bound :=
      if c.rc = .nearest then 0x380FFFFFF0000000
      else if roundsAway c.rc (f64Sign d) then 0x380FFFFFE0000001 else 0x3810000000000000
    let tiny := f64Magnitude d ≠ 0 ∧ f64Magnitude d < bound ∧ (f64Exp d ≠ 0 ∨ c.daz = false)
    (¬(c.um = true ∧ tiny) → cvtF64ToF32 d { c with ftz := true } = cvtF64ToF32 d { c with ftz := false }) ∧
    (c.um = true → tiny → (cvtF64ToF32 d { c with ftz := true }).r = packF32 (f64Sign d) 0 ∧
      (cvtF64ToF32 d { c with ftz := true }).post = { noFlags with ue := true, pe := true })

/-- R121 item 7: the exact double image of a single that is not a signalling NaN converts back to it with no flag, in every
rounding mode, with Underflow masked and FTZ off. -/
def Obligations.RoundTripThroughDouble : Prop :=
  ∀ (x : F32) (c : Ctx), isSNaN32 x = false → c.um = true → c.ftz = false →
    cvtF64ToF32 (widenF32 x) c = ⟨x, noFlags, noFlags⟩

/-- R121 item 3: with everything masked the conversion is non-decreasing in the order of the real numbers and infinities. -/
def Obligations.ConversionIsMonotone : Prop :=
  ∀ (d e : F64) (c : Ctx), c.allMasked = true → isNaN64 d = false → isNaN64 e = false → f64Key d ≤ f64Key e →
    f32Key (cvtF64ToF32 d c).r ≤ f32Key (cvtF64ToF32 e c).r

/-- R109, R111, R113: rounding to nearest delivers a nearest single: no finite single is nearer to the exact value, and
where another is equally near the result has an even last place. Masked, FTZ off, the source not flushed by DAZ and below
the overflow threshold of R110. -/
def Obligations.NearestIsNearestEven : Prop :=
  ∀ (d : F64) (c : Ctx) (y : F32), c.allMasked = true → c.rc = .nearest → c.ftz = false →
    (f64Exp d ≠ 0 ∨ c.daz = false) → f64Magnitude d < 0x47EFFFFFF0000000 → isFinite32 y = true →
    let r := (cvtF64ToF32 d c).r
    distance (exactScaled d) (f32Scaled r) ≤ distance (exactScaled d) (f32Scaled y) ∧
    (distance (exactScaled d) (f32Scaled r) = distance (exactScaled d) (f32Scaled y) → f32Scaled y ≠ f32Scaled r →
      r.getLsbD 0 = false)

/-- R109 to R113: a directed rounding delivers the neighbour in its direction: toward zero (RZ; RD of a positive and RU of a
negative source) the largest finite magnitude not above the exact one; away from zero, where it does not overflow, the
smallest not below it. Masked, FTZ off, the source not flushed by DAZ. -/
def Obligations.DirectedRoundingIsTight : Prop :=
  ∀ (d : F64) (c : Ctx) (y : F32), c.allMasked = true → c.rc ≠ .nearest → c.ftz = false → isFinite64 d = true →
    (f64Exp d ≠ 0 ∨ c.daz = false) → isFinite32 y = true →
    let r := (cvtF64ToF32 d c).r
    (roundsAway c.rc (f64Sign d) = false →
      isFinite32 r = true ∧ f32Scaled r ≤ exactScaled d ∧ (f32Scaled y ≤ exactScaled d → f32Scaled y ≤ f32Scaled r)) ∧
    (roundsAway c.rc (f64Sign d) = true → f64Magnitude d ≤ 0x47EFFFFFE0000000 →
      isFinite32 r = true ∧ exactScaled d ≤ f32Scaled r ∧ (exactScaled d ≤ f32Scaled y → f32Scaled r ≤ f32Scaled y))

/-- R121 items 2 and 4: for a finite source that DAZ does not flush, with everything masked and FTZ off, PE is not signalled
exactly if some single has the same magnitude; and then the result is the same in all four rounding modes. -/
def Obligations.PrecisionFlagMeansInexact : Prop :=
  ∀ (d : F64) (c : Ctx), c.allMasked = true → c.ftz = false → isFinite64 d = true → (f64Exp d ≠ 0 ∨ c.daz = false) →
    ((cvtF64ToF32 d c).post.pe = false ↔ ∃ y : F32, isFinite32 y = true ∧ f32Scaled y = exactScaled d) ∧
    ((cvtF64ToF32 d c).post.pe = false → ∀ rc, (cvtF64ToF32 d { c with rc := rc }).r = (cvtF64ToF32 d c).r)

/-- R121 items 1, 5 and 6, with Overflow and Underflow masked: the sign is kept; the result is never a signalling NaN, nor a
denormal with FTZ; and the flags of one lane are none, IE, PE, OE and PE, UE and PE, or DE, UE and PE. -/
def Obligations.SignKindAndFlagsOfResult : Prop :=
  ∀ (d : F64) (c : Ctx), c.om = true → c.um = true →
    let x := cvtF64ToF32 d c
    x.r.getLsbD 31 = d.getLsbD 63 ∧ isSNaN32 x.r = false ∧ (c.ftz = true → isDenormal32 x.r = false) ∧
    x.pre.union x.post ∈
      [noFlags, ⟨true, false, false, false, false⟩, ⟨false, false, false, false, true⟩,
       ⟨false, false, true, false, true⟩, ⟨false, false, false, true, true⟩, ⟨false, true, false, true, true⟩]

/-! ### The invariant -/

/-- R25, R28, R40, R203: every step keeps the invariant: memory in canonical form, MXCSR[31:16] = 0, no vector register bit
at or above MAXVL, a 32-bit EIP in M32, and the constraint of R6. -/
def Obligations.EveryStepKeepsTheInvariant : Prop :=
  ∀ s t : State, s.Inv → step s = .next t → t.Inv

/-- R203: the invariant holds of the launch state. -/
def Obligations.ResetSatisfiesTheInvariant : Prop := State.reset.Inv

/-- R34, R200: what reset leaves in the registers the spec gives a value for: MXCSR 1F80, vector and opmask registers 0.
The rest of the launch state is the model's choice (log 1, log 3 to log 7). -/
def Obligations.ResetRegisterValues : Prop :=
  State.reset.mxcsr = 0x1F80#32 ∧ (∀ n : Fin 32, State.reset.readZmm n = 0#512) ∧
  (∀ n : BitVec 3, State.reset.readK n = 0#64)

end
end

