-- ==== Sys2Proof/Laws/Memory.lean ====
section
/-!
SUPPORT. Memory: what a read gives after a write, that every operation keeps the canonical form, and the bytes of a
wide read (20_memory.md R40, R41, R50).
-/

namespace Sys2Proof.Machine

/-! ### Read after write -/

theorem Memory.read_of_wfFrom_lt : ∀ (m : Memory) (lo a : Nat), Memory.wfFrom lo m = true → a < lo →
    Memory.read m a = unlistedByte
  | [], _, _, _, _ => rfl
  | (k, v) :: m, lo, a, h, ha => by
    simp only [Memory.wfFrom, Bool.and_eq_true, decide_eq_true_eq] at h
    obtain ⟨⟨hlo, -⟩, hm⟩ := h
    simp only [Memory.read, show ¬k = a by omega, if_false]
    exact Memory.read_of_wfFrom_lt m (k + 1) a hm (by omega)

theorem Memory.read_write_other : ∀ (m : Memory) (a b : Nat) (v : Byte), b ≠ a →
    Memory.read (Memory.write m a v) b = Memory.read m b
  | [], a, b, v, h => by
    by_cases hv : v = unlistedByte <;> simp [Memory.write, Memory.read, hv, Ne.symm h]
  | (k, w) :: m, a, b, v, h => by
    by_cases h1 : a < k
    · by_cases hv : v = unlistedByte <;> simp [Memory.write, Memory.read, h1, hv, Ne.symm h]
    · by_cases h2 : a = k
      · subst h2
        by_cases hv : v = unlistedByte <;> simp [Memory.write, Memory.read, hv, Ne.symm h]
      · simp only [Memory.write, h1, h2, if_false, Memory.read, Memory.read_write_other m a b v h]

theorem Memory.read_write_same : ∀ (m : Memory) (lo a : Nat) (v : Byte), Memory.wfFrom lo m = true → lo ≤ a →
    Memory.read (Memory.write m a v) a = v
  | [], _, a, v, _, _ => by
    by_cases hv : v = unlistedByte <;> simp [Memory.write, Memory.read, hv]
  | (k, w) :: m, lo, a, v, h, ha => by
    simp only [Memory.wfFrom, Bool.and_eq_true, decide_eq_true_eq] at h
    obtain ⟨-, hm⟩ := h
    by_cases h1 : a < k
    · by_cases hv : v = unlistedByte
      · simp only [Memory.write, h1, hv, if_true, Memory.read, show ¬k = a by omega, if_false]
        exact Memory.read_of_wfFrom_lt m (k + 1) a hm (by omega)
      · simp [Memory.write, Memory.read, h1, hv]
    · by_cases h2 : a = k
      · subst h2
        by_cases hv : v = unlistedByte
        · simp only [Memory.write, lt_irrefl, if_false, if_true, hv]
          exact Memory.read_of_wfFrom_lt m (a + 1) a hm (by omega)
        · simp [Memory.write, Memory.read, hv]
      · simp only [Memory.write, h1, h2, if_false, Memory.read, Ne.symm h2]
        exact Memory.read_write_same m (k + 1) a v hm (by omega)

/-! ### The canonical form is kept -/

theorem Memory.wfFrom_mono : ∀ (m : Memory) {lo lo' : Nat}, lo' ≤ lo → Memory.wfFrom lo m = true →
    Memory.wfFrom lo' m = true
  | [], _, _, _, _ => rfl
  | (k, v) :: m, lo, lo', h, hm => by
    simp only [Memory.wfFrom, Bool.and_eq_true, decide_eq_true_eq] at hm ⊢
    exact ⟨⟨by omega, hm.1.2⟩, hm.2⟩

theorem Memory.wfFrom_write : ∀ (m : Memory) (lo a : Nat) (v : Byte), Memory.wfFrom lo m = true → lo ≤ a →
    Memory.wfFrom lo (Memory.write m a v) = true
  | [], lo, a, v, _, ha => by
    by_cases hv : v = unlistedByte <;> simp [Memory.write, Memory.wfFrom, hv, ha]
  | (k, w) :: m, lo, a, v, h, ha => by
    simp only [Memory.wfFrom, Bool.and_eq_true, decide_eq_true_eq] at h
    obtain ⟨⟨hlo, hw⟩, hm⟩ := h
    by_cases h1 : a < k
    · by_cases hv : v = unlistedByte
      · simp [Memory.write, Memory.wfFrom, h1, hv, hlo, hw, hm]
      · simp [Memory.write, Memory.wfFrom, h1, hv, ha, hw, hm, Nat.succ_le_of_lt h1]
    · by_cases h2 : a = k
      · subst h2
        by_cases hv : v = unlistedByte
        · simp only [Memory.write, lt_irrefl, if_false, if_true, hv]
          exact Memory.wfFrom_mono m (by omega) hm
        · simp [Memory.write, Memory.wfFrom, hv, ha, hm]
      · simp only [Memory.write, h1, h2, if_false, Memory.wfFrom, Bool.and_eq_true, decide_eq_true_eq]
        exact ⟨⟨hlo, hw⟩, Memory.wfFrom_write m (k + 1) a v hm (by omega)⟩

/-- A write keeps the canonical form. -/
theorem Memory.wf_write {m : Memory} (h : m.wf = true) (a : Nat) (v : Byte) : (m.write a v).wf = true :=
  Memory.wfFrom_write m 0 a v h (Nat.zero_le a)

/-- A write of several bytes keeps the canonical form. -/
theorem Memory.wf_writeBytes : ∀ (bs : List Byte) {m : Memory} (a : Nat), m.wf = true → (m.writeBytes a bs).wf = true
  | [], _, _, h => h
  | b :: bs, _, a, h => Memory.wf_writeBytes bs (a + 1) (Memory.wf_write h a b)

/-- The memory right after reset has the canonical form. -/
theorem reset_mem_wf : State.reset.mem.wf = true := rfl

/-! ### The bytes of a wide read (R41, R50) -/

theorem memRead_getLsbD (m : Memory) : ∀ (n la k : Nat), n ≤ 64 → k < 512 →
    (memRead m la n).getLsbD k = (decide (k < 8 * n) && (m.read (la + k / 8)).getLsbD (k % 8))
  | 0, la, k, _, _ => by simp [memRead]
  | n + 1, la, k, hn, hk => by
    simp only [memRead, BitVec.getLsbD_or, BitVec.getLsbD_setWidth, BitVec.getLsbD_shiftLeft, hk, decide_true,
      Bool.true_and]
    by_cases h8 : k < 8
    · have h0 : k / 8 = 0 := by omega
      have h1 : k % 8 = k := by omega
      simp [h8, h0, h1, show k < 8 * (n + 1) by omega]
    · rw [memRead_getLsbD m n (la + 1) (k - 8) (by omega) (by omega)]
      have h0 : (m.read la).getLsbD k = false := BitVec.getLsbD_of_ge _ _ (by omega)
      have h1 : la + 1 + (k - 8) / 8 = la + k / 8 := by omega
      have h2 : (k - 8) % 8 = k % 8 := by omega
      have h3 : (k - 8 < 8 * n) ↔ (k < 8 * (n + 1)) := by omega
      simp [h8, h0, h1, h2, h3]

theorem elementAt_getLsbD (s : State) (a k : Nat) (hk : k < 64) :
    (s.elementAt a).getLsbD k = (s.mem.read (a + k / 8)).getLsbD (k % 8) := by
  simp only [State.elementAt, BitVec.getLsbD_append]
  obtain h | h | h | h | h | h | h | h :
      k / 8 = 0 ∨ k / 8 = 1 ∨ k / 8 = 2 ∨ k / 8 = 3 ∨ k / 8 = 4 ∨ k / 8 = 5 ∨ k / 8 = 6 ∨ k / 8 = 7 := by omega
  all_goals
    rw [h]
    repeat' split
    all_goals first | omega | skip
    all_goals first | rfl | (congr 1; omega)

/-- One element read alone is the element at the address. -/
theorem memRead_element (s : State) (a : Nat) : (memRead s.mem a 8).setWidth 64 = s.elementAt a := by
  refine BitVec.eq_of_getLsbD_eq fun k hk => ?_
  rw [BitVec.getLsbD_setWidth, memRead_getLsbD _ _ _ _ (by omega) (by omega), elementAt_getLsbD _ _ _ hk]
  simp [hk]

/-- Element `j` of a wide read is the element at the address `8 j` bytes on. -/
theorem lane64_memRead (s : State) (a n j : Nat) (hn : n ≤ 8) (hj : j < n) :
    lane64 (memRead s.mem a (8 * n)) j = s.elementAt (a + 8 * j) := by
  refine BitVec.eq_of_getLsbD_eq fun k hk => ?_
  rw [lane64, BitVec.getLsbD_extractLsb', memRead_getLsbD _ _ _ _ (by omega) (by omega), elementAt_getLsbD _ _ _ hk]
  have h1 : a + (64 * j + k) / 8 = a + 8 * j + k / 8 := by omega
  have h2 : (64 * j + k) % 8 = k % 8 := by omega
  have h3 : 64 * j + k < 8 * (8 * n) := by omega
  simp [hk, h1, h2, h3]

end Sys2Proof.Machine
end

