-- ==== Sys2Proof/Laws/State.lean ====
section
/-! SUPPORT. The fields of a state after each update, and what a vector register reads as after a write. -/

namespace Sys2Proof.Machine

/-! ### setZmm -/

@[simp] theorem State.setZmm_zmm (s : State) (n : Fin 32) (v : Vec) : (s.setZmm n v).zmm = s.zmm.set n (v &&& s.cfg.maxvl.mask) := rfl
@[simp] theorem State.setZmm_k (s : State) (n : Fin 32) (v : Vec) : (s.setZmm n v).k = s.k := rfl
@[simp] theorem State.setZmm_mxcsr (s : State) (n : Fin 32) (v : Vec) : (s.setZmm n v).mxcsr = s.mxcsr := rfl
@[simp] theorem State.setZmm_gpr (s : State) (n : Fin 32) (v : Vec) : (s.setZmm n v).gpr = s.gpr := rfl
@[simp] theorem State.setZmm_rip (s : State) (n : Fin 32) (v : Vec) : (s.setZmm n v).rip = s.rip := rfl
@[simp] theorem State.setZmm_rflags (s : State) (n : Fin 32) (v : Vec) : (s.setZmm n v).rflags = s.rflags := rfl
@[simp] theorem State.setZmm_cr0 (s : State) (n : Fin 32) (v : Vec) : (s.setZmm n v).cr0 = s.cr0 := rfl
@[simp] theorem State.setZmm_cr4 (s : State) (n : Fin 32) (v : Vec) : (s.setZmm n v).cr4 = s.cr4 := rfl
@[simp] theorem State.setZmm_xcr0 (s : State) (n : Fin 32) (v : Vec) : (s.setZmm n v).xcr0 = s.xcr0 := rfl
@[simp] theorem State.setZmm_fsBase (s : State) (n : Fin 32) (v : Vec) : (s.setZmm n v).fsBase = s.fsBase := rfl
@[simp] theorem State.setZmm_gsBase (s : State) (n : Fin 32) (v : Vec) : (s.setZmm n v).gsBase = s.gsBase := rfl
@[simp] theorem State.setZmm_mem (s : State) (n : Fin 32) (v : Vec) : (s.setZmm n v).mem = s.mem := rfl
@[simp] theorem State.setZmm_cfg (s : State) (n : Fin 32) (v : Vec) : (s.setZmm n v).cfg = s.cfg := rfl

/-! ### setMxcsr -/

@[simp] theorem State.setMxcsr_zmm (s : State) (x : BitVec 32) : (s.setMxcsr x).zmm = s.zmm := rfl
@[simp] theorem State.setMxcsr_k (s : State) (x : BitVec 32) : (s.setMxcsr x).k = s.k := rfl
@[simp] theorem State.setMxcsr_mxcsr (s : State) (x : BitVec 32) : (s.setMxcsr x).mxcsr = x := rfl
@[simp] theorem State.setMxcsr_gpr (s : State) (x : BitVec 32) : (s.setMxcsr x).gpr = s.gpr := rfl
@[simp] theorem State.setMxcsr_rip (s : State) (x : BitVec 32) : (s.setMxcsr x).rip = s.rip := rfl
@[simp] theorem State.setMxcsr_rflags (s : State) (x : BitVec 32) : (s.setMxcsr x).rflags = s.rflags := rfl
@[simp] theorem State.setMxcsr_cr0 (s : State) (x : BitVec 32) : (s.setMxcsr x).cr0 = s.cr0 := rfl
@[simp] theorem State.setMxcsr_cr4 (s : State) (x : BitVec 32) : (s.setMxcsr x).cr4 = s.cr4 := rfl
@[simp] theorem State.setMxcsr_xcr0 (s : State) (x : BitVec 32) : (s.setMxcsr x).xcr0 = s.xcr0 := rfl
@[simp] theorem State.setMxcsr_fsBase (s : State) (x : BitVec 32) : (s.setMxcsr x).fsBase = s.fsBase := rfl
@[simp] theorem State.setMxcsr_gsBase (s : State) (x : BitVec 32) : (s.setMxcsr x).gsBase = s.gsBase := rfl
@[simp] theorem State.setMxcsr_mem (s : State) (x : BitVec 32) : (s.setMxcsr x).mem = s.mem := rfl
@[simp] theorem State.setMxcsr_cfg (s : State) (x : BitVec 32) : (s.setMxcsr x).cfg = s.cfg := rfl

/-! ### setRip -/

@[simp] theorem State.setRip_zmm (s : State) (a : Word) : (s.setRip a).zmm = s.zmm := rfl
@[simp] theorem State.setRip_k (s : State) (a : Word) : (s.setRip a).k = s.k := rfl
@[simp] theorem State.setRip_mxcsr (s : State) (a : Word) : (s.setRip a).mxcsr = s.mxcsr := rfl
@[simp] theorem State.setRip_gpr (s : State) (a : Word) : (s.setRip a).gpr = s.gpr := rfl
@[simp] theorem State.setRip_rip (s : State) (a : Word) : (s.setRip a).rip = a := rfl
@[simp] theorem State.setRip_rflags (s : State) (a : Word) : (s.setRip a).rflags = s.rflags := rfl
@[simp] theorem State.setRip_cr0 (s : State) (a : Word) : (s.setRip a).cr0 = s.cr0 := rfl
@[simp] theorem State.setRip_cr4 (s : State) (a : Word) : (s.setRip a).cr4 = s.cr4 := rfl
@[simp] theorem State.setRip_xcr0 (s : State) (a : Word) : (s.setRip a).xcr0 = s.xcr0 := rfl
@[simp] theorem State.setRip_fsBase (s : State) (a : Word) : (s.setRip a).fsBase = s.fsBase := rfl
@[simp] theorem State.setRip_gsBase (s : State) (a : Word) : (s.setRip a).gsBase = s.gsBase := rfl
@[simp] theorem State.setRip_mem (s : State) (a : Word) : (s.setRip a).mem = s.mem := rfl
@[simp] theorem State.setRip_cfg (s : State) (a : Word) : (s.setRip a).cfg = s.cfg := rfl

/-! ### setProgram -/

@[simp] theorem State.setProgram_zmm (s : State) (m : Memory) (lo hi : Nat) : (s.setProgram m lo hi).zmm = s.zmm := rfl
@[simp] theorem State.setProgram_k (s : State) (m : Memory) (lo hi : Nat) : (s.setProgram m lo hi).k = s.k := rfl
@[simp] theorem State.setProgram_mxcsr (s : State) (m : Memory) (lo hi : Nat) : (s.setProgram m lo hi).mxcsr = s.mxcsr := rfl
@[simp] theorem State.setProgram_gpr (s : State) (m : Memory) (lo hi : Nat) : (s.setProgram m lo hi).gpr = s.gpr := rfl
@[simp] theorem State.setProgram_rip (s : State) (m : Memory) (lo hi : Nat) : (s.setProgram m lo hi).rip = s.rip := rfl
@[simp] theorem State.setProgram_rflags (s : State) (m : Memory) (lo hi : Nat) : (s.setProgram m lo hi).rflags = s.rflags := rfl
@[simp] theorem State.setProgram_cr0 (s : State) (m : Memory) (lo hi : Nat) : (s.setProgram m lo hi).cr0 = s.cr0 := rfl
@[simp] theorem State.setProgram_cr4 (s : State) (m : Memory) (lo hi : Nat) : (s.setProgram m lo hi).cr4 = s.cr4 := rfl
@[simp] theorem State.setProgram_xcr0 (s : State) (m : Memory) (lo hi : Nat) : (s.setProgram m lo hi).xcr0 = s.xcr0 := rfl
@[simp] theorem State.setProgram_fsBase (s : State) (m : Memory) (lo hi : Nat) : (s.setProgram m lo hi).fsBase = s.fsBase := rfl
@[simp] theorem State.setProgram_gsBase (s : State) (m : Memory) (lo hi : Nat) : (s.setProgram m lo hi).gsBase = s.gsBase := rfl
@[simp] theorem State.setProgram_mem (s : State) (m : Memory) (lo hi : Nat) : (s.setProgram m lo hi).mem = m := rfl
@[simp] theorem State.setProgram_cfg (s : State) (m : Memory) (lo hi : Nat) : (s.setProgram m lo hi).cfg = { s.cfg with textLo := lo, textHi := hi, endAddr := hi } := rfl

/-! ### Vector registers -/

/-- A vector register written and read back (R6, R20). -/
@[simp] theorem State.setZmm_readZmm_same (s : State) (n : Fin 32) (v : Vec) :
    (s.setZmm n v).readZmm n = v &&& s.cfg.maxvl.mask := by
  simp [State.readZmm, BitVec.and_assoc]

/-- Writing one vector register leaves the others alone. -/
theorem State.setZmm_zmm_other (s : State) {n m : Fin 32} (v : Vec) (h : m ≠ n) :
    (s.setZmm n v).zmm[m] = s.zmm[m] := by
  have h' : (n : Nat) ≠ (m : Nat) := fun e => h (Fin.ext e.symm)
  simp [h']

theorem State.setZmm_readZmm_other (s : State) {n m : Fin 32} (v : Vec) (h : m ≠ n) :
    (s.setZmm n v).readZmm m = s.readZmm m := by
  simp only [State.readZmm, State.setZmm_zmm_other s v h, State.setZmm_cfg]

@[simp] theorem State.setMxcsr_readZmm (s : State) (x : BitVec 32) (n : Fin 32) :
    (s.setMxcsr x).readZmm n = s.readZmm n := rfl

@[simp] theorem State.setRip_readZmm (s : State) (a : Word) (n : Fin 32) :
    (s.setRip a).readZmm n = s.readZmm n := rfl

end Sys2Proof.Machine
end

