-- ==== Sys2Proof/Laws/Exec.lean ====
section
/-!
SUPPORT. What each shared operation of the meanings can answer, said once: availability, reading the source, the packed
conversion, and the whole procedure. Every meaning is the same procedure (`exec_eq_convert`).
-/

namespace Sys2Proof.Machine

/-! ### Availability (R174, R175) -/

theorem gate_of_enabled {s : State} {f : Form} (h : s.enabled f = true) : gate f s = .ok () := by
  simp only [State.enabled, Bool.and_eq_true, Bool.not_eq_true'] at h
  simp [gate, h.1.1, h.1.2, h.2]

theorem enabled_of_gate {s : State} {f : Form} {u : Unit} (h : gate f s = .ok u) : s.enabled f = true := by
  simp only [gate] at h
  split at h
  · cases h
  · split at h
    · cases h
    · split at h
      · cases h
      · simp_all [State.enabled]

/-- The only stops of the availability checks. -/
theorem gate_error {s : State} {f : Form} {e : Stop} (h : gate f s = .error e) :
    (e = .exception .ud ∧ (s.cfg.available f = false ∨ s.envOk f = false)) ∨
    (e = .exception .nm ∧ s.cfg.available f = true ∧ s.envOk f = true ∧ s.envTs = true) := by
  simp only [gate] at h
  split at h
  · injection h with h; exact .inl ⟨h.symm, .inl (by simp_all)⟩
  · split at h
    · injection h with h; exact .inl ⟨h.symm, .inr (by simp_all)⟩
    · split at h
      · injection h with h; exact .inr ⟨h.symm, by simp_all⟩
      · cases h

/-! ### Reading the source (R51, R52, R156) -/

theorem activeLanes_congr {kl : Nat} {p : Nat → Bool} {x y : Nat → F64}
    (h : ∀ j, j < kl → p j = true → x j = y j) : activeLanes kl p x = activeLanes kl p y := by
  refine List.map_congr_left fun j hj => ?_
  by_cases hp : p j = true
  · simp [hp, h j (List.mem_range.1 hj) hp]
  · simp [hp]

@[simp] theorem activeLanes_length (kl : Nat) (p : Nat → Bool) (x : Nat → F64) : (activeLanes kl p x).length = kl := by
  simp [activeLanes]

theorem activeLanes_getElem (kl : Nat) (p : Nat → Bool) (x : Nat → F64) (j : Nat)
    (h : j < (activeLanes kl p x).length) : (activeLanes kl p x)[j] = if p j then some (x j) else none := by
  simp [activeLanes]

/-- `n` bytes are readable as one range exactly if each of its elements is. -/
theorem isReadable_elements (s : State) (la kl : Nat) :
    s.isReadable la (8 * kl) = (List.range kl).all fun j => s.isReadable (la + 8 * j) 8 := by
  rw [Bool.eq_iff_iff]
  simp only [State.isReadable, List.all_eq_true, List.mem_range]
  constructor
  · intro h j hj i hi
    rw [show la + 8 * j + i = la + (8 * j + i) by omega]
    exact h _ (by omega)
  · intro h i hi
    have := h (i / 8) (by omega) (i % 8) (by omega)
    rwa [show la + 8 * (i / 8) + i % 8 = la + i by omega] at this

/-- A source that is ready gives the elements of the active lanes. -/
theorem readSource_of_ready {s : State} {f : Form} {src : Source} {aaa : BitVec 3} (hm : f.isEvex = true ∨ aaa = 0#3)
    (h : s.sourceReady f aaa src = true) :
    readSource s f src aaa = .ok (activeLanes f.kl (s.active aaa) (s.sourceElement src)) := by
  cases src with
  | reg n => rfl
  | mem la =>
    simp only [State.sourceReady, Bool.and_eq_true, Bool.or_eq_true, bne_iff_ne, ne_eq, decide_eq_true_eq] at h
    obtain ⟨⟨hal, hsp⟩, hrd⟩ := h
    have hal' : ¬(f = .legacy ∧ la.toNat % 16 ≠ 0) := by rintro ⟨h1, h2⟩; exact hal.elim (· h1) h2
    simp only [readSource, if_neg hal']
    by_cases he : f.isEvex = true
    · simp only [he, if_true, readLanes, hsp, Bool.not_true, Bool.false_eq_true, if_false, hrd, memRead_element]
      rfl
    · have ha : aaa = 0#3 := hm.resolve_left he
      have hact : s.active aaa = fun _ => true := by subst ha; funext j; simp [State.active]
      have hr : s.isReadable la.toNat (8 * f.kl) = true := by
        rw [isReadable_elements]; simpa [hact] using hrd
      have hkl : f.kl ≤ 8 := by cases f <;> decide
      simp only [he, Bool.false_eq_true, if_false, readVector, hsp, Bool.not_true, hr, hact]
      exact congrArg Except.ok (activeLanes_congr fun j hj _ => lane64_memRead s la.toNat f.kl j hkl hj)
  | bcst la =>
    simp only [State.sourceReady, Bool.and_eq_true, Bool.or_eq_true, Bool.not_eq_true'] at h
    obtain ⟨hsp, hrd⟩ := h
    have : ((List.range f.kl).any (s.active aaa) && !s.isReadable la.toNat 8) = false := by
      rcases hrd with h | h <;> simp [h]
    simp only [readSource, readBroadcast, hsp, Bool.not_true, Bool.false_eq_true, if_false, this, memRead_element]
    rfl

/-- The stops of reading a source, each with its cause: none where the source is ready. -/
theorem readSource_error {s : State} {f : Form} {src : Source} {aaa : BitVec 3} {e : Stop}
    (h : readSource s f src aaa = .error e) :
    (e = .exception .gp ∧ f = .legacy ∧ ∃ la, src = .mem la ∧ la.toNat % 16 ≠ 0) ∨
    (e = .refuse .addressWrap ∧ ∃ la, (src = .mem la ∧ s.inSpace la (8 * f.kl) = false) ∨
      (src = .bcst la ∧ s.inSpace la 8 = false)) ∨
    (e = .exception .memFault ∧ ∃ la j, (src = .mem la ∧ j < f.kl ∧ s.isReadable (la.toNat + 8 * j) 8 = false) ∨
      (src = .bcst la ∧ s.isReadable la.toNat 8 = false)) := by
  cases src with
  | reg n => cases h
  | mem la =>
    simp only [readSource] at h
    split at h
    · rename_i hal; injection h with h; exact .inl ⟨h.symm, hal.1, la, rfl, hal.2⟩
    · split at h
      · simp only [readLanes] at h
        split at h
        · rename_i hs; injection h with h; exact .inr (.inl ⟨h.symm, la, .inl ⟨rfl, by simpa using hs⟩⟩)
        · split at h
          · rename_i hr
            injection h with h
            simp only [Bool.not_eq_true', List.all_eq_false, List.mem_range, Bool.or_eq_true, not_or] at hr
            obtain ⟨j, hj, -, hr⟩ := hr
            exact .inr (.inr ⟨h.symm, la, j, .inl ⟨rfl, hj, by simpa using hr⟩⟩)
          · cases h
      · simp only [readVector] at h
        split at h
        · rename_i hs; injection h with h; exact .inr (.inl ⟨h.symm, la, .inl ⟨rfl, by simpa using hs⟩⟩)
        · split at h
          · rename_i hr
            injection h with h
            rw [isReadable_elements] at hr
            simp only [Bool.not_eq_true', List.all_eq_false, List.mem_range] at hr
            obtain ⟨j, hj, hr⟩ := hr
            exact .inr (.inr ⟨h.symm, la, j, .inl ⟨rfl, hj, by simpa using hr⟩⟩)
          · cases h
  | bcst la =>
    simp only [readSource, readBroadcast] at h
    split at h
    · rename_i hs; injection h with h; exact .inr (.inl ⟨h.symm, la, .inr ⟨rfl, by simpa using hs⟩⟩)
    · split at h
      · rename_i hr
        injection h with h
        simp only [Bool.and_eq_true, Bool.not_eq_true'] at hr
        exact .inr (.inr ⟨h.symm, la, 0, .inr ⟨rfl, hr.2⟩⟩)
      · cases h

/-- A source that could be read was ready. -/
theorem sourceReady_of_ok {s : State} {f : Form} {src : Source} {aaa : BitVec 3} {xs : List (Option F64)}
    (hm : f.isEvex = true ∨ aaa = 0#3) (h : readSource s f src aaa = .ok xs) : s.sourceReady f aaa src = true := by
  cases src with
  | reg n => rfl
  | mem la =>
    simp only [readSource] at h
    split at h
    · cases h
    · rename_i hal
      have hal' : (f != .legacy || decide (la.toNat % 16 = 0)) = true := by
        by_cases h1 : f = .legacy <;> simp_all
      simp only [State.sourceReady, hal', Bool.true_and]
      split at h
      · simp only [readLanes] at h
        split at h
        · cases h
        · rename_i hsp
          split at h
          · cases h
          · rename_i hr
            rw [Bool.not_eq_true, Bool.not_eq_false'] at hsp hr
            rw [hsp, hr, Bool.and_self]
      · rename_i hne
        have ha : aaa = 0#3 := hm.resolve_left hne
        simp only [readVector] at h
        split at h
        · cases h
        · rename_i hsp
          split at h
          · cases h
          · rename_i hr
            rw [Bool.not_eq_true, Bool.not_eq_false'] at hsp hr
            rw [isReadable_elements] at hr
            subst ha
            simpa [hsp, State.active] using hr
  | bcst la =>
    simp only [readSource, readBroadcast] at h
    split at h
    · cases h
    · rename_i hsp
      split at h
      · cases h
      · rename_i hr
        rw [Bool.not_eq_true, Bool.not_eq_false'] at hsp
        rw [Bool.not_eq_true, Bool.and_eq_false_iff, Bool.not_eq_false'] at hr
        simp only [State.sourceReady, hsp, Bool.true_and, Bool.or_eq_true, Bool.not_eq_true']
        exact hr

/-! ### The packed conversion (R116) -/

/-- The result lanes of a packed conversion. -/
def convertedLanes (c : Ctx) (xs : List (Option F64)) : List (Option F32) :=
  xs.map (Option.map fun x => (cvtF64ToF32 x c).r)

/-- PRE of a packed conversion. -/
def packedPre (c : Ctx) (xs : List (Option F64)) : FpFlags :=
  unionAll (xs.map fun x => lanePre (x.map (cvtF64ToF32 · c)))

/-- POST of a packed conversion. -/
def packedPost (c : Ctx) (xs : List (Option F64)) : FpFlags :=
  unionAll (xs.map fun x => lanePost (x.map (cvtF64ToF32 · c)))

theorem packedConvert_eq (c : Ctx) (m : BitVec 32) (xs : List (Option F64)) :
    packedConvert c m xs =
      if c.sae then .results (convertedLanes c xs) m
      else if c.unmasked (packedPre c xs) then .raiseXm (raiseFlags m (packedPre c xs))
      else if c.unmasked (packedPost c xs) then .raiseXm (raiseFlags m ((packedPre c xs).union (packedPost c xs)))
      else .results (convertedLanes c xs) (raiseFlags m ((packedPre c xs).union (packedPost c xs))) := by
  have hr : (Option.map Converted.r ∘ Option.map fun x => cvtF64ToF32 x c) = Option.map fun x => (cvtF64ToF32 x c).r := by
    funext x; cases x <;> rfl
  simp only [packedConvert, packedPre, packedPost, convertedLanes, List.map_map, hr]
  rfl

/-- A packed conversion that delivers results. -/
theorem packedConvert_results {c : Ctx} {m x : BitVec 32} {xs : List (Option F64)} {rs : List (Option F32)}
    (h : packedConvert c m xs = .results rs x) :
    rs = convertedLanes c xs ∧
    ((c.sae = true ∧ x = m) ∨
     (c.sae = false ∧ c.unmasked (packedPre c xs) = false ∧ c.unmasked (packedPost c xs) = false ∧
      x = raiseFlags m ((packedPre c xs).union (packedPost c xs)))) := by
  rw [packedConvert_eq] at h
  split at h
  · injection h with h1 h2; exact ⟨h1.symm, .inl ⟨‹_›, h2.symm⟩⟩
  · split at h
    · cases h
    · split at h
      · cases h
      · injection h with h1 h2; exact ⟨h1.symm, .inr (by simp_all)⟩

/-- A packed conversion that raises: the flags it has ORed into MXCSR. -/
theorem packedConvert_raise {c : Ctx} {m x : BitVec 32} {xs : List (Option F64)}
    (h : packedConvert c m xs = .raiseXm x) :
    c.sae = false ∧
    ((c.unmasked (packedPre c xs) = true ∧ x = raiseFlags m (packedPre c xs)) ∨
     (c.unmasked (packedPre c xs) = false ∧ c.unmasked (packedPost c xs) = true ∧
      x = raiseFlags m ((packedPre c xs).union (packedPost c xs)))) := by
  rw [packedConvert_eq] at h
  split at h
  · cases h
  · split at h
    · injection h with h; exact ⟨by simp_all, .inl ⟨‹_›, h.symm⟩⟩
    · split at h
      · injection h with h; exact ⟨by simp_all, .inr ⟨by simp_all, ‹_›, h.symm⟩⟩
      · cases h

/-! ### The common procedure -/

section
variable {f : Form} {dst : Fin 32} {src : Source} {aaa : BitVec 3} {z : Bool} {er : Option Rounding} {len : Nat}
variable {s t : State}

/-- A completed execution: what was read, what was converted, and the next state. -/
theorem convert_next (h : convert f dst src aaa z er len s = .next t) :
    s.enabled f = true ∧ ∃ xs rs x, readSource s f src aaa = .ok xs ∧
      packedConvert (s.ctx er) s.mxcsr xs = .results rs x ∧
      t = ((s.setZmm dst (writeBack f (s.readZmm dst) z rs)).setMxcsr x).setRip (s.nextIp len) := by
  simp only [convert] at h
  split at h
  · rename_i e _; cases e <;> cases h
  · rename_i hg
    split at h
    · rename_i e _; cases e <;> cases h
    · split at h
      · cases h
      · injection h with h; exact ⟨enabled_of_gate hg, _, _, _, ‹_›, ‹_›, h.symm⟩

/-- A faulting execution: an availability check, the source, or an unmasked exception of the conversion. -/
theorem convert_fault {r : Fault} (h : convert f dst src aaa z er len s = .fault r) :
    (∃ x, gate f s = .error (.exception x) ∧ r = raise x s) ∨
    (s.enabled f = true ∧ ∃ x, readSource s f src aaa = .error (.exception x) ∧ r = raise x s) ∨
    (s.enabled f = true ∧ ∃ xs x, readSource s f src aaa = .ok xs ∧
      packedConvert (s.ctx er) s.mxcsr xs = .raiseXm x ∧ r = raise s.simdException (s.setMxcsr x)) := by
  simp only [convert] at h
  split at h
  · rename_i e hg
    cases e with
    | exception x => injection h with h; exact .inl ⟨x, hg, h.symm⟩
    | refuse r => cases h
  · rename_i hg
    split at h
    · rename_i e hs
      cases e with
      | exception x => injection h with h; exact .inr (.inl ⟨enabled_of_gate hg, x, hs, h.symm⟩)
      | refuse r => cases h
    · split at h
      · injection h with h; exact .inr (.inr ⟨enabled_of_gate hg, _, _, ‹_›, ‹_›, h.symm⟩)
      · cases h

/-- The one refusal of a meaning: an operand that passes the top of the address space. -/
theorem convert_refused {r : Refusal} (h : convert f dst src aaa z er len s = .refused r) :
    s.enabled f = true ∧ r = .addressWrap ∧ readSource s f src aaa = .error (.refuse .addressWrap) := by
  simp only [convert] at h
  split at h
  · rename_i e hg
    cases e with
    | exception x => cases h
    | refuse r =>
      rcases gate_error hg with ⟨h, -⟩ | ⟨h, -⟩ <;> cases h
  · rename_i hg
    split at h
    · rename_i e hs
      cases e with
      | exception x => cases h
      | refuse r' =>
        injection h with h
        subst h
        rcases readSource_error hs with ⟨he, -⟩ | ⟨he, -⟩ | ⟨he, -⟩
        · cases he
        · injection he with he; subst he; exact ⟨enabled_of_gate hg, rfl, hs⟩
        · cases he
    · split at h <;> cases h

/-- With the form enabled and the source ready, only the conversion decides. -/
theorem convert_of_ready (hm : f.isEvex = true ∨ aaa = 0#3) (he : s.enabled f = true)
    (hr : s.sourceReady f aaa src = true) :
    convert f dst src aaa z er len s =
      match packedConvert (s.ctx er) s.mxcsr (activeLanes f.kl (s.active aaa) (s.sourceElement src)) with
      | .raiseXm x => .fault (raise s.simdException (s.setMxcsr x))
      | .results rs x =>
        .next (((s.setZmm dst (writeBack f (s.readZmm dst) z rs)).setMxcsr x).setRip (s.nextIp len)) := by
  simp only [convert, gate_of_enabled he, readSource_of_ready hm hr]
  all_goals rfl

end

/-! ### Every meaning is the common procedure -/

/-- Each of the thirteen meanings is `convert` at the form and the operands its instruction names. -/
theorem exec_eq_convert (i : Instr) (s : State) :
    exec i s = convert i.form i.dst (i.source s) i.aaa i.zeroing i.rounding i.len s := by
  cases i <;> rfl

/-- Only the EVEX forms have a write mask. -/
theorem isEvex_or_unmasked (i : Instr) : i.form.isEvex = true ∨ i.aaa = 0#3 := by
  cases i <;> first | exact .inl rfl | exact .inr rfl

end Sys2Proof.Machine
end

