-- ==== Sys2Proof/Laws/Lanes.lean ====
section
/-!
SUPPORT. The elements of a written destination (41 R130 step 6, 42 R140 and R141 step 7, 43 R156 step 8), the flags a
packed conversion collects (40_conversion_numerics.md R116), and the next state of an instruction that is ready.
-/

namespace Sys2Proof.Machine

/-! ### Vectors of 32-bit elements -/

theorem ofLanes_getLsbD : ∀ (xs : List F32) (k : Nat), k < 512 →
    (ofLanes xs).getLsbD k = (xs[k / 32]?.getD 0#32).getLsbD (k % 32)
  | [], k, _ => by simp [ofLanes]
  | x :: xs, k, hk => by
    simp only [ofLanes, BitVec.getLsbD_or, BitVec.getLsbD_setWidth, BitVec.getLsbD_shiftLeft, hk, decide_true,
      Bool.true_and]
    by_cases h : k < 32
    · have h0 : k / 32 = 0 := by omega
      have h1 : k % 32 = k := by omega
      simp [h, h0, h1]
    · obtain ⟨q, hq⟩ : ∃ q, k / 32 = q + 1 := ⟨k / 32 - 1, by omega⟩
      have h1 : x.getLsbD k = false := BitVec.getLsbD_of_ge _ _ (by omega)
      rw [ofLanes_getLsbD xs (k - 32) (by omega), h1, hq, List.getElem?_cons_succ,
        show (k - 32) / 32 = q by omega, show (k - 32) % 32 = k % 32 by omega]
      simp [h]

/-- Element `j` of a vector of elements. -/
theorem lane32_ofLanes (xs : List F32) (j : Nat) (hj : j < 16) : lane32 (ofLanes xs) j = xs[j]?.getD 0#32 := by
  refine BitVec.eq_of_getLsbD_eq fun k hk => ?_
  rw [lane32, BitVec.getLsbD_extractLsb', ofLanes_getLsbD _ _ (by omega), show (32 * j + k) / 32 = j by omega,
    show (32 * j + k) % 32 = k by omega]
  simp [hk]

/-- Every bit above the elements is zero. -/
theorem ofLanes_getLsbD_above (xs : List F32) (k : Nat) (hk : 32 * xs.length ≤ k) : (ofLanes xs).getLsbD k = false := by
  by_cases h : k < 512
  · rw [ofLanes_getLsbD _ _ h, List.getElem?_eq_none (by omega)]; simp
  · exact BitVec.getLsbD_of_ge _ _ (by omega)

/-! ### The elements written -/

@[simp] theorem mergeLanes_length (old : Vec) (z : Bool) (rs : List (Option F32)) :
    (mergeLanes old z rs).length = rs.length := by simp [mergeLanes]

/-- Element `j` of the destination: the conversion of an active lane; else 0 with zeroing, the old element with merging. -/
theorem mergeLanes_converted (old : Vec) (z : Bool) (c : Ctx) (kl : Nat) (p : Nat → Bool) (x : Nat → F64) (j : Nat)
    (hj : j < kl) :
    (mergeLanes old z (convertedLanes c (activeLanes kl p x)))[j]? =
      some (if p j then (cvtF64ToF32 (x j) c).r else if z then 0#32 else lane32 old j) := by
  simp only [mergeLanes, convertedLanes, activeLanes, List.getElem?_mapIdx, List.getElem?_map, List.getElem?_range hj,
    Option.map_some]
  by_cases h : p j = true <;> simp [h]

@[simp] theorem convertedLanes_length (c : Ctx) (xs : List (Option F64)) :
    (convertedLanes c xs).length = xs.length := by simp [convertedLanes]

/-! ### The flags of one conversion -/

theorem cvtFinite_pre (d : F64) (c : Ctx) (pre : FpFlags) : (cvtFinite d c pre).pre = pre := by
  simp only [cvtFinite, cvtOverflow, cvtTiny]
  split_ifs <;> rfl

theorem cvtFinite_post (d : F64) (c : Ctx) (pre : FpFlags) :
    (cvtFinite d c pre).post.ie = false ∧ (cvtFinite d c pre).post.de = false := by
  simp only [cvtFinite, cvtOverflow, cvtTiny]
  split_ifs <;> exact ⟨rfl, rfl⟩

/-- `pre ⊆ {IE, DE}` (R115). -/
theorem cvt_pre (d : F64) (c : Ctx) :
    (cvtF64ToF32 d c).pre.oe = false ∧ (cvtF64ToF32 d c).pre.ue = false ∧ (cvtF64ToF32 d c).pre.pe = false := by
  simp only [cvtF64ToF32]
  split_ifs <;> simp [cvtNaN, noFlags, cvtFinite_pre]

/-- `post ⊆ {OE, UE, PE}` (R115). -/
theorem cvt_post (d : F64) (c : Ctx) :
    (cvtF64ToF32 d c).post.ie = false ∧ (cvtF64ToF32 d c).post.de = false := by
  simp only [cvtF64ToF32]
  split_ifs <;> simp [cvtNaN, noFlags, cvtFinite_post]

/-- A lane that signals Invalid has no post-computation flag (R106, R116). -/
theorem cvt_post_of_invalid (d : F64) (c : Ctx) (h : (cvtF64ToF32 d c).pre.ie = true) :
    (cvtF64ToF32 d c).post = noFlags := by
  simp only [cvtF64ToF32] at h ⊢
  split_ifs at h ⊢ <;> simp_all [cvtNaN, noFlags, cvtFinite_pre]

theorem lanePost_some (d : F64) (c : Ctx) : lanePost (some (cvtF64ToF32 d c)) = (cvtF64ToF32 d c).post := by
  simp only [lanePost]
  split
  · exact (cvt_post_of_invalid d c ‹_›).symm
  · rfl

/-! ### The flags of all active lanes (R116) -/

theorem unionAll_ie (fs : List FpFlags) : (unionAll fs).ie = fs.any FpFlags.ie := by
  induction fs with
  | nil => rfl
  | cons f fs ih => simp [unionAll, FpFlags.union, ih]

theorem unionAll_de (fs : List FpFlags) : (unionAll fs).de = fs.any FpFlags.de := by
  induction fs with
  | nil => rfl
  | cons f fs ih => simp [unionAll, FpFlags.union, ih]

theorem unionAll_oe (fs : List FpFlags) : (unionAll fs).oe = fs.any FpFlags.oe := by
  induction fs with
  | nil => rfl
  | cons f fs ih => simp [unionAll, FpFlags.union, ih]

theorem unionAll_ue (fs : List FpFlags) : (unionAll fs).ue = fs.any FpFlags.ue := by
  induction fs with
  | nil => rfl
  | cons f fs ih => simp [unionAll, FpFlags.union, ih]

theorem unionAll_pe (fs : List FpFlags) : (unionAll fs).pe = fs.any FpFlags.pe := by
  induction fs with
  | nil => rfl
  | cons f fs ih => simp [unionAll, FpFlags.union, ih]

theorem FpFlags.ext' {f g : FpFlags} (h1 : f.ie = g.ie) (h2 : f.de = g.de) (h3 : f.oe = g.oe) (h4 : f.ue = g.ue)
    (h5 : f.pe = g.pe) : f = g := by
  cases f; cases g; simp_all

theorem any_congr {kl : Nat} {p q : Nat → Bool} (h : ∀ j, p j = q j) : (List.range kl).any p = (List.range kl).any q := by
  rw [show p = q from funext h]

/-- PRE of the active lanes, flag by flag. -/
theorem packedPre_activeLanes (c : Ctx) (kl : Nat) (p : Nat → Bool) (x : Nat → F64) :
    packedPre c (activeLanes kl p x) =
      { noFlags with
        ie := (List.range kl).any fun j => p j && (cvtF64ToF32 (x j) c).pre.ie
        de := (List.range kl).any fun j => p j && (cvtF64ToF32 (x j) c).pre.de } := by
  have hp := fun j => cvt_pre (x j) c
  refine FpFlags.ext' ?_ ?_ ?_ ?_ ?_ <;>
    simp only [packedPre, activeLanes, List.map_map, unionAll_ie, unionAll_de, unionAll_oe, unionAll_ue, unionAll_pe,
      List.any_map]
  · exact any_congr fun j => by by_cases h : p j = true <;> simp [h, lanePre, noFlags]
  · exact any_congr fun j => by by_cases h : p j = true <;> simp [h, lanePre, noFlags]
  all_goals
    simp only [noFlags, List.any_eq_false, List.mem_range]
    intro j _
    by_cases h : p j = true <;> simp [h, lanePre, noFlags, hp j]

/-- POST of the active lanes, flag by flag. -/
theorem packedPost_activeLanes (c : Ctx) (kl : Nat) (p : Nat → Bool) (x : Nat → F64) :
    packedPost c (activeLanes kl p x) =
      { noFlags with
        oe := (List.range kl).any fun j => p j && (cvtF64ToF32 (x j) c).post.oe
        ue := (List.range kl).any fun j => p j && (cvtF64ToF32 (x j) c).post.ue
        pe := (List.range kl).any fun j => p j && (cvtF64ToF32 (x j) c).post.pe } := by
  have hp := fun j => cvt_post (x j) c
  have hl := fun j => lanePost_some (x j) c
  refine FpFlags.ext' ?_ ?_ ?_ ?_ ?_ <;>
    simp only [packedPost, activeLanes, List.map_map, unionAll_ie, unionAll_de, unionAll_oe, unionAll_ue, unionAll_pe,
      List.any_map]
  rotate_left 2
  · refine any_congr fun j => ?_
    by_cases h : p j = true
    · simp [h, hl j]
    · simp [h]; rfl
  · refine any_congr fun j => ?_
    by_cases h : p j = true
    · simp [h, hl j]
    · simp [h]; rfl
  · refine any_congr fun j => ?_
    by_cases h : p j = true
    · simp [h, hl j]
    · simp [h]; rfl
  all_goals
    simp only [noFlags, List.any_eq_false, List.mem_range]
    intro j _
    by_cases h : p j = true
    · simp [h, hl j, hp j]
    · simp [h, lanePost, noFlags]

/-! ### The next state of an instruction that is ready -/

/-- The elements an instruction reads, `none` for a lane that is not active. -/
def sourceLanes (i : Instr) (s : State) : List (Option F64) :=
  activeLanes i.form.kl (s.active i.aaa) (s.sourceElement (i.source s))

theorem preFlags_eq (i : Instr) (s : State) : i.preFlags s = packedPre (s.ctx i.rounding) (sourceLanes i s) :=
  (packedPre_activeLanes _ _ _ _).symm

theorem postFlags_eq (i : Instr) (s : State) : i.postFlags s = packedPost (s.ctx i.rounding) (sourceLanes i s) :=
  (packedPost_activeLanes _ _ _ _).symm

theorem unmasked_union (c : Ctx) (f g : FpFlags) : c.unmasked (f.union g) = (c.unmasked f || c.unmasked g) := by
  cases f; cases g
  simp only [Ctx.unmasked, FpFlags.union, Bool.and_or_distrib_right]
  ac_rfl

/-- Only embedded rounding suppresses all exceptions (R104). -/
theorem ctx_sae (s : State) (er : Option Rounding) : (s.ctx er).sae = er.isSome := by
  cases er <;> rfl

/-- The next state of an instruction that is ready: the destination, MXCSR and the instruction pointer change. -/
theorem exec_of_ready {i : Instr} {s : State} (h : i.ready s = true) :
    exec i s = .next
      (((s.setZmm i.dst (writeBack i.form (s.readZmm i.dst) i.zeroing
          (convertedLanes (s.ctx i.rounding) (sourceLanes i s)))).setMxcsr (i.mxcsrAfter s)).setRip
        (s.nextIp i.len)) := by
  simp only [Instr.ready, Bool.and_eq_true, Bool.not_eq_true'] at h
  obtain ⟨⟨he, hs⟩, hu⟩ := h
  rw [exec_eq_convert, convert_of_ready (isEvex_or_unmasked i) he hs, packedConvert_eq, ctx_sae]
  simp only [Instr.unmaskedDetected, unmasked_union, preFlags_eq, postFlags_eq] at hu
  simp only [Instr.mxcsrAfter, preFlags_eq, postFlags_eq, raiseFlags, sourceLanes] at hu ⊢
  cases hr : i.rounding with
  | some rc => simp
  | none => simp_all

/-- An instruction that completes was ready. -/
theorem ready_of_exec_next {i : Instr} {s t : State} (h : exec i s = .next t) : i.ready s = true := by
  rw [exec_eq_convert] at h
  obtain ⟨he, xs, rs, x, hs, hp, -⟩ := convert_next h
  have hsr : s.sourceReady i.form i.aaa (i.source s) = true := sourceReady_of_ok (isEvex_or_unmasked i) hs
  have hxs := readSource_of_ready (isEvex_or_unmasked i) hsr
  rw [hs] at hxs
  injection hxs with hxs
  have hu : i.unmaskedDetected s = false := by
    simp only [Instr.unmaskedDetected, unmasked_union, preFlags_eq, postFlags_eq]
    rcases (packedConvert_results hp).2 with ⟨hsae, -⟩ | ⟨-, h1, h2, -⟩
    · rw [ctx_sae] at hsae
      cases hr : i.rounding <;> simp_all
    · rw [hxs] at h1 h2
      simp only [sourceLanes, h1, h2, Bool.or_false, Bool.and_false]
  simp [Instr.ready, he, hsr, hu]

end Sys2Proof.Machine
end

