-- ==== Sys2Proof/Laws/PerInstr.lean ====
section
/-! SUPPORT. Statements made per instruction: the encoder writes as many bytes as `Instr.size` counts (30_encoding.md R60). -/

namespace Sys2Proof

@[simp] theorem bytes32_length (v : BitVec 32) : (bytes32 v).length = 4 := rfl

@[simp] theorem Disp.bytes_length (d : Disp) : d.bytes.length = d.size := by
  cases d <;> simp [Disp.bytes, Disp.size]

theorem MemOperand.encode_length (reg : BitVec 3) (m : MemOperand) :
    ((RegMem.mem m).encode reg).length = m.size + 1 := by
  cases m <;> simp [RegMem.encode, MemOperand.size]; omega

theorem RegMem.encode_length (reg : BitVec 3) (rm : RegMem) : (rm.encode reg).length = rm.size + 1 := by
  cases rm with
  | reg r => rfl
  | mem m => exact MemOperand.encode_length reg m

theorem encodeC5_length (p : List Prefix) (r l : Bool) (reg : BitVec 3) (rm : RegMem) :
    (encodeC5 p r l reg rm).length = p.length + 4 + rm.size := by
  simp [encodeC5, RegMem.encode_length]; omega

theorem encodeC4_length (p : List Prefix) (v : Vex3) (l : Bool) (reg : BitVec 3) (rm : RegMem) :
    (encodeC4 p v l reg rm).length = p.length + 5 + rm.size := by
  simp [encodeC4, RegMem.encode_length]; omega

theorem encode62_length (p : List Prefix) (e : Evex) (ll : BitVec 2) (b : Bool) (reg : BitVec 3) (rm : RegMem) :
    (encode62 p e ll b reg rm).length = p.length + 6 + rm.size := by
  simp [encode62, RegMem.encode_length]; omega

end Sys2Proof

namespace Sys2Proof.Laws.EncodedLength

/-- The encoding has the length R60 counts. -/
def Statement (i : Instr) : Prop := i.len = i.size

theorem cvtpd2ps (p : List Prefix) (reg : BitVec 3) (rm : RegMem) : Statement (.cvtpd2ps p reg rm) := by
  simp [Statement, Instr.len, encode, Instr.size, RegMem.encode_length]; omega

theorem cvtpd2psRex (p : List Prefix) (rex : Rex) (reg : BitVec 3) (rm : RegMem) :
    Statement (.cvtpd2psRex p rex reg rm) := by
  simp [Statement, Instr.len, encode, Instr.size, RegMem.encode_length]; omega

theorem vex128C5 (p : List Prefix) (r : Bool) (reg : BitVec 3) (rm : RegMem) : Statement (.vex128C5 p r reg rm) :=
  encodeC5_length p r false reg rm

theorem vex128C4 (p : List Prefix) (v : Vex3) (reg : BitVec 3) (rm : RegMem) : Statement (.vex128C4 p v reg rm) :=
  encodeC4_length p v false reg rm

theorem vex256C5 (p : List Prefix) (r : Bool) (reg : BitVec 3) (rm : RegMem) : Statement (.vex256C5 p r reg rm) :=
  encodeC5_length p r true reg rm

theorem vex256C4 (p : List Prefix) (v : Vex3) (reg : BitVec 3) (rm : RegMem) : Statement (.vex256C4 p v reg rm) :=
  encodeC4_length p v true reg rm

theorem evex512Er (p : List Prefix) (e : Evex) (rc : Rounding) (reg rm : BitVec 3) :
    Statement (.evex512Er p e rc reg rm) :=
  encode62_length p e rc.toBits true reg (.reg rm)

theorem evex128 (p : List Prefix) (e : Evex) (reg : BitVec 3) (rm : RegMem) : Statement (.evex128 p e reg rm) :=
  encode62_length p e 0#2 false reg rm

theorem evex128Bcst (p : List Prefix) (e : Evex) (reg : BitVec 3) (m : MemOperand) :
    Statement (.evex128Bcst p e reg m) :=
  encode62_length p e 0#2 true reg (.mem m)

theorem evex256 (p : List Prefix) (e : Evex) (reg : BitVec 3) (rm : RegMem) : Statement (.evex256 p e reg rm) :=
  encode62_length p e 1#2 false reg rm

theorem evex256Bcst (p : List Prefix) (e : Evex) (reg : BitVec 3) (m : MemOperand) :
    Statement (.evex256Bcst p e reg m) :=
  encode62_length p e 1#2 true reg (.mem m)

theorem evex512 (p : List Prefix) (e : Evex) (reg : BitVec 3) (rm : RegMem) : Statement (.evex512 p e reg rm) :=
  encode62_length p e 2#2 false reg rm

theorem evex512Bcst (p : List Prefix) (e : Evex) (reg : BitVec 3) (m : MemOperand) :
    Statement (.evex512Bcst p e reg m) :=
  encode62_length p e 2#2 true reg (.mem m)

end Sys2Proof.Laws.EncodedLength
end

