-- ==== Sys2Proof/Tests/Slice0.lean ====
section
/-!
SUPPORT. The model's own tests: ill-formed terms refused, words of spec/95_test_vectors.md decoded, single steps with results
worked out in the spec, and for every statement with hypotheses a state and operands that meet them.
-/

namespace Sys2Proof.Tests

open Sys2Proof Sys2Proof.Machine

set_option Elab.async false

/-! ### States and outcomes -/

/-- 1.0, −2.5, 0.1, −0.1, pi, 1e300, a quiet NaN, 0.0. -/
def doubles : List F64 :=
  [0x3FF0000000000000, 0xC004000000000000, 0x3FB999999999999A, 0xBFB999999999999A, 0x400921FB54442D18,
   0x7E37E43C8800759C, 0x7FF8000000000000, 0x0000000000000000]

/-- The eight doubles as one vector, the first in the low bits. -/
def vector : Vec := doubles.foldr (fun d v => d.setWidth 512 ||| (v <<< 64)) 0#512

/-- The eight doubles as bytes in memory order. -/
def doubleBytes : List Byte := doubles.flatMap fun d => (List.range 8).map fun b => d.extractLsb' (8 * b) 8

/-- The launch state with the doubles in ZMM2 and at RAX, all ones in ZMM1, and K1 = 5. -/
def sample : State :=
  { State.reset with
    zmm := (State.reset.zmm.set 1 (BitVec.allOnes 512)).set 2 vector
    gpr := State.reset.gpr.set 0 0x10000000#64
    k := State.reset.k.set 1 5#64
    mem := Memory.writeBytes [] 0x10000000 doubleBytes }

/-- `sample` in the mode M32. -/
def sample32 : State := { sample with cfg := { sample.cfg with mode := .m32 } }

/-- Whether an outcome is a next state. -/
def completes : Host.Outcome State Fault Refusal → Bool
  | .next _ => true
  | .fault _ | .refused _ => false

/-- Whether an outcome is a fault of one exception. -/
def faultsWith (x : Exc) : Host.Outcome State Fault Refusal → Bool
  | .fault f => f.exc == x
  | .next _ | .refused _ => false

/-- Whether an outcome is one refusal. -/
def refusesWith (r : Refusal) : Host.Outcome State Fault Refusal → Bool
  | .refused q => q == r
  | .next _ | .fault _ => false

theorem exists_next {o : Host.Outcome State Fault Refusal} (h : completes o = true) : ∃ t, o = .next t := by
  cases o with
  | next t => exact ⟨t, rfl⟩
  | fault f => cases h
  | refused r => cases h

/-- The register and MXCSR of a next state: elements 0 to 7 of the register, MXCSR. -/
def result (n : Fin 32) : Host.Outcome State Fault Refusal → Option (List F32 × BitVec 32)
  | .next t => some ((List.range 8).map (lane32 (t.readZmm n)), t.mxcsr)
  | .fault _ | .refused _ => none

/-- The checkable form of `State.fetches`. -/
def fetchesB (s : State) (bytes : List Byte) : Bool :=
  !s.atEnd && s.inText && s.fetchBytes.take bytes.length == bytes

theorem fetches_of {s : State} {bytes : List Byte} (h : fetchesB s bytes = true) : s.fetches bytes := by
  simp only [fetchesB, Bool.and_eq_true, Bool.not_eq_true', beq_iff_eq] at h
  refine ⟨h.1.1, h.1.2, s.fetchBytes.drop bytes.length, ?_⟩
  conv_lhs => rw [← List.take_append_drop bytes.length s.fetchBytes]
  rw [h.2]

/-! ### WellFormed refuses: one ill-formed term for each check -/

theorem test_wf_base_rm_is_sib : (Instr.cvtpd2ps [.opSize] 1 (.mem (.base 4 .none))).wf .m64 = false := by decide

theorem test_wf_base_rm_is_disp32 : (Instr.cvtpd2ps [.opSize] 1 (.mem (.base 5 .none))).wf .m64 = false := by decide

theorem test_wf_sib_base_is_disp32 : (Instr.cvtpd2ps [.opSize] 1 (.mem (.sib 0 0 5 .none))).wf .m64 = false := by decide

theorem test_wf_dropped_rex_last :
    (Instr.cvtpd2ps [.opSize, .droppedRex ⟨true, true, true, true⟩] 1 (.reg 2)).wf .m64 = false := by decide

theorem test_wf_dropped_rex_before_rex :
    (Instr.vex128C5 [.droppedRex ⟨true, true, true, true⟩, .droppedRex ⟨true, true, true, true⟩, .addrSize]
      false 1 (.reg 2)).wf .m64 = false := by decide

theorem test_wf_dropped_rex_in_m32 :
    (Instr.cvtpd2ps [.droppedRex ⟨true, true, true, true⟩, .opSize] 1 (.reg 2)).wf .m32 = false := by decide

theorem test_wf_legacy_prefixes :
    (Instr.cvtpd2ps [] 1 (.reg 2)).wf .m64 = false ∧ (Instr.cvtpd2ps [.opSize, .lock] 1 (.reg 2)).wf .m64 = false ∧
    (Instr.cvtpd2ps [.opSize, .repne] 1 (.reg 2)).wf .m64 = false ∧
    (Instr.cvtpd2ps [.opSize, .rep] 1 (.reg 2)).wf .m64 = false := by decide

theorem test_wf_vex_prefixes :
    (Instr.vex128C5 [.opSize] false 1 (.reg 2)).wf .m64 = false ∧
    (Instr.vex128C5 [.lock] false 1 (.reg 2)).wf .m64 = false ∧
    (Instr.vex128C5 [.repne] false 1 (.reg 2)).wf .m64 = false ∧
    (Instr.vex128C5 [.rep] false 1 (.reg 2)).wf .m64 = false := by decide

theorem test_wf_address16 :
    (Instr.cvtpd2ps [.addrSize, .opSize] 1 (.mem (.base 0 .none))).wf .m32 = false ∧
    (Instr.cvtpd2ps [.addrSize, .opSize] 1 (.reg 0)).wf .m32 = true := by decide

theorem test_wf_rex_in_m32 :
    (Instr.cvtpd2psRex [.opSize] ⟨false, false, false, false⟩ 1 (.reg 2)).wf .m32 = false := by decide

theorem test_wf_vex_extension_in_m32 :
    (Instr.vex128C5 [] true 1 (.reg 2)).wf .m32 = false ∧
    (Instr.vex128C4 [] ⟨true, false, false, false⟩ 1 (.reg 2)).wf .m32 = false ∧
    (Instr.vex128C4 [] ⟨false, true, false, false⟩ 1 (.reg 2)).wf .m32 = false ∧
    (Instr.vex128C4 [] ⟨false, false, true, false⟩ 1 (.reg 2)).wf .m32 = false := by decide

theorem test_wf_evex_extension_in_m32 :
    (Instr.evex128 [] ⟨true, false, false, false, false, 0⟩ 1 (.reg 2)).wf .m32 = false ∧
    (Instr.evex128 [] ⟨false, true, false, false, false, 0⟩ 1 (.reg 2)).wf .m32 = false ∧
    (Instr.evex128 [] ⟨false, false, true, false, false, 0⟩ 1 (.reg 2)).wf .m32 = false ∧
    (Instr.evex128 [] ⟨false, false, false, true, false, 0⟩ 1 (.reg 2)).wf .m32 = false := by decide

theorem test_wf_zeroing_without_mask :
    (Instr.evex128 [] ⟨false, false, false, false, true, 0⟩ 1 (.reg 2)).wf .m64 = false := by decide

theorem test_wf_sixteen_bytes : (Instr.cvtpd2ps (List.replicate 13 .opSize) 1 (.reg 2)).wf .m64 = false := by decide

/-! ### Decoding: one word of spec/95_test_vectors.md (EN) for each constructor, and encoding back -/

/-- EN1. -/
theorem test_decode_cvtpd2ps : decode .m64 [0x66, 0x0F, 0x5A, 0xCA] = .instr (.cvtpd2ps [.opSize] 1 (.reg 2)) [] := by
  decide

/-- EN18. -/
theorem test_decode_cvtpd2psRex :
    decode .m64 [0x66, 0x47, 0x0F, 0x5A, 0x44, 0x51, 0xFC] =
      .instr (.cvtpd2psRex [.opSize] ⟨false, true, true, true⟩ 0 (.mem (.sib 1 2 1 (.d8 0xFC)))) [] := by decide

/-- EN21. -/
theorem test_decode_vex128C5 : decode .m64 [0xC5, 0x79, 0x5A, 0xCA] = .instr (.vex128C5 [] true 1 (.reg 2)) [] := by
  decide

/-- EN22. -/
theorem test_decode_vex128C4 :
    decode .m64 [0xC4, 0x41, 0x79, 0x5A, 0xCA] = .instr (.vex128C4 [] ⟨true, false, true, false⟩ 1 (.reg 2)) [] := by
  decide

/-- EN20. -/
theorem test_decode_vex256C5 : decode .m64 [0xC5, 0xFD, 0x5A, 0xDA] = .instr (.vex256C5 [] false 3 (.reg 2)) [] := by
  decide

/-- EN30. -/
theorem test_decode_vex256C4 :
    decode .m64 [0xC4, 0x01, 0x7D, 0x5A, 0xBC, 0xF7, 0x78, 0x56, 0x34, 0x12] =
      .instr (.vex256C4 [] ⟨true, true, true, false⟩ 7 (.mem (.sib 3 6 7 (.d32 0x12345678)))) [] := by decide

/-- EN59. -/
theorem test_decode_evex512Er :
    decode .m64 [0x62, 0x81, 0xFD, 0x5B, 0x5A, 0xE5] =
      .instr (.evex512Er [] ⟨false, true, true, true, false, 3⟩ .up 4 5) [] := by decide

/-- EN34. -/
theorem test_decode_evex128 :
    decode .m64 [0x62, 0xA1, 0xFD, 0x08, 0x5A, 0xCA] =
      .instr (.evex128 [] ⟨false, true, false, true, false, 0⟩ 1 (.reg 2)) [] := by decide

/-- EN49. -/
theorem test_decode_evex128Bcst :
    decode .m64 [0x62, 0xF1, 0xFD, 0x18, 0x5A, 0x50, 0x01] =
      .instr (.evex128Bcst [] ⟨false, false, false, false, false, 0⟩ 2 (.base 0 (.d8 1))) [] := by decide

/-- EN37. -/
theorem test_decode_evex256 :
    decode .m64 [0x62, 0xF1, 0xFD, 0x29, 0x5A, 0xCA] =
      .instr (.evex256 [] ⟨false, false, false, false, false, 1⟩ 1 (.reg 2)) [] := by decide

/-- EN50. -/
theorem test_decode_evex256Bcst :
    decode .m64 [0x62, 0xF1, 0xFD, 0x38, 0x5A, 0x50, 0x02] =
      .instr (.evex256Bcst [] ⟨false, false, false, false, false, 0⟩ 2 (.base 0 (.d8 2))) [] := by decide

/-- EN40. -/
theorem test_decode_evex512 :
    decode .m64 [0x62, 0x01, 0xFD, 0xCF, 0x5A, 0xF7] =
      .instr (.evex512 [] ⟨true, true, true, true, true, 7⟩ 6 (.reg 7)) [] := by decide

/-- EN53. -/
theorem test_decode_evex512Bcst :
    decode .m64 [0x62, 0xF1, 0xFD, 0x59, 0x5A, 0x90, 0x00, 0x20, 0x00, 0x00] =
      .instr (.evex512Bcst [] ⟨false, false, false, false, false, 1⟩ 2 (.base 0 (.d32 0x2000))) [] := by decide

/-- EN45, written by the encoder. -/
theorem test_encode_evex512 :
    encode (.evex512 [] ⟨false, false, false, false, false, 1⟩ 1 (.mem (.base 0 (.d32 0xFE0)))) =
      [0x62, 0xF1, 0xFD, 0x49, 0x5A, 0x88, 0xE0, 0x0F, 0x00, 0x00] := by decide

/-- CF11: sixteen bytes are too long, fifteen are an instruction. -/
theorem test_decode_length_limit :
    decode .m64 (List.replicate 12 0x2E ++ [0x66, 0x0F, 0x5A, 0xCA]) = .tooLong ∧
    decode .m64 (List.replicate 11 0x2E ++ [0x66, 0x0F, 0x5A, 0xCA]) =
      .instr (.cvtpd2ps (List.replicate 11 (.seg .cs) ++ [.opSize]) 1 (.reg 2)) [] := by decide

/-- The two numberings of the table's words: EN1 with its first byte lowest, and as "fixed" of the table numbers it. -/
theorem test_decodeTableWord :
    decodeTableWord 32 0xCA5A0F66 = some (.cvtpd2ps [.opSize] 1 (.reg 2)) ∧
    decodeTableWord 32 0x660F5ACA = some (.cvtpd2ps [.opSize] 1 (.reg 2)) := by decide

/-! ### Single steps. Results by R106, R110 and R113: 1.0, −2.5, 0.1 and pi are examples of R113 and R133, 1e300 overflows -/

/-- No mask. -/
def plain : Evex := ⟨false, false, false, false, false, 0⟩

/-- Mask K1, merging. -/
def merging : Evex := ⟨false, false, false, false, false, 1⟩

/-- Mask K1, zeroing. -/
def zeroing : Evex := ⟨false, false, false, false, true, 1⟩

/-- Bits 127:64 are zeroed and bits 511:128 kept (R130 step 6). -/
theorem test_exec_cvtpd2ps :
    result 1 (exec (.cvtpd2ps [.opSize] 1 (.reg 2)) sample) =
      some ([0x3F800000, 0xC0200000, 0, 0, 0xFFFFFFFF, 0xFFFFFFFF, 0xFFFFFFFF, 0xFFFFFFFF], 0x1F80) := by
  decide +kernel

/-- A memory source; REX.R makes the destination XMM9. -/
theorem test_exec_cvtpd2psRex :
    result 9 (exec (.cvtpd2psRex [.opSize] ⟨false, true, false, false⟩ 1 (.mem (.base 0 (.d8 16)))) sample) =
      some ([0x3DCCCCCD, 0xBDCCCCCD, 0, 0, 0, 0, 0, 0], 0x1FA0) := by decide +kernel

/-- R51: the legacy form at a misaligned address. -/
theorem test_exec_cvtpd2ps_misaligned :
    faultsWith .gp (exec (.cvtpd2ps [.opSize] 1 (.mem (.base 0 (.d8 8)))) sample) = true := by decide +kernel

theorem test_exec_vex128C5 :
    result 1 (exec (.vex128C5 [] false 1 (.reg 2)) sample) =
      some ([0x3F800000, 0xC0200000, 0, 0, 0, 0, 0, 0], 0x1F80) := by decide +kernel

/-- A misaligned memory source (R51). -/
theorem test_exec_vex128C4 :
    result 1 (exec (.vex128C4 [] ⟨false, false, false, true⟩ 1 (.mem (.base 0 (.d8 8)))) sample) =
      some ([0xC0200000, 0x3DCCCCCD, 0, 0, 0, 0, 0, 0], 0x1FA0) := by decide +kernel

/-- The source is the destination (R144). -/
theorem test_exec_vex256C5 :
    result 2 (exec (.vex256C5 [] false 2 (.reg 2)) sample) =
      some ([0x3F800000, 0xC0200000, 0x3DCCCCCD, 0xBDCCCCCD, 0, 0, 0, 0], 0x1FA0) := by decide +kernel

/-- Overflow, a quiet NaN and zero, toward −∞ (R106, R107, R110). -/
theorem test_exec_vex256C4 :
    result 1 (exec (.vex256C4 [] ⟨false, false, false, false⟩ 1 (.mem (.base 0 (.d8 32))))
      { sample with mxcsr := 0x3F80 }) =
      some ([0x40490FDA, 0x7F7FFFFF, 0x7FC00000, 0, 0, 0, 0, 0], 0x3FA8) := by decide +kernel

/-- Embedded rounding up with everything unmasked: MXCSR stays (R117). -/
theorem test_exec_evex512Er :
    result 1 (exec (.evex512Er [] plain .up 1 2) { sample with mxcsr := 0 }) =
      some ([0x3F800000, 0xC0200000, 0x3DCCCCCD, 0xBDCCCCCC, 0x40490FDB, 0x7F800000, 0x7FC00000, 0], 0) := by
  decide +kernel

/-- Lane 1 is masked off and merged. -/
theorem test_exec_evex128 :
    result 1 (exec (.evex128 [] merging 1 (.reg 2)) sample) =
      some ([0x3F800000, 0xFFFFFFFF, 0, 0, 0, 0, 0, 0], 0x1F80) := by decide +kernel

/-- `disp8` of 1 is 8 bytes (R49). -/
theorem test_exec_evex128Bcst :
    result 1 (exec (.evex128Bcst [] plain 1 (.base 0 (.d8 1))) sample) =
      some ([0xC0200000, 0xC0200000, 0, 0, 0, 0, 0, 0], 0x1F80) := by decide +kernel

/-- Lanes 1 and 3 are masked off and zeroed. -/
theorem test_exec_evex256 :
    result 1 (exec (.evex256 [] zeroing 1 (.mem (.base 0 .none))) sample) =
      some ([0x3F800000, 0, 0x3DCCCCCD, 0, 0, 0, 0, 0], 0x1FA0) := by decide +kernel

theorem test_exec_evex256Bcst :
    result 1 (exec (.evex256Bcst [] zeroing 1 (.base 0 (.d8 2))) sample) =
      some ([0x3DCCCCCD, 0, 0x3DCCCCCD, 0, 0, 0, 0, 0], 0x1FA0) := by decide +kernel

theorem test_exec_evex512 :
    result 1 (exec (.evex512 [] plain 1 (.mem (.base 0 .none))) sample) =
      some ([0x3F800000, 0xC0200000, 0x3DCCCCCD, 0xBDCCCCCD, 0x40490FDB, 0x7F800000, 0x7FC00000, 0], 0x1FA8) := by
  decide +kernel

theorem test_exec_evex512Bcst :
    result 1 (exec (.evex512Bcst [] plain 1 (.base 0 .none)) sample) =
      some (List.replicate 8 0x3F800000, 0x1F80) := by decide +kernel

/-- The program loaded at the launch state's instruction pointer runs at the next step (log 4). -/
theorem test_step_withFetchWord :
    result 1 (step (sample.withFetchWord 32 0xCA5AF9C5)) =
      some ([0x3F800000, 0xC0200000, 0, 0, 0, 0, 0, 0], 0x1F80) := by decide +kernel

/-! ### Witnesses: for each statement with hypotheses, states and operands that meet them, at the edges of the ranges -/

/-- A program loaded at the instruction pointer of `sample`. -/
def running (bytes : List Byte) : State := sample.loadProgram bytes

/-- The same in M32. -/
def running32 (bytes : List Byte) : State := sample32.loadProgram bytes

/-- A memory operand at RAX + 8 v in the legacy and VEX forms. -/
def atRax (v : BitVec 8) : RegMem := .mem (.base 0 (.d8 v))

/-- `sample` with RAX replaced. -/
def raxAt (a : Word) : State := { sample with gpr := sample.gpr.set 0 a }

/-- Fifteen bytes, the longest instruction. -/
def longest : Instr :=
  .cvtpd2psRex [.droppedRex ⟨true, true, true, true⟩, .seg .fs, .addrSize, .opSize, .opSize, .seg .ds] ⟨true, true, true, true⟩ 7
    (.mem (.sib 3 7 7 (.d32 0xFFFFFFFF)))

theorem test_witness_DecodeOfEncodedInstruction :
    longest.wf .m64 = true ∧ longest.size = 15 ∧ (Instr.cvtpd2ps [.opSize] 0 (.reg 0)).wf .m32 = true := by decide

theorem test_witness_DecodedBytesAreTheEncoding :
    decode .m64 (encode longest ++ [0xFF]) = .instr longest [0xFF] := by decide

/-- LOCK alone and with REX; `vvvv` of 1110 in the three shapes, at 15 bytes and at 16; 66 and REX in front of VEX. -/
theorem test_witness_OverlongComesBeforeInvalid :
    ((Instr.cvtpd2ps (List.replicate 13 .opSize) 0 (.reg 0)).shapeWf .m64 = true ∧
      (Instr.cvtpd2ps (List.replicate 13 .opSize) 0 (.reg 0)).size = 16) ∧
    (prefixesScan .m64 [.lock, .opSize] = true ∧
      decode .m64 (encode (.cvtpd2ps [.lock, .opSize] 0 (.reg 0))) = .invalid ∧
      decode .m64 (encode (.cvtpd2ps (.lock :: List.replicate 12 .opSize) 0 (.reg 0))) = .tooLong) ∧
    ((⟨true, false, false, false⟩ : Rex).toByte = 0x48#8 ∧
      decode .m64 [0xF0, 0x66, 0x48, 0x0F, 0x5A, 0xCA] = .invalid ∧
      decode .m64 (List.replicate 11 0x66 ++ [0xF0, 0x48, 0x0F, 0x5A, 0xCA]) = .tooLong) ∧
    (prefixesScan .m64 (List.replicate 11 (.seg .cs)) = true ∧ prefixesScan .m64 (List.replicate 12 (.seg .cs)) = true ∧
      (0xF1#8).extractLsb' 3 4 ≠ 0xF#4 ∧ decode .m64 (List.replicate 11 0x2E ++ [0xC5, 0xF1, 0x5A, 0xCA]) = .invalid ∧
      decode .m64 (List.replicate 12 0x2E ++ [0xC5, 0xF1, 0x5A, 0xCA]) = .tooLong) ∧
    (decode .m32 (List.replicate 10 0x2E ++ [0xC4, 0xE1, 0x71, 0x5A, 0xCA]) = .invalid ∧
      decode .m32 (List.replicate 11 0x2E ++ [0xC4, 0xE1, 0x71, 0x5A, 0xCA]) = .tooLong) ∧
    (decode .m64 (List.replicate 9 0x2E ++ [0x62, 0xF1, 0xF5, 0x08, 0x5A, 0xCA]) = .invalid ∧
      decode .m64 (List.replicate 10 0x2E ++ [0x62, 0xF1, 0xF5, 0x08, 0x5A, 0xCA]) = .tooLong) ∧
    (decode .m64 (List.replicate 11 0x66 ++ [0xC5, 0xF9, 0x5A, 0xCA]) = .invalid ∧
      decode .m64 (List.replicate 11 0x2E ++ [0x48, 0xC5, 0xF9, 0x5A, 0xCA]) = .tooLong) := by decide +kernel

/-- `vvvv` of 1110 in the three shapes, the operand of the first at an unreadable address, the second in M32. -/
theorem test_witness_ReservedVvvvRaisesUd :
    ((running [0xC5, 0xF1, 0x5A, 0x0B]).fetches ([].map Prefix.toByte ++ [0xC5#8, 0xF1#8, 0x5A#8] ++
        (RegMem.mem (.base 3 .none)).encode 1) ∧ (RegMem.mem (.base 3 .none)).wf = true ∧ prefixesVex .m64 [] = true ∧
      (0xF1#8).extractLsb' 0 2 = 1#2 ∧ (0xF1#8).extractLsb' 3 4 ≠ 0xF#4) ∧
    ((running32 [0xC4, 0xE1, 0x71, 0x5A, 0xCA]).fetches ([].map Prefix.toByte ++ [0xC4#8, 0xE1#8, 0x71#8, 0x5A#8] ++
        (RegMem.reg 2).encode 1) ∧ prefixesVex .m32 [] = true ∧ addressable .m32 [] (RegMem.reg 2).isMem = true ∧
      (0xE1#8).extractLsb' 5 3 = 7#3 ∧ (0xE1#8).extractLsb' 0 5 = 1#5 ∧ (0x71#8).extractLsb' 0 2 = 1#2 ∧
      (0x71#8).extractLsb' 3 4 ≠ 0xF#4) ∧
    ((running [0x62, 0xF1, 0xF5, 0x08, 0x5A, 0xCA]).fetches
        ([].map Prefix.toByte ++ [0x62#8, 0xF1#8, 0xF5#8, 0x08#8, 0x5A#8] ++ (RegMem.reg 2).encode 1) ∧
      (0xF1#8).extractLsb' 0 3 = 1#3 ∧ (0xF5#8).extractLsb' 0 2 = 1#2 ∧ (0xF5#8).extractLsb' 3 4 ≠ 0xF#4) :=
  ⟨⟨fetches_of (by decide +kernel), by decide⟩, ⟨fetches_of (by decide +kernel), by decide⟩,
    ⟨fetches_of (by decide +kernel), by decide⟩⟩

/-- One word for each of the six reserved patterns. -/
theorem test_witness_ReservedEvexBitsRaiseUd :
    ∀ w ∈ [(0xF9#8, 0xFD#8, 0x08#8), (0xF1, 0xF9, 0x08), (0xF1, 0x7D, 0x08), (0xF1, 0xFD, 0x00), (0xF1, 0xFD, 0x88),
      (0xF1, 0xFD, 0x68)],
      (running [0x62, w.1, w.2.1, w.2.2, 0x5A, 0xCA]).fetches
        ([].map Prefix.toByte ++ [0x62#8, w.1, w.2.1, w.2.2, 0x5A#8] ++ (RegMem.reg 2).encode 1) ∧
      w.1.extractLsb' 0 3 = 1#3 ∧ w.2.1.extractLsb' 0 2 = 1#2 ∧
      (w.1.getLsbD 3 = true ∨ w.2.1.getLsbD 2 = false ∨ w.2.1.getLsbD 7 = false ∨ w.2.2.getLsbD 3 = false ∨
        (w.2.2.getLsbD 7 = true ∧ w.2.2.extractLsb' 0 3 = 0#3) ∨
        (w.2.2.extractLsb' 5 2 = 3#2 ∧ (w.2.2.getLsbD 4 = false ∨ (RegMem.reg 2).isMem = true))) := by
  intro w hw
  simp only [List.mem_cons, List.not_mem_nil, or_false] at hw
  obtain rfl | rfl | rfl | rfl | rfl | rfl := hw <;>
    exact ⟨fetches_of (by decide +kernel), by decide⟩

theorem test_witness_ForbiddenPrefixesRaiseUd :
    ((running [0xF0, 0x66, 0x0F, 0x5A, 0xCA]).fetches (encode (.cvtpd2ps [.lock, .opSize] 1 (.reg 2))) ∧
      prefixesScan .m64 [.lock, .opSize] = true ∧ [Prefix.lock, .opSize].contains .opSize = true ∧
      [Prefix.lock, .opSize].contains .lock = true ∧ [Prefix.lock, .opSize].contains .repne = false ∧
      [Prefix.lock, .opSize].contains .rep = false) ∧
    ((running [0xF0, 0x66, 0x48, 0x0F, 0x5A, 0xCA]).fetches
        (encode (.cvtpd2psRex [.lock, .opSize] ⟨true, false, false, false⟩ 1 (.reg 2))) ∧
      (running [0xF0, 0x66, 0x48, 0x0F, 0x5A, 0xCA]).cfg.mode = .m64) ∧
    ((running [0x66, 0xC5, 0xF9, 0x5A, 0xCA]).fetches
        ([Prefix.opSize].map Prefix.toByte ++ encode (.vex128C5 [] false 1 (.reg 2))) ∧
      prefixesScan .m64 [.opSize] = true ∧ (Instr.vex128C5 [] false 1 (.reg 2)).form ≠ .legacy ∧
      (Instr.vex128C5 [] false 1 (.reg 2)).prefixes = [] ∧ (Instr.vex128C5 [] false 1 (.reg 2)).wf .m64 = true) ∧
    (running [0x48, 0xC5, 0xF9, 0x5A, 0xCA]).fetches
      ([].map Prefix.toByte ++ [(⟨true, false, false, false⟩ : Rex).toByte] ++ encode (.vex128C5 [] false 1 (.reg 2))) :=
  ⟨⟨fetches_of (by decide +kernel), by decide⟩, ⟨fetches_of (by decide +kernel), by decide⟩,
    ⟨fetches_of (by decide +kernel), by decide⟩, fetches_of (by decide +kernel)⟩

/-- CVTPS2PD, CVTSD2SS with 66 as well, VCVTSS2SD, its three-byte form, VCVTPS2PD, VCVTPD2PH. -/
theorem test_witness_NeighboursAreRefused :
    ((running [0x0F, 0x5A, 0xCA]).fetches ([].map Prefix.toByte ++ [0x0F#8, 0x5A#8]) ∧
      ([] : List Prefix).contains .opSize = false) ∧
    ((running [0xF2, 0x66, 0x0F, 0x5A]).fetches ([.repne, .opSize].map Prefix.toByte ++ [0x0F#8, 0x5A#8]) ∧
      [Prefix.repne, .opSize].contains .repne = true ∧ prefixesScan .m64 [.repne, .opSize] = true) ∧
    ((running [0xC5, 0xFA, 0x5A, 0xCA]).fetches ([].map Prefix.toByte ++ [0xC5#8, 0xFA#8, 0x5A#8]) ∧
      prefixesVex .m64 [] = true ∧ (0xFA#8).extractLsb' 0 2 ≠ 1#2) ∧
    ((running [0xC4, 0xE1, 0x7A, 0x5A, 0xCA]).fetches ([].map Prefix.toByte ++ [0xC4#8, 0xE1#8, 0x7A#8, 0x5A#8]) ∧
      (0xE1#8).extractLsb' 0 5 = 1#5 ∧ (0x7A#8).extractLsb' 0 2 ≠ 1#2) ∧
    ((running [0x62, 0xF1, 0x7C, 0x08, 0x5A, 0xCA]).fetches
        ([].map Prefix.toByte ++ [0x62#8, 0xF1#8, 0x7C#8, 0x08#8, 0x5A#8]) ∧
      (0xF1#8).getLsbD 3 = false ∧ (0x7C#8).getLsbD 2 = true ∧ (0x7C#8).extractLsb' 0 2 ≠ 1#2) ∧
    ((running [0x62, 0xF5, 0xFD, 0x08, 0x5A, 0xCA]).fetches
        ([].map Prefix.toByte ++ [0x62#8, 0xF5#8, 0xFD#8, 0x08#8, 0x5A#8]) ∧
      (0xF5#8).getLsbD 3 = false ∧ (0xF5#8).extractLsb' 0 3 = 5#3 ∧ (0xFD#8).getLsbD 2 = true ∧
      (0xFD#8).getLsbD 7 = true) :=
  ⟨⟨fetches_of (by decide +kernel), by decide⟩, ⟨fetches_of (by decide +kernel), by decide⟩,
    ⟨fetches_of (by decide +kernel), by decide⟩, ⟨fetches_of (by decide +kernel), by decide⟩,
    ⟨fetches_of (by decide +kernel), by decide⟩, ⟨fetches_of (by decide +kernel), by decide⟩⟩

/-- LDS, INC, and VEX and EVEX words with a stored extension bit of 0; then prefix 67 with a memory operand in the four
shapes, LOCK and a reserved `vvvv` among them. -/
theorem test_witness_ThirtyTwoBitModeDifferences :
    (running32 [0xC5, 0xB9, 0x5A]).fetches ([].map Prefix.toByte ++ [0xC5#8, 0xB9#8]) ∧
    (running32 [0x40, 0x90]).fetches ([].map Prefix.toByte ++ [(⟨false, false, false, false⟩ : Rex).toByte]) ∧
    (running32 [0xC4, 0xC1, 0x79]).fetches ([].map Prefix.toByte ++ [0xC4#8, 0xC1#8]) ∧
    (running32 [0x62, 0xF1, 0xFD, 0x00, 0x5A]).fetches
      ([].map Prefix.toByte ++ [0x62#8, 0xF1#8, 0xFD#8, 0x00#8, 0x5A#8]) ∧
    (Instr.evex512Er [] plain .nearest 7 7).wf .m32 = true ∧
    ((running32 [0xF0, 0x67, 0x66, 0x0F, 0x5A, 0xBF]).fetches
        ([.lock, .addrSize, .opSize].map Prefix.toByte ++ [0x0F#8, 0x5A#8] ++ [0xBF#8]) ∧
      (running32 [0x67, 0xC5, 0xC1, 0x5A, 0x00]).fetches
        ([.addrSize].map Prefix.toByte ++ [0xC5#8, 0xC1#8, 0x5A#8] ++ [0x00#8]) ∧
      (running32 [0x67, 0xC4, 0xE1, 0x79, 0x5A, 0x04]).fetches
        ([.addrSize].map Prefix.toByte ++ [0xC4#8, 0xE1#8, 0x79#8, 0x5A#8] ++ [0x04#8]) ∧
      (running32 [0x67, 0x62, 0xF1, 0xFD, 0x08, 0x5A, 0x40]).fetches
        ([.addrSize].map Prefix.toByte ++ [0x62#8, 0xF1#8, 0xFD#8, 0x08#8, 0x5A#8] ++ [0x40#8])) ∧
    ((0xBF#8).extractLsb' 6 2 ≠ 3#2 ∧ (0x00#8).extractLsb' 6 2 ≠ 3#2 ∧ (0xC1#8).extractLsb' 6 2 = 3#2 ∧
      (0xC1#8).extractLsb' 0 2 = 1#2 ∧ (0xE1#8).extractLsb' 5 3 = 7#3 ∧ (0xE1#8).extractLsb' 0 5 = 1#5 ∧
      (0x79#8).extractLsb' 0 2 = 1#2 ∧ (0xF1#8).extractLsb' 4 4 = 0xF#4 ∧ (0xF1#8).extractLsb' 0 3 = 1#3 ∧
      (0xFD#8).extractLsb' 0 2 = 1#2 ∧ (0x08#8).getLsbD 3 = true) :=
  ⟨fetches_of (by decide +kernel), fetches_of (by decide +kernel), fetches_of (by decide +kernel),
    fetches_of (by decide +kernel), by decide,
    ⟨fetches_of (by decide +kernel), fetches_of (by decide +kernel), fetches_of (by decide +kernel),
      fetches_of (by decide +kernel)⟩, by decide⟩

theorem test_witness_StepRunsTheDecodedInstruction :
    (running [0xC5, 0xF9, 0x5A, 0xCA]).atEnd = false ∧ (running [0xC5, 0xF9, 0x5A, 0xCA]).inText = true ∧
    decode .m64 (running [0xC5, 0xF9, 0x5A, 0xCA]).fetchBytes = .instr (.vex128C5 [] false 1 (.reg 2)) [] ∧
    (running [0xC5, 0xF9, 0x5A, 0xCA]).ip.toNat + (Instr.vex128C5 [] false 1 (.reg 2)).len <
      Mode.addressSpace .m64 := by decide +kernel

/-- The text ends where the instruction does. -/
theorem test_witness_StepRunsTheInstructionInMemory :
    longest.wf .m64 = true ∧ (running (encode longest)).atEnd = false ∧
    (running (encode longest)).cfg.textLo ≤ (running (encode longest)).ip.toNat ∧
    (running (encode longest)).ip.toNat + longest.len = (running (encode longest)).cfg.textHi ∧
    ∀ (k : Nat) (h : k < (encode longest).length),
      (running (encode longest)).mem.read ((running (encode longest)).ip.toNat + k) = (encode longest)[k] := by
  decide +kernel

/-- An instruction whose next address is the top of the address space. -/
def atTop : State := { sample with rip := 0xFFFFFFFFFFFFFFFC#64 }.loadProgram [0xC5, 0xF9, 0x5A, 0xCA]

/-- Log 32: at the top, the refusal comes before the `#UD` of an absent feature and before `#NM`. -/
theorem test_unavailable_at_top :
    refusesWith .addressWrap (step { atTop with cfg := { atTop.cfg with fAVX := false } }) = true ∧
    refusesWith .addressWrap (step { atTop with cr0 := 8#64 }) = true := by decide +kernel

/-- Log 31: a `#UD` encoding whose last byte is the top one faults. -/
theorem test_invalid_at_top :
    faultsWith .ud (step ({ sample with rip := 0xFFFFFFFFFFFFFFFC#64 }.loadProgram [0xC5, 0xF1, 0x5A, 0xCA])) = true := by
  decide +kernel

theorem test_witness_StepOnOtherDecodings :
    decode .m64 (running [0xF0, 0x66, 0x0F, 0x5A, 0xCA]).fetchBytes = .invalid ∧
    decode .m64 (running (List.replicate 12 0x2E ++ [0x66, 0x0F, 0x5A, 0xCA])).fetchBytes = .tooLong ∧
    decode .m64 (running [0x90]).fetchBytes = .otherInstruction ∧
    decode .m32 (running32 [0xC4, 0xC1, 0x79]).fetchBytes = .extensionInM32 ∧
    decode .m32 (running32 [0x67, 0x66, 0x0F, 0x5A, 0x08]).fetchBytes = .address16 ∧
    (decode .m64 atTop.fetchBytes = .instr (.vex128C5 [] false 1 (.reg 2)) [] ∧ atTop.atEnd = false ∧
      atTop.inText = true ∧ atTop.ip.toNat + 4 = Mode.addressSpace .m64) ∧
    (decode .m64 (running [0xC5, 0xF9, 0x5A]).fetchBytes = .truncated ∧
      (running [0xC5, 0xF9, 0x5A]).cfg.textHi < Mode.addressSpace .m64) ∧
    decode .m64 ({ sample with rip := 0xFFFFFFFFFFFFFFFD#64 }.loadProgram [0xC5, 0xF9, 0x5A]).fetchBytes = .truncated ∧
    refusesWith .addressWrap (step ({ sample with rip := 0xFFFFFFFFFFFFFFFD#64 }.loadProgram [0xC5, 0xF9, 0x5A])) =
      true := by decide +kernel

theorem test_witness_EndOfRunAndEdgeOfText :
    sample.ip.toNat = sample.cfg.endAddr ∧
    ({ running [0xC5, 0xF9] with rip := 0xFFFFFFF2#64 }.ip.toNat = (running [0xC5, 0xF9]).cfg.textHi ∧
      { running [0xC5, 0xF9] with rip := 0xFFFFFFEF#64 }.ip.toNat < (running [0xC5, 0xF9]).cfg.textLo ∧
      { running [0xC5, 0xF9] with rip := 0xFFFFFFEF#64 }.ip.toNat ≠ (running [0xC5, 0xF9]).cfg.endAddr) ∧
    ((running [0xC5, 0xF9, 0x5A]).atEnd = false ∧ (running [0xC5, 0xF9, 0x5A]).inText = true ∧
      (running [0xC5, 0xF9, 0x5A]).cfg.textHi + 1 = (running [0xC5, 0xF9, 0x5A]).ip.toNat + 4 ∧
      ∀ (k : Nat) (h : k < (encode (.vex128C5 [] false 1 (.reg 2))).length), k < 3 →
        (running [0xC5, 0xF9, 0x5A]).mem.read ((running [0xC5, 0xF9, 0x5A]).ip.toNat + k) =
          (encode (.vex128C5 [] false 1 (.reg 2)))[k]) := by decide +kernel

theorem test_witness_ExecutionIsSequential :
    (∃ t, step (running [0xC5, 0xF9, 0x5A, 0xCA]) = .next t) ∧ (running [0xC5, 0xF9, 0x5A, 0xCA]).atEnd = false :=
  ⟨exists_next (by decide +kernel), by decide +kernel⟩

theorem test_witness_LegacyFormCompletes :
    (Instr.cvtpd2ps [.opSize] 1 (.reg 2)).ready sample = true ∧
    (Instr.cvtpd2psRex [.opSize] ⟨false, true, false, false⟩ 1 (atRax 48)).ready sample = true := by decide +kernel

theorem test_witness_Vex128FormCompletes :
    (Instr.vex128C5 [] false 1 (.reg 2)).ready sample = true ∧
    (Instr.vex128C4 [] ⟨false, false, false, true⟩ 1 (atRax 8)).ready sample = true := by decide +kernel

theorem test_witness_Vex256FormCompletes :
    (Instr.vex256C5 [] false 2 (.reg 2)).ready sample = true ∧
    (Instr.vex256C4 [] ⟨false, false, false, false⟩ 1 (atRax 32)).ready sample = true := by decide +kernel

theorem test_witness_Evex128FormCompletes :
    (Instr.evex128 [] merging 1 (.reg 2)).ready sample = true ∧
    (Instr.evex128Bcst [] plain 1 (.base 0 (.d8 1))).ready sample = true := by decide +kernel

theorem test_witness_Evex256FormCompletes :
    (Instr.evex256 [] zeroing 1 (.mem (.base 0 .none))).ready sample = true ∧
    (Instr.evex256Bcst [] zeroing 1 (.base 0 (.d8 2))).ready sample = true := by decide +kernel

theorem test_witness_Evex512FormCompletes :
    (Instr.evex512 [] merging 1 (.mem (.base 0 .none))).ready sample = true ∧
    (Instr.evex512Bcst [] plain 1 (.base 0 .none)).ready sample = true ∧ sample.cfg.wf = true := by decide +kernel

theorem test_witness_EmbeddedRoundingCompletes :
    sample.cfg.wf = true ∧ { sample with mxcsr := 0#32 }.enabled .evex512Er = true := by decide +kernel

theorem test_witness_FrameOfEveryInstruction : ∃ t, exec (.evex512 [] merging 1 (.reg 2)) sample = .next t :=
  exists_next (by decide +kernel)

theorem test_witness_MaskedExceptionsNeverStop :
    sample.enabled .evex512 = true ∧
    sample.sourceReady .evex512 0#3 ((Instr.evex512 [] plain 1 (.reg 2)).source sample) = true ∧
    sample.mxcsr.extractLsb' 7 6 = 0x3F#6 := by decide +kernel

/-- The conditions of R174, each alone. -/
theorem test_witness_MissingFeatureRaisesUd :
    (let c := { launchConfig with fSSE2 := false }
     (Instr.cvtpd2ps [.opSize] 1 (.reg 2)).form = .legacy ∧ c.fSSE2 = false ∧
     faultsWith .ud (exec (.cvtpd2ps [.opSize] 1 (.reg 2)) { sample with cfg := c }) = true) ∧
    (let c := { launchConfig with fAVX := false }
     (Instr.vex256C5 [] false 1 (.reg 2)).form = .vex256 ∧ c.fAVX = false ∧
     faultsWith .ud (exec (.vex256C5 [] false 1 (.reg 2)) { sample with cfg := c }) = true) ∧
    (let c := { launchConfig with fAVX512VL := false, fAVX10_1 := false }
     (Instr.evex128 [] plain 1 (.reg 2)).form = .evex128 ∧ c.fAVX512VL = false ∧ c.fAVX10_1 = false ∧
     faultsWith .ud (exec (.evex128 [] plain 1 (.reg 2)) { sample with cfg := c }) = true) ∧
    (let c := { launchConfig with fAVX512F := false, fAVX10_1 := false }
     (Instr.evex512Er [] plain .up 1 2).form = .evex512Er ∧ c.fAVX512F = false ∧ c.fAVX10_1 = false ∧
     faultsWith .ud (exec (.evex512Er [] plain .up 1 2) { sample with cfg := c }) = true) := by decide +kernel

/-- Each enable bit alone, and CR0.TS on a legacy form, on VEX without the EVEX state, and on EVEX. -/
theorem test_witness_DisabledStateRaisesUdOrNm :
    ((0x4#64).getLsbD 2 = true ∧
      faultsWith .ud (exec (.cvtpd2ps [.opSize] 1 (.reg 2)) { sample with cr0 := 0x4#64 }) = true) ∧
    ((0x40400#64).getLsbD 9 = false ∧
      faultsWith .ud (exec (.cvtpd2ps [.opSize] 1 (.reg 2)) { sample with cr4 := 0x40400#64 }) = true) ∧
    ((0x600#64).getLsbD 18 = false ∧
      faultsWith .ud (exec (.vex128C5 [] false 1 (.reg 2)) { sample with cr4 := 0x600#64 }) = true) ∧
    ((0x3#64).extractLsb' 1 2 ≠ 3#2 ∧
      faultsWith .ud (exec (.vex128C5 [] false 1 (.reg 2)) { sample with xcr0 := 0x3#64 }) = true) ∧
    ((0x67#64).extractLsb' 5 3 ≠ 7#3 ∧ (Instr.evex128 [] plain 1 (.reg 2)).form.isEvex = true ∧
      faultsWith .ud (exec (.evex128 [] plain 1 (.reg 2)) { sample with xcr0 := 0x67#64 }) = true) ∧
    ((0x8#64).getLsbD 3 = true ∧ (0x8#64).getLsbD 2 = false ∧ sample.cr4.getLsbD 9 = true ∧
      sample.cr4.getLsbD 18 = true ∧ (0x7#64).extractLsb' 1 2 = 3#2 ∧ sample.xcr0.extractLsb' 5 3 = 7#3 ∧
      sample.cfg.available .legacy = true ∧ sample.cfg.available .vex128 = true ∧ sample.cfg.available .evex128 = true ∧
      faultsWith .nm (exec (.cvtpd2ps [.opSize] 1 (.reg 2)) { sample with cr0 := 0x8#64 }) = true ∧
      faultsWith .nm (exec (.vex128C5 [] false 1 (.reg 2)) { sample with cr0 := 0x8#64, xcr0 := 0x7#64 }) = true ∧
      faultsWith .nm (exec (.evex128 [] plain 1 (.reg 2)) { sample with cr0 := 0x8#64 }) = true) := by
  decide +kernel

/-- Addresses 15 above and 1 above a 16-byte boundary, the second unreadable as well; and 8 below the top of the address
space (log 15). -/
theorem test_witness_LegacyAlignment :
    (sample.enabled .legacy = true ∧
      (Instr.cvtpd2ps [.opSize] 1 (atRax 15)).source sample = .mem 0x1000000F#64 ∧ 0x1000000F % 16 ≠ 0 ∧
      faultsWith .gp (exec (.cvtpd2ps [.opSize] 1 (atRax 15)) sample) = true) ∧
    faultsWith .gp (exec (.cvtpd2ps [.opSize] 1 (.mem (.base 0 .none))) (raxAt 0x10001001#64)) = true ∧
    ((Instr.cvtpd2ps [.opSize] 1 (.mem (.base 0 .none))).source (raxAt 0xFFFFFFFFFFFFFFF8#64) =
        .mem 0xFFFFFFFFFFFFFFF8#64 ∧ Mode.addressSpace .m64 < 0xFFFFFFFFFFFFFFF8 + 16 ∧
      faultsWith .gp (exec (.cvtpd2ps [.opSize] 1 (.mem (.base 0 .none))) (raxAt 0xFFFFFFFFFFFFFFF8#64)) = true) := by
  decide +kernel

/-- The last byte of a vector, the first of an aligned legacy operand and the last of a broadcast element unreadable, and no
lane active at an unreadable address. -/
theorem test_witness_UnreadableOperandRaisesMemFault :
    (sample.enabled .vex256 = true ∧
      (Instr.vex256C5 [] false 1 (.mem (.base 0 .none))).source (raxAt 0x10000FE1#64) = .mem 0x10000FE1#64 ∧
      sample.active 0#3 (31 / 8) = true ∧ sample.cfg.readableByte (0x10000FE1 + 31) = false ∧
      sample.cfg.readableByte (0x10000FE1 + 30) = true ∧
      faultsWith .memFault (exec (.vex256C5 [] false 1 (.mem (.base 0 .none))) (raxAt 0x10000FE1#64)) = true) ∧
    (0x10001000 % 16 = 0 ∧ sample.cfg.readableByte 0x10001000 = false ∧
      faultsWith .memFault (exec (.cvtpd2ps [.opSize] 1 (.mem (.base 0 .none))) (raxAt 0x10001000#64)) = true) ∧
    ((Instr.evex512Bcst [] plain 1 (.base 0 .none)).source (raxAt 0x10000FF9#64) = .bcst 0x10000FF9#64 ∧
      sample.active 0#3 7 = true ∧ sample.cfg.readableByte (0x10000FF9 + 7) = false ∧
      faultsWith .memFault (exec (.evex512Bcst [] plain 1 (.base 0 .none)) (raxAt 0x10000FF9#64)) = true) ∧
    (State.active { raxAt 0#64 with k := State.reset.k } 1#3 0 = false ∧
      completes (exec (.evex512 [] merging 1 (.mem (.base 0 .none))) { raxAt 0#64 with k := State.reset.k }) = true ∧
      completes (exec (.evex512Bcst [] merging 1 (.base 0 .none)) { raxAt 0#64 with k := State.reset.k }) = true) := by
  decide +kernel

/-- One byte over the top, in each mode; an operand that ends at the top is not refused. -/
theorem test_witness_WrappingOperandIsRefused :
    (sample.enabled .vex128 = true ∧ Mode.addressSpace .m64 < 0xFFFFFFFFFFFFFFF1 + 16 ∧
      (Instr.vex128C5 [] false 1 (.mem (.base 0 .none))).source (raxAt 0xFFFFFFFFFFFFFFF1#64) =
        .mem 0xFFFFFFFFFFFFFFF1#64 ∧
      refusesWith .addressWrap (exec (.vex128C5 [] false 1 (.mem (.base 0 .none))) (raxAt 0xFFFFFFFFFFFFFFF1#64)) =
        true) ∧
    (sample.enabled .evex128 = true ∧ Mode.addressSpace .m64 < 0xFFFFFFFFFFFFFFF9 + 8 ∧
      refusesWith .addressWrap (exec (.evex128Bcst [] plain 1 (.base 0 .none)) (raxAt 0xFFFFFFFFFFFFFFF9#64)) =
        true) ∧
    refusesWith .addressWrap (exec (.vex128C5 [] false 1 (.mem (.base 0 .none)))
      { sample32 with gpr := sample.gpr.set 0 0xFFFFFFF1#64 }) = true ∧
    faultsWith .memFault (exec (.vex128C5 [] false 1 (.mem (.base 0 .none))) (raxAt 0xFFFFFFFFFFFFFFF0#64)) = true := by
  decide +kernel

/-- A denormal with DM = 0; 0.1 with PM = 0, with and without CR4.OSXMMEXCPT. -/
theorem test_witness_UnmaskedExceptionStops :
    (let s := { sample with zmm := sample.zmm.set 3 1#512, mxcsr := 0x1E80#32 }
     let i := Instr.vex128C5 [] false 1 (.reg 3)
     s.enabled i.form = true ∧ s.sourceReady i.form i.aaa (i.source s) = true ∧ i.form ≠ .evex512Er ∧
     (i.preFlags s).de = true ∧ s.mxcsr.getLsbD 8 = false ∧ faultsWith .xm (exec i s) = true) ∧
    (let s := { sample with mxcsr := 0x0F80#32 }
     let i := Instr.vex256C5 [] false 1 (.reg 2)
     s.enabled i.form = true ∧ s.sourceReady i.form i.aaa (i.source s) = true ∧ i.form ≠ .evex512Er ∧
     (i.preFlags s).ie = false ∧ (i.preFlags s).de = false ∧ (i.postFlags s).pe = true ∧
     s.mxcsr.getLsbD 12 = false ∧ faultsWith .xm (exec i s) = true ∧
     faultsWith .ud (exec i { s with cr4 := 0x40200#64 }) = true) := by
  decide +kernel

theorem test_witness_FaultKeepsThePreState :
    faultsWith .ud (step (running [0xF0, 0x66, 0x0F, 0x5A, 0xCA])) = true ∧
    faultsWith .xm (step { running [0xC5, 0xFD, 0x5A, 0xCA] with mxcsr := 0x0F80 }) = true := by decide +kernel

theorem test_witness_RegisterSourceTouchesNoMemory :
    (Instr.vex128C5 [] false 1 (.reg 2)).source sample = .reg 2 ∧
    (Instr.evex512Er [] ⟨false, true, true, false, false, 0⟩ .up 1 7).source sample = .reg 31 := by decide +kernel

/-- Every byte of lane 1, and the byte after the operand, changed. -/
theorem test_witness_OnlyActiveLanesReadMemory :
    let i := Instr.evex128 [] merging 1 (.mem (.base 0 .none))
    let m := sample.mem.writeBytes 0x10000008 (List.replicate 9 0xEE#8)
    i.source sample = .mem 0x10000000#64 ∧ m ≠ sample.mem ∧
    ∀ j, j < 16 → sample.active i.aaa (j / 8) = true → m.read (0x10000000 + j) = sample.mem.read (0x10000000 + j) := by
  decide +kernel

/-- Lane 1 and every bit above VL changed. -/
theorem test_witness_OnlyActiveLanesReadRegister :
    let i := Instr.evex128 [] merging 1 (.reg 2)
    let v := BitVec.allOnes 512 <<< 64 ||| 0x3FF0000000000000#512
    i.source sample = .reg 2 ∧ (2 : Fin 32) ≠ i.dst ∧ v ≠ vector ∧
    ∀ j, j < 2 → sample.active i.aaa j = true →
      lane64 (v &&& sample.cfg.maxvl.mask) j = lane64 (sample.readZmm 2) j := by
  decide +kernel

/-- K1 differs from the first bit that is not read on. -/
theorem test_witness_OnlyMaskBitsRead :
    let i := Instr.evex256 [] merging 1 (.reg 2)
    let k := sample.k.set 1 0xFFFFFFFFFFFFFFF5#64
    i.aaa ≠ 0#3 ∧ k ≠ sample.k ∧ ∀ j, j < 4 → k[i.aaa.toFin].getLsbD j = sample.k[i.aaa.toFin].getLsbD j := by
  decide +kernel

theorem test_witness_OnlyEnableBitsOfControlRegistersRead :
    (∀ j, j = 2 ∨ j = 3 → (0xFFFFFFFFFFFFFFF3#64).getLsbD j = sample.cr0.getLsbD j) ∧
    (∀ j, j = 9 ∨ j = 10 ∨ j = 18 → (0x40600#64).getLsbD j = sample.cr4.getLsbD j) ∧
    (∀ j, j = 1 ∨ j = 2 ∨ j = 5 ∨ j = 6 ∨ j = 7 → (0xE6#64).getLsbD j = sample.xcr0.getLsbD j) :=
  ⟨by rintro j (rfl | rfl) <;> decide, by rintro j (rfl | rfl | rfl) <;> decide,
    by rintro j (rfl | rfl | rfl | rfl | rfl) <;> decide⟩

theorem test_witness_DivideByZeroNeverInvolved :
    completes (exec (.vex256C5 [] false 1 (.reg 2)) { sample with mxcsr := 0x1FC4 }) = true ∧
    faultsWith .xm (exec (.vex256C5 [] false 1 (.reg 2)) { sample with mxcsr := 0x0D80 }) = true := by decide +kernel

theorem test_witness_ExceptionFlagsAreSticky :
    (0x3F#32) >>> 6 = 0#32 ∧ completes (exec (.evex512Er [] plain .up 1 2) { sample with mxcsr := 0 }) = true ∧
    faultsWith .xm (exec (.vex256C5 [] false 1 (.reg 2)) { sample with mxcsr := 0x0FBF }) = true := by decide +kernel

theorem test_witness_EmbeddedRoundingSuppressesExceptions :
    ((0xFFFF7FBF#32).getLsbD 6 = sample.mxcsr.getLsbD 6 ∧ (0xFFFF7FBF#32).getLsbD 15 = sample.mxcsr.getLsbD 15) ∧
    faultsWith .nm (exec (.evex512Er [] plain .up 1 2) { sample with cr0 := 8#64 }) = true := by decide +kernel

/-- VEX and EVEX at the same registers and memory, and the legacy form beside VEX.128. -/
theorem test_witness_FormsAgree :
    (sample.enabled .vex128 = true ∧ sample.enabled .evex128 = true ∧ sample.enabled .vex256 = true ∧
      sample.enabled .evex256 = true) ∧
    (let i := Instr.vex128C5 [] false 1 (.reg 2)
     let j := Instr.evex128 [] plain 1 (.reg 2)
     j.aaa = 0#3 ∧ i.dst = j.dst ∧ i.source sample = j.source sample ∧ completes (exec i sample) = true) ∧
    (let i := Instr.vex256C5 [] false 1 (.mem (.base 0 .none))
     let j := Instr.evex256 [] plain 1 (.mem (.base 0 .none))
     let s := { sample with mxcsr := 0x0F80#32 }
     let u := raxAt 0xFFFFFFFFFFFFFFFF#64
     j.aaa = 0#3 ∧ i.dst = j.dst ∧ i.source s = j.source s ∧ i.source u = j.source u ∧
     faultsWith .xm (exec i s) = true ∧ refusesWith .addressWrap (exec i u) = true) ∧
    (let i := Instr.cvtpd2ps [.opSize] 1 (.reg 2)
     let j := Instr.vex128C5 [] false 1 (.reg 2)
     i.form = .legacy ∧ j.form = .vex128 ∧ i.dst = j.dst ∧ i.source sample = j.source sample ∧
     completes (exec i sample) = true) := by
  decide +kernel

/-- Number 4 is no index and, extended, R12; in M32 the SIB sum wraps, and `disp32` alone is absolute. -/
theorem test_witness_LinearAddressForms :
    (sample.cfg.mode = .m64 ∧ num4 false 4 = 4#4 ∧ num4 true 4 = 12#4 ∧ SegReg.ss ≠ .fs ∧ SegReg.ss ≠ .gs) ∧
    (sample32.cfg.mode = .m32 ∧
      sample32.linearAddress [] false false 1 6 (.sib 1 0 0 (.d32 0xE0000001)) = 0x10000001#64 ∧
      sample32.linearAddress [] false false 1 8 (.disp32 0xFFFFFFF0) = 0xFFFFFFF0#64) := by decide +kernel

/-- Prefix 67 behind another prefix, in M64; a displacement below zero, in M32. -/
theorem test_witness_ThirtyTwoBitAddresses :
    (sample.cfg.mode = .m64 ∧ [Prefix.opSize, .addrSize].contains .addrSize = true ∧
      (raxAt 0x100000010#64).effectiveAddress [.opSize, .addrSize] false false 1 5 (.base 0 .none) = 0x10#64) ∧
    (sample32.cfg.mode = .m32 ∧
      sample32.effectiveAddress [] false false 1 5 (.base 1 (.d8 0xFF)) = 0xFFFFFFFF#64) := by decide +kernel

theorem test_witness_NaNConversion : isNaN64 0xFFF0000000000001 = true ∧ isNaN64 0x7FF8000000000000 = true := by decide

/-- The smallest and the largest denormal, with and without DAZ. -/
theorem test_witness_DenormalConversion :
    (f64Exp 1 = 0 ∧ f64Frac 1 ≠ 0) ∧ (f64Exp 0x800FFFFFFFFFFFFF = 0 ∧ f64Frac 0x800FFFFFFFFFFFFF ≠ 0) ∧
    (ctxOfMxcsr 0x1FC0).daz = true ∧ (ctxOfMxcsr 0x1F80).daz = false ∧ (ctxOfMxcsr 0x1F80).um = true := by decide

/-- The least magnitude that overflows and the one before it, to nearest, away from zero and toward zero. -/
theorem test_witness_OverflowConversion :
    isFinite64 0x47EFFFFFF0000000 = true ∧
    (cvtF64ToF32 0x47EFFFFFF0000000 (ctxOfMxcsr 0x1F80)).post.oe = true ∧
    (cvtF64ToF32 0x47EFFFFFEFFFFFFF (ctxOfMxcsr 0x1F80)).post.oe = false ∧
    (cvtF64ToF32 0x47EFFFFFE0000001 (ctxOfMxcsr 0x5F80)).post.oe = true ∧
    (cvtF64ToF32 0x47EFFFFFE0000000 (ctxOfMxcsr 0x5F80)).post.oe = false ∧
    (cvtF64ToF32 0x47F0000000000000 (ctxOfMxcsr 0x7B80)).post = { noFlags with oe := true } ∧
    (cvtF64ToF32 0x47EFFFFFFFFFFFFF (ctxOfMxcsr 0x7B80)).post.oe = false := by decide +kernel

/-- The least magnitude that is not tiny and the one before it, to nearest, away from zero and toward zero; and the smallest
double. -/
theorem test_witness_UnderflowConversion :
    (isFinite64 1 = true ∧ f64Magnitude 1 ≠ 0 ∧ (ctxOfMxcsr 0x1F80).daz = false) ∧
    (cvtF64ToF32 0x380FFFFFF0000000 (ctxOfMxcsr 0x1780)).post.ue = false ∧
    (cvtF64ToF32 0x380FFFFFEFFFFFFF (ctxOfMxcsr 0x1780)).post.ue = true ∧
    (cvtF64ToF32 0x380FFFFFE0000001 (ctxOfMxcsr 0x5780)).post.ue = false ∧
    (cvtF64ToF32 0x380FFFFFE0000000 (ctxOfMxcsr 0x5780)).post = { noFlags with ue := true } ∧
    (cvtF64ToF32 0x3810000000000000 (ctxOfMxcsr 0x7780)).post.ue = false ∧
    (cvtF64ToF32 0x380FFFFFFFFFFFFF (ctxOfMxcsr 0x7780)).post.ue = true := by decide +kernel

/-- A tiny source and one that rounds up to the smallest normal single. -/
theorem test_witness_FlushToZeroConversion :
    (f64Magnitude 0x36A0000000000000 ≠ 0 ∧ f64Magnitude 0x36A0000000000000 < 0x380FFFFFF0000000 ∧
      f64Exp 0x36A0000000000000 ≠ 0) ∧
    ¬ f64Magnitude 0x380FFFFFF0000000 < 0x380FFFFFF0000000 ∧ (ctxOfMxcsr 0x1F80).um = true := by decide

/-- The smallest denormal, a negative zero, the largest finite single and a quiet NaN. -/
theorem test_witness_RoundTripThroughDouble :
    (isSNaN32 0x00000001 = false ∧ isSNaN32 0x80000000 = false ∧ isSNaN32 0x7F7FFFFF = false ∧
      isSNaN32 0xFFC00001 = false) ∧
    widenF32 0x00000001 = 0x36A0000000000000 ∧ (ctxOfMxcsr 0x1F80).ftz = false := by decide +kernel

theorem test_witness_ConversionIsMonotone :
    (ctxOfMxcsr 0x1F80).allMasked = true ∧ isNaN64 0xFFF0000000000000 = false ∧ isNaN64 0x7FF0000000000000 = false ∧
    f64Key 0xFFF0000000000000 ≤ f64Key 0x7FF0000000000000 ∧ f64Key 0x8000000000000000 ≤ f64Key 0 := by decide

theorem test_witness_NearestIsNearestEven :
    (ctxOfMxcsr 0x1F80).allMasked = true ∧ (ctxOfMxcsr 0x1F80).rc = .nearest ∧
    f64Magnitude 0x47EFFFFFEFFFFFFF < 0x47EFFFFFF0000000 ∧ f64Exp 0x47EFFFFFEFFFFFFF ≠ 0 ∧
    isFinite32 0x7F7FFFFF = true := by decide

/-- Toward −∞ of a positive source (toward zero) and of a negative one (away), each at the edge of its range. -/
theorem test_witness_DirectedRoundingIsTight :
    (ctxOfMxcsr 0x3F80).allMasked = true ∧ (ctxOfMxcsr 0x3F80).rc = .down ∧
    (isFinite64 0x7FEFFFFFFFFFFFFF = true ∧ roundsAway .down (f64Sign 0x7FEFFFFFFFFFFFFF) = false) ∧
    (isFinite64 0xC7EFFFFFE0000000 = true ∧ roundsAway .down (f64Sign 0xC7EFFFFFE0000000) = true ∧
      f64Magnitude 0xC7EFFFFFE0000000 = 0x47EFFFFFE0000000) := by decide

/-- 2^−149 is exact, 2^−150 is not. -/
theorem test_witness_PrecisionFlagMeansInexact :
    (ctxOfMxcsr 0x1F80).allMasked = true ∧ isFinite64 0x36A0000000000000 = true ∧
    (cvtF64ToF32 0x36A0000000000000 (ctxOfMxcsr 0x1F80)).post.pe = false ∧
    f32Scaled 0x00000001 = exactScaled 0x36A0000000000000 ∧
    (cvtF64ToF32 0x3690000000000000 (ctxOfMxcsr 0x1F80)).post.pe = true := by decide +kernel

theorem test_witness_SignKindAndFlagsOfResult :
    (ctxOfMxcsr 0x9F80).om = true ∧ (ctxOfMxcsr 0x9F80).um = true ∧ (ctxOfMxcsr 0x9F80).ftz = true := by decide

/-- The premise of the rounding statement: a denominator and a magnitude that are not zero. -/
theorem test_witness_RoundingWithUnboundedExponent : (0 < 1 ∧ (1 : Nat) ≠ 0) ∧ roundInt 3 2 .nearest false = (2, true) ∧
    roundUnbounded 0x1FFFFFF .nearest false = ⟨25, 2 ^ 23, true⟩ := by decide

theorem test_witness_EveryStepKeepsTheInvariant :
    (running [0xC5, 0xF9, 0x5A, 0xCA]).Inv ∧ ∃ t, step (running [0xC5, 0xF9, 0x5A, 0xCA]) = .next t :=
  ⟨⟨by decide +kernel, by decide +kernel, by decide +kernel, by decide +kernel, by decide +kernel⟩,
    exists_next (by decide +kernel)⟩

end Sys2Proof.Tests
end

section
/-!
What an instruction that completes does, for all thirteen at once: its next state (`nextState`), the frame of it, the
elements of its destination, and that it keeps the invariant. From these: the invariant of the machine over a step
(O58), and the EVEX.512 forms (O20, O21).
-/

namespace Sys2Proof

/-! ### Widths: MAXVL (R6, R20) and the address width (R13, R28) -/

theorem MaxVL.bits_le (v : MaxVL) : v.bits ≤ 512 := by
  cases v <;> decide

theorem MaxVL.mask_getLsbD (v : MaxVL) (k : Nat) (hk : k < 512) : v.mask.getLsbD k = decide (k < v.bits) := by
  rw [MaxVL.mask, BitVec.getLsbD_ofNat, Nat.testBit_two_pow_sub_one]
  simp [hk]

theorem Mode.wrapAddress_idem (m : Mode) (a : Word) : m.wrapAddress (m.wrapAddress a) = m.wrapAddress a := by
  cases m with
  | m64 => rfl
  | m32 => simp [Mode.wrapAddress]

/-- Where R6 holds, the 512-bit forms find registers of 512 bits. -/
theorem Config.maxvl_of_available {c : Config} {f : Form} (hw : c.wf = true) (hf : f.kl = 8)
    (ha : c.available f = true) : c.maxvl.bits = 512 := by
  have hav : (c.fAVX512F || c.fAVX10_1) = true := by
    cases f with
    | evex512 | evex512Er => exact ha
    | _ => exact absurd hf (by decide)
  simp only [Config.wf, hav, Bool.and_eq_true] at hw
  obtain ⟨-, h512⟩ := hw
  simpa using h512

end Sys2Proof

namespace Sys2Proof.Machine

/-! ### Exception flags and MXCSR (R26, R119) -/

/-- The flags stand in bits 5:0. -/
theorem FpFlags.bits_ushiftRight_six (f : FpFlags) : f.bits >>> 6 = 0#32 := by
  obtain ⟨ie, de, oe, ue, pe⟩ := f
  revert ie de oe ue pe
  decide

@[simp] theorem raiseFlags_noFlags (x : BitVec 32) : raiseFlags x noFlags = x := BitVec.or_zero

theorem raiseFlags_ushiftRight_six (x : BitVec 32) (f : FpFlags) : raiseFlags x f >>> 6 = x >>> 6 := by
  rw [raiseFlags, BitVec.ushiftRight_or_distrib, f.bits_ushiftRight_six, BitVec.or_zero]

theorem raiseFlags_ushiftRight_sixteen (x : BitVec 32) (f : FpFlags) : raiseFlags x f >>> 16 = x >>> 16 := by
  rw [BitVec.shiftRight_add _ 6 10, BitVec.shiftRight_add x 6 10, raiseFlags_ushiftRight_six]

/-- Flags are sticky: none is cleared. -/
theorem raiseFlags_and_self (x : BitVec 32) (f : FpFlags) : raiseFlags x f &&& x = x := by
  refine BitVec.eq_of_getLsbD_eq fun k _ => ?_
  rw [raiseFlags, BitVec.getLsbD_and, BitVec.getLsbD_or]
  cases x.getLsbD k with
  | false => exact Bool.and_false _
  | true => rfl

/-- MXCSR after an instruction that completes is MXCSR with some set of flags ORed in. -/
theorem mxcsrAfter_eq_raiseFlags (i : Instr) (s : State) : ∃ f, i.mxcsrAfter s = raiseFlags s.mxcsr f := by
  unfold Instr.mxcsrAfter
  split
  · exact ⟨noFlags, (raiseFlags_noFlags _).symm⟩
  · exact ⟨_, rfl⟩

/-- Every form but embedded rounding ORs in the flags that its active lanes detect (R116). -/
theorem mxcsrAfter_of_form_ne {i : Instr} {s : State} (h : i.form ≠ .evex512Er) :
    i.mxcsrAfter s = s.mxcsr ||| ((i.preFlags s).union (i.postFlags s)).bits := by
  cases i with
  | evex512Er => exact absurd rfl h
  | _ => rfl

/-! ### The elements of a destination (R12, R130 step 6, R140, R141, R156 step 8) -/

/-- MAXVL leaves alone an element that lies inside it. -/
theorem lane32_and_mask (w : Vec) (v : MaxVL) (j : Nat) (hj : 32 * (j + 1) ≤ v.bits) :
    lane32 (w &&& v.mask) j = lane32 w j := by
  have hv := v.bits_le
  refine BitVec.eq_of_getLsbD_eq fun k hk => ?_
  simp only [lane32, BitVec.getLsbD_extractLsb', BitVec.getLsbD_and, v.mask_getLsbD (32 * j + k) (by omega)]
  simp [show 32 * j + k < v.bits by omega]

/-- The legacy form keeps only bits above its elements. -/
theorem lane32_writeBack (f : Form) (old : Vec) (z : Bool) (rs : List (Option F32)) (j : Nat) (hj : j < 16)
    (hl : f = .legacy → j < 4) : lane32 (writeBack f old z rs) j = (mergeLanes old z rs)[j]?.getD 0#32 := by
  rw [← lane32_ofLanes _ j hj]
  cases f with
  | legacy =>
    have hj4 : j < 4 := hl rfl
    refine BitVec.eq_of_getLsbD_eq fun k hk => ?_
    simp [writeBack, lane32, BitVec.getLsbD_extractLsb', show 32 * j + k < 128 by omega]
  | _ => rfl

/-- Every form but the legacy one clears the bits above its elements. -/
theorem writeBack_ushiftRight (f : Form) (old : Vec) (z : Bool) (rs : List (Option F32)) (hf : f ≠ .legacy) :
    writeBack f old z rs >>> (32 * rs.length) = 0#512 := by
  have hw : writeBack f old z rs = ofLanes (mergeLanes old z rs) := by
    cases f with
    | legacy => exact absurd rfl hf
    | _ => rfl
  refine BitVec.eq_of_getLsbD_eq fun k _ => ?_
  rw [hw, BitVec.getLsbD_ushiftRight, ofLanes_getLsbD_above _ _ (by simp), BitVec.getLsbD_zero]

/-! ### The write mask (R72, R156 step 4) -/

/-- A lane is active without a write mask, or where the mask register has its bit. -/
theorem active_iff (s : State) (aaa : BitVec 3) (j : Nat) :
    s.active aaa j = true ↔ aaa = 0#3 ∨ s.k[aaa.toFin].getLsbD j = true := by
  simp [State.active, State.readK]

/-! ### The next state of an instruction -/

/-- The state after an instruction that completes (`exec_of_ready`, `exec_next`). -/
def nextState (i : Instr) (s : State) : State :=
  ((s.setZmm i.dst (writeBack i.form (s.readZmm i.dst) i.zeroing
      (convertedLanes (s.ctx i.rounding) (sourceLanes i s)))).setMxcsr (i.mxcsrAfter s)).setRip (s.nextIp i.len)

/-- An instruction that completes gives this one state. -/
theorem exec_next {i : Instr} {s t : State} (h : exec i s = .next t) : t = nextState i s := by
  have h' := exec_of_ready (ready_of_exec_next h)
  rw [h] at h'
  injection h'

@[simp] theorem nextState_cfg (i : Instr) (s : State) : (nextState i s).cfg = s.cfg := rfl
@[simp] theorem nextState_mem (i : Instr) (s : State) : (nextState i s).mem = s.mem := rfl
@[simp] theorem nextState_mxcsr (i : Instr) (s : State) : (nextState i s).mxcsr = i.mxcsrAfter s := rfl
@[simp] theorem nextState_rip (i : Instr) (s : State) : (nextState i s).rip = s.nextIp i.len := rfl

theorem nextState_zmm_other (i : Instr) (s : State) {n : Fin 32} (hn : n ≠ i.dst) :
    (nextState i s).zmm[n] = s.zmm[n] :=
  State.setZmm_zmm_other s _ hn

theorem nextState_readZmm_dst (i : Instr) (s : State) :
    (nextState i s).readZmm i.dst =
      writeBack i.form (s.readZmm i.dst) i.zeroing (convertedLanes (s.ctx i.rounding) (sourceLanes i s)) &&&
        s.cfg.maxvl.mask := by
  simp [nextState]

/-- Whatever instruction completes, its frame holds (R33). -/
theorem frame_nextState (i : Instr) (s : State) : Frame i.dst s (nextState i s) := by
  obtain ⟨f, hf⟩ := mxcsrAfter_eq_raiseFlags i s
  exact
    { else_ := ⟨rfl, rfl, rfl, rfl, rfl, rfl, rfl, rfl, fun _ => rfl, rfl⟩
      zmm := fun n hn => nextState_zmm_other i s hn
      mxcsrHigh := by rw [nextState_mxcsr, hf, raiseFlags_ushiftRight_six]
      mxcsrSticky := by rw [nextState_mxcsr, hf, raiseFlags_and_self] }

/-- Element `j` of the destination after an instruction that completes, in registers that have the element. -/
theorem lane32_nextState (i : Instr) (s : State) (j : Nat) (hj : j < i.form.kl)
    (hw : 32 * i.form.kl ≤ s.cfg.maxvl.bits) :
    lane32 ((nextState i s).readZmm i.dst) j =
      if i.activeLane s j then (i.lane s j).r
      else if i.zeroing then 0#32 else lane32 (s.readZmm i.dst) j := by
  have hv := s.cfg.maxvl.bits_le
  have hl : i.form = .legacy → j < 4 := fun h => by
    rw [h, show Form.legacy.kl = 2 from rfl] at hj
    omega
  rw [nextState_readZmm_dst, lane32_and_mask _ _ _ (by omega), lane32_writeBack _ _ _ _ _ (by omega) hl, sourceLanes,
    mergeLanes_converted _ _ _ _ _ _ _ hj]
  rfl

/-- Above its elements the destination is zero, but for the legacy form. -/
theorem nextState_readZmm_ushiftRight (i : Instr) (s : State) (hf : i.form ≠ .legacy) :
    (nextState i s).readZmm i.dst >>> (32 * i.form.kl) = 0#512 := by
  have h := writeBack_ushiftRight i.form (s.readZmm i.dst) i.zeroing
    (convertedLanes (s.ctx i.rounding) (sourceLanes i s)) hf
  rw [convertedLanes_length, sourceLanes, activeLanes_length] at h
  rw [nextState_readZmm_dst, BitVec.ushiftRight_and_distrib, sourceLanes, h, BitVec.zero_and]

/-! ### The invariant -/

/-- No register has a bit at or above MAXVL after a write, if none had before. -/
theorem setZmm_zmm_and_mask {s : State} (h : ∀ n : Fin 32, s.zmm[n] &&& s.cfg.maxvl.mask = s.zmm[n]) (d : Fin 32)
    (v : Vec) (n : Fin 32) : (s.setZmm d v).zmm[n] &&& s.cfg.maxvl.mask = (s.setZmm d v).zmm[n] := by
  by_cases hn : n = d
  · subst hn
    simp [BitVec.and_assoc]
  · rw [State.setZmm_zmm_other s v hn, h n]

/-- Every instruction that completes keeps the invariant. -/
theorem nextState_inv (i : Instr) {s : State} (h : s.Inv) : (nextState i s).Inv := by
  obtain ⟨f, hf⟩ := mxcsrAfter_eq_raiseFlags i s
  exact
    { mem := h.mem
      mxcsr := by rw [nextState_mxcsr, hf, raiseFlags_ushiftRight_sixteen, h.mxcsr]
      zmm := setZmm_zmm_and_mask h.zmm i.dst _
      rip := s.cfg.mode.wrapAddress_idem _
      cfg := h.cfg }

/-- A step that gives a state stays at END or completes the instruction fetched. -/
theorem step_next {s t : State} (h : step s = .next t) :
    (s.fetch = .done ∧ t = s) ∨ ∃ i, s.fetch = .instr i ∧ exec i s = .next t := by
  unfold step at h
  split at h
  next hd => injection h with h; exact .inl ⟨hd, h.symm⟩
  next i hi => exact .inr ⟨i, hi, h⟩
  next e _ => cases e <;> cases h

/-- Settles O58: the two ways a step can go on, each of which keeps the invariant. -/
theorem everyStepKeepsTheInvariant : Obligations.EveryStepKeepsTheInvariant := by
  intro s t hs hstep
  obtain ⟨-, rfl⟩ | ⟨i, -, hi⟩ := step_next hstep
  · exact hs
  · rw [exec_next hi]
    exact nextState_inv i hs

/-! ### The EVEX.512 forms -/

/-- An enabled form of eight elements has registers that hold them, where R6 holds. -/
theorem maxvl_of_enabled {s : State} {f : Form} (hw : s.cfg.wf = true) (hf : f.kl = 8) (he : s.enabled f = true) :
    s.cfg.maxvl.bits = 512 := by
  simp only [State.enabled, Bool.and_eq_true] at he
  obtain ⟨⟨ha, -⟩, -⟩ := he
  exact Config.maxvl_of_available hw hf ha

theorem enabled_of_ready {i : Instr} {s : State} (h : i.ready s = true) : s.enabled i.form = true := by
  simp only [Instr.ready, Bool.and_eq_true] at h
  obtain ⟨⟨he, -⟩, -⟩ := h
  exact he

/-- What both 512-bit forms leave in the destination: eight elements, and zero above them. -/
theorem nextState_elements_of_kl_eight {i : Instr} {s : State} (hk : i.form.kl = 8) (hw : s.cfg.wf = true)
    (he : s.enabled i.form = true) :
    (∀ j, j < 8 → lane32 ((nextState i s).readZmm i.dst) j =
      if i.aaa = 0#3 ∨ s.k[i.aaa.toFin].getLsbD j = true then (i.lane s j).r
      else if i.zeroing then 0#32 else lane32 (s.readZmm i.dst) j) ∧
    (nextState i s).readZmm i.dst >>> 256 = 0#512 := by
  have hv : s.cfg.maxvl.bits = 512 := maxvl_of_enabled hw hk he
  have hl : i.form ≠ .legacy := fun h => absurd (h ▸ hk) (by decide)
  refine ⟨fun j hj => ?_, ?_⟩
  · rw [lane32_nextState i s j (by omega) (by omega), Instr.activeLane]
    simp only [active_iff]
  · simpa only [hk] using nextState_readZmm_ushiftRight i s hl

/-- Settles O20: a ready instruction goes to `nextState`, whose elements, flags and frame are known for every form. -/
theorem evex512FormCompletes : Obligations.Evex512FormCompletes := by
  intro i s hf hw hr
  obtain ⟨hlanes, habove⟩ :=
    nextState_elements_of_kl_eight (i := i) (by rw [hf]; rfl) hw (enabled_of_ready hr)
  exact ⟨nextState i s, exec_of_ready hr, hlanes, habove, mxcsrAfter_of_form_ne (by rw [hf]; decide), rfl,
    frame_nextState i s⟩

/-- Embedded rounding is ready whenever it is enabled: its source is a register, and it detects no exception (R117). -/
theorem evex512Er_ready {s : State} (he : s.enabled .evex512Er = true) (pfx : List Prefix) (e : Evex) (rc : Rounding)
    (reg rm : BitVec 3) : (Instr.evex512Er pfx e rc reg rm).ready s = true := by
  have hsrc : s.sourceReady .evex512Er e.aaa (.reg (vecNum e.x e.b rm)) = true := rfl
  have hexc : (Instr.evex512Er pfx e rc reg rm).unmaskedDetected s = false := rfl
  rw [Instr.ready, hexc, Bool.and_eq_true, Bool.and_eq_true]
  exact ⟨⟨he, hsrc⟩, rfl⟩

/-- Settles O21: it is always ready, and its lanes convert in the context of embedded rounding. -/
theorem embeddedRoundingCompletes : Obligations.EmbeddedRoundingCompletes := by
  intro pfx e rc reg rm s hw he
  obtain ⟨hlanes, habove⟩ :=
    nextState_elements_of_kl_eight (i := .evex512Er pfx e rc reg rm) rfl hw he
  exact ⟨nextState (.evex512Er pfx e rc reg rm) s, exec_of_ready (evex512Er_ready he pfx e rc reg rm), hlanes, habove,
    rfl, rfl, frame_nextState (.evex512Er pfx e rc reg rm) s⟩

end Sys2Proof.Machine
end

section
/-!
What decoding consumes and what it answers in 32-bit mode; then what a step answers for every decoding (O10, O12) and that
execution is sequential (O14), the frame and completion with every exception masked (O22, O23), the parts of the state
that no instruction sees (O31 to O33, O35, O36, O38), 32-bit mode (O8), and the registers at launch (O60).
-/

namespace Sys2Proof

/-! ### What decoding consumes (30_encoding.md R60, R76) -/

theorem Instr.len_eq_size (i : Instr) : i.len = i.size := by
  cases i with
  | cvtpd2ps => exact Laws.EncodedLength.cvtpd2ps ..
  | cvtpd2psRex => exact Laws.EncodedLength.cvtpd2psRex ..
  | vex128C5 => exact Laws.EncodedLength.vex128C5 ..
  | vex128C4 => exact Laws.EncodedLength.vex128C4 ..
  | vex256C5 => exact Laws.EncodedLength.vex256C5 ..
  | vex256C4 => exact Laws.EncodedLength.vex256C4 ..
  | evex512Er => exact Laws.EncodedLength.evex512Er ..
  | evex128 => exact Laws.EncodedLength.evex128 ..
  | evex128Bcst => exact Laws.EncodedLength.evex128Bcst ..
  | evex256 => exact Laws.EncodedLength.evex256 ..
  | evex256Bcst => exact Laws.EncodedLength.evex256Bcst ..
  | evex512 => exact Laws.EncodedLength.evex512 ..
  | evex512Bcst => exact Laws.EncodedLength.evex512Bcst ..

/-! #### The scan of prefixes, case by case -/

theorem scanPrefixes_legacy {b : Byte} {p : Prefix} (h : legacyPrefix b = some p) (m : Mode) (bs : List Byte) :
    scanPrefixes m (b :: bs) = (p :: (scanPrefixes m bs).1, (scanPrefixes m bs).2) := by
  conv_lhs => unfold scanPrefixes
  rw [h]

/-- A REX byte is dropped where one of the legacy prefixes follows (R62). -/
theorem scanPrefixes_droppedRex {b c : Byte} {rex : Rex} (hl : legacyPrefix b = none) (hr : rexOf b = some rex)
    (hc : (legacyPrefix c).isSome = true) (bs : List Byte) :
    scanPrefixes .m64 (b :: c :: bs) =
      (.droppedRex rex :: (scanPrefixes .m64 (c :: bs)).1, (scanPrefixes .m64 (c :: bs)).2) := by
  conv_lhs => unfold scanPrefixes
  simp only [hl, hr, hc, if_true]

/-- Any other REX byte is in force, and ends the scan. -/
theorem scanPrefixes_rex {b : Byte} {rex : Rex} (hl : legacyPrefix b = none) (hr : rexOf b = some rex)
    {bs : List Byte} (hbs : ∀ c ∈ bs.head?, legacyPrefix c = none) :
    scanPrefixes .m64 (b :: bs) = ([], some rex, bs) := by
  unfold scanPrefixes
  cases bs with
  | nil => simp only [hl, hr]
  | cons c bs => simp [hl, hr, hbs c rfl]

/-- Any other byte is left for the opcode, and ends the scan. -/
theorem scanPrefixes_of_opcode {m : Mode} {b : Byte} (hl : legacyPrefix b = none)
    (hr : m = .m32 ∨ rexOf b = none) (bs : List Byte) : scanPrefixes m (b :: bs) = ([], none, b :: bs) := by
  unfold scanPrefixes
  obtain rfl | hr := hr
  · rw [hl]
  · cases m with
    | m32 => rw [hl]
    | m64 => rw [hl, hr]

/-- Every byte stands for one of the prefixes, is the REX byte in force, or is left for the opcode (R76 steps 1 and 2). -/
theorem scanPrefixes_length (m : Mode) (bs : List Byte) :
    (scanPrefixes m bs).1.length + (scanPrefixes m bs).2.1.toList.length + (scanPrefixes m bs).2.2.length =
      bs.length := by
  induction bs with
  | nil => rfl
  | cons b bs ih =>
    rw [List.length_cons, ← ih]
    cases hl : legacyPrefix b with
    | some p =>
      rw [scanPrefixes_legacy hl]
      simp only [List.length_cons]
      omega
    | none =>
      by_cases hr : m = .m32 ∨ rexOf b = none
      · rw [scanPrefixes_of_opcode hl hr, ih]; simp
      · obtain ⟨rfl, rex, hrex⟩ : m = .m64 ∧ ∃ rex, rexOf b = some rex := by
          obtain ⟨hm, hrex⟩ := not_or.1 hr
          refine ⟨?_, Option.ne_none_iff_exists'.1 hrex⟩
          cases m with
          | m64 => rfl
          | m32 => exact absurd rfl hm
        by_cases hbs : ∀ c ∈ bs.head?, legacyPrefix c = none
        · rw [scanPrefixes_rex hl hrex hbs, ih]; simp [Nat.add_comm]
        · cases bs with
          | nil => simp at hbs
          | cons c bs =>
            have hc : (legacyPrefix c).isSome = true := by
              simpa [Option.ne_none_iff_isSome] using hbs
            rw [scanPrefixes_droppedRex hl hrex hc]
            simp only [List.length_cons]
            omega

/-! #### The ModRM operand and the opcode -/

theorem parseDisp_size {mod : BitVec 2} {reg reg' : BitVec 3} {mk : Disp → MemOperand} {bs rest : List Byte}
    {rm : RegMem} {k : Nat} (hmk : ∀ d, (mk d).size = k + d.size) (h : parseDisp mod reg mk bs = .ok reg' rm rest) :
    rm.size + rest.length = k + bs.length := by
  unfold parseDisp at h
  split_ifs at h
  · cases h
    simp [RegMem.size, hmk, Disp.size]
  · split at h <;> cases h
    simp [RegMem.size, hmk, Disp.size]; omega
  · split at h <;> cases h
    simp [RegMem.size, hmk, Disp.size]; omega

theorem parseDisp32_size {reg reg' : BitVec 3} {mk : BitVec 32 → MemOperand} {bs rest : List Byte} {rm : RegMem}
    {k : Nat} (hmk : ∀ v, (mk v).size = k + 4) (h : parseDisp32 reg mk bs = .ok reg' rm rest) :
    rm.size + rest.length = k + bs.length := by
  unfold parseDisp32 at h
  split at h <;> cases h
  simp [RegMem.size, hmk]; omega

/-- ModRM, SIB and displacement are the bytes that R60 counts (R76 step 4). -/
theorem parseModRM_size {a16 : Bool} {bs rest : List Byte} {reg : BitVec 3} {rm : RegMem}
    (h : parseModRM a16 bs = .ok reg rm rest) : 1 + rm.size + rest.length = bs.length := by
  cases bs with
  | nil => cases h
  | cons modrm bs =>
    rw [List.length_cons]
    simp only [parseModRM] at h
    split_ifs at h
    · cases h
      simp [RegMem.size]; omega
    · cases bs with
      | nil => cases h
      | cons sib bs =>
        rw [List.length_cons]
        simp only at h
        split_ifs at h
        · have := parseDisp32_size (k := 1) (fun _ => rfl) h; omega
        · have := parseDisp_size (k := 1) (fun _ => rfl) h; omega
    · have := parseDisp32_size (k := 0) (fun _ => rfl) h; omega
    · have := parseDisp_size (k := 0) (fun _ => (Nat.zero_add _).symm) h; omega

/-- The opcode result stands for instructions as long as the bytes it took, the prefixes, the REX byte and the ModRM
operand, and of at least 4 bytes. -/
def OpcodeResult.Counts (n : Nat) : OpcodeResult → Prop
  | .form ud build rest => ud = false → ∀ reg rm i, build reg rm = some i →
      i.size + rest.length = n + 1 + rm.size ∧ 4 ≤ i.size
  | _ => True

theorem opcodeLegacy_counts (pfx : List Prefix) (rex : Option Rex) (bs : List Byte) :
    (opcodeLegacy pfx rex bs).Counts (pfx.length + rex.toList.length + (bs.length + 1)) := by
  cases bs with
  | nil => trivial
  | cons op rest =>
    simp only [opcodeLegacy]
    split_ifs with hop hpfx
    · trivial
    · trivial
    · intro _ reg rm i hi
      have hlen : 0 < pfx.length := List.length_pos_of_ne_nil fun h => hpfx (by rw [h]; rfl)
      cases rex <;> cases hi <;> simp only [Instr.size, List.length_cons, Option.toList, List.length_nil] <;> omega

/-- A REX byte in force is not accepted before VEX or EVEX. -/
theorem rex_eq_none_of_badVexPrefix {pfx : List Prefix} {rex : Option Rex} (h : badVexPrefix pfx rex = false) :
    rex = none := by
  simp only [badVexPrefix, Bool.or_eq_false_iff] at h
  exact Option.not_isSome_iff_eq_none.1 (by rw [h.2]; decide)

theorem opcodeC5_counts (m : Mode) (pfx : List Prefix) (rex : Option Rex) (bs : List Byte) :
    (opcodeC5 m pfx rex bs).Counts (pfx.length + rex.toList.length + (bs.length + 1)) := by
  match bs with
  | [] => trivial
  | [v1] => simp only [opcodeC5]; split_ifs <;> trivial
  | v1 :: op :: rest =>
    simp only [opcodeC5]
    split_ifs
    iterate 3 trivial
    all_goals
      intro hud reg rm i hi
      obtain rfl := rex_eq_none_of_badVexPrefix (Bool.or_eq_false_iff.1 hud).1
      cases hi
      simp only [Instr.size, List.length_cons, Option.toList, List.length_nil]
      omega

theorem opcodeC4_counts (m : Mode) (pfx : List Prefix) (rex : Option Rex) (bs : List Byte) :
    (opcodeC4 m pfx rex bs).Counts (pfx.length + rex.toList.length + (bs.length + 1)) := by
  match bs with
  | [] => trivial
  | [v1] | [v1, v2] => simp only [opcodeC4]; split_ifs <;> trivial
  | v1 :: v2 :: op :: rest =>
    simp only [opcodeC4]
    split_ifs
    iterate 3 trivial
    all_goals
      intro hud reg rm i hi
      obtain rfl := rex_eq_none_of_badVexPrefix (Bool.or_eq_false_iff.1 hud).1
      cases hi
      simp only [Instr.size, List.length_cons, Option.toList, List.length_nil]
      omega

theorem evexForm_size {pfx : List Prefix} {e : Evex} {b : Bool} {ll : BitVec 2} {reg : BitVec 3} {rm : RegMem}
    {i : Instr} (h : evexForm pfx e b ll reg rm = some i) : i.size = pfx.length + 6 + rm.size := by
  unfold evexForm at h
  split at h
  · cases h; rfl
  · split_ifs at h <;> cases h <;> rfl
  · split_ifs at h <;> cases h <;> rfl

theorem opcode62_counts (m : Mode) (pfx : List Prefix) (rex : Option Rex) (bs : List Byte) :
    (opcode62 m pfx rex bs).Counts (pfx.length + rex.toList.length + (bs.length + 1)) := by
  match bs with
  | [] => trivial
  | [p0] | [p0, p1] | [p0, p1, p2] => simp only [opcode62]; split_ifs <;> trivial
  | p0 :: p1 :: p2 :: op :: rest =>
    simp only [opcode62]
    split_ifs
    iterate 3 trivial
    intro hud reg rm i hi
    simp only [Bool.or_eq_false_iff] at hud
    obtain ⟨⟨⟨⟨⟨⟨hbad, -⟩, -⟩, -⟩, -⟩, -⟩, -⟩ := hud
    obtain rfl := rex_eq_none_of_badVexPrefix hbad
    rw [evexForm_size hi]
    simp only [List.length_cons, Option.toList, List.length_nil]
    omega

theorem parseOpcode_counts (m : Mode) (pfx : List Prefix) (rex : Option Rex) (bs : List Byte) :
    (parseOpcode m pfx rex bs).Counts (pfx.length + rex.toList.length + bs.length) := by
  cases bs with
  | nil => trivial
  | cons b rest =>
    simp only [parseOpcode]
    split_ifs
    · exact opcodeLegacy_counts pfx rex rest
    · exact opcodeC5_counts m pfx rex rest
    · exact opcodeC4_counts m pfx rex rest
    · exact opcode62_counts m pfx rex rest
    · trivial

/-- The way to an instruction: a form with no `#UD` held back, its ModRM operand, at most 15 bytes (R76). -/
theorem decode_eq_instr {m : Mode} {bytes rest : List Byte} {i : Instr} (h : decode m bytes = .instr i rest) :
    ∃ build rest' reg rm,
      parseOpcode m (scanPrefixes m bytes).1 (scanPrefixes m bytes).2.1 (scanPrefixes m bytes).2.2 =
        .form false build rest' ∧
      parseModRM (m == .m32 && (scanPrefixes m bytes).1.contains .addrSize) rest' = .ok reg rm rest ∧
      build reg rm = some i ∧ bytes.length - rest.length ≤ 15 := by
  simp only [decode] at h
  split at h
  iterate 3 cases h
  next ud build rest' hop =>
    split at h
    iterate 2 cases h
    next reg rm rest'' hrm =>
      split_ifs at h with hlen hud
      split at h
      · cases h
      · cases h
        rw [Bool.not_eq_true] at hud
        subst hud
        exact ⟨build, rest', reg, rm, hop, hrm, ‹_›, Nat.not_lt.1 hlen⟩

/-- A decoded instruction is as long as the bytes taken, and has 4 to 15 (R60). -/
theorem decode_len {m : Mode} {bytes rest : List Byte} {i : Instr} (h : decode m bytes = .instr i rest) :
    i.len + rest.length = bytes.length ∧ 4 ≤ i.len ∧ i.len ≤ 15 := by
  obtain ⟨build, rest', reg, rm, hop, hrm, hi, h15⟩ := decode_eq_instr h
  have hcounts := parseOpcode_counts m (scanPrefixes m bytes).1 (scanPrefixes m bytes).2.1 (scanPrefixes m bytes).2.2
  rw [hop, scanPrefixes_length] at hcounts
  obtain ⟨hsize, h4⟩ := hcounts rfl reg rm i hi
  have hmodrm := parseModRM_size hrm
  rw [i.len_eq_size]
  omega

/-! ### Prefixes and their bytes (30_encoding.md R61, R62, R76) -/

theorem legacyPrefix_toByte {p : Prefix} (h : p.isLegacy = true) : legacyPrefix p.toByte = some p := by
  cases p with
  | seg g => cases g <;> rfl
  | droppedRex => cases h
  | _ => rfl

/-- The bytes 40 to 4F are no legacy prefixes. -/
theorem legacyPrefix_rex (r : Rex) : legacyPrefix r.toByte = none := by
  obtain ⟨w, r, x, b⟩ := r
  revert w r x b
  decide

theorem rexOf_toByte (r : Rex) : rexOf r.toByte = some r := by
  obtain ⟨w, r, x, b⟩ := r
  revert w r x b
  decide

/-- The bytes of prefixes that the mode scans as such are scanned as these prefixes, whatever follows. -/
theorem scanPrefixes_append {m : Mode} (bs : List Byte) : ∀ {pfx : List Prefix}, prefixesScan m pfx = true →
    scanPrefixes m (pfx.map Prefix.toByte ++ bs) = (pfx ++ (scanPrefixes m bs).1, (scanPrefixes m bs).2)
  | [], _ => rfl
  | p :: ps, h => by
    rw [List.map_cons, List.cons_append]
    by_cases hp : p.isLegacy = true
    · have hps : prefixesScan m ps = true := by
        cases p with
        | droppedRex => cases hp
        | _ => exact h
      rw [scanPrefixes_legacy (legacyPrefix_toByte hp), scanPrefixes_append bs hps, List.cons_append]
    · obtain ⟨rex, rfl⟩ : ∃ rex, p = .droppedRex rex := by
        cases p with
        | droppedRex rex => exact ⟨rex, rfl⟩
        | _ => exact absurd rfl hp
      simp only [prefixesScan, Bool.and_eq_true, beq_iff_eq] at h
      obtain ⟨⟨rfl, hnext⟩, hps⟩ := h
      cases ps with
      | nil => cases hnext
      | cons q qs =>
        have ih := scanPrefixes_append bs hps
        have hq : (legacyPrefix q.toByte).isSome = true := by rw [legacyPrefix_toByte hnext]; rfl
        rw [List.map_cons, List.cons_append] at ih ⊢
        exact (scanPrefixes_droppedRex (legacyPrefix_rex rex) (rexOf_toByte rex) hq _).trans (by rw [ih]; rfl)

theorem scanPrefixes_append_opcode {m : Mode} {pfx : List Prefix} (hp : prefixesScan m pfx = true) {b : Byte}
    (hl : legacyPrefix b = none) (hr : m = .m32 ∨ rexOf b = none) (bs : List Byte) :
    scanPrefixes m (pfx.map Prefix.toByte ++ b :: bs) = (pfx, none, b :: bs) := by
  rw [scanPrefixes_append _ hp, scanPrefixes_of_opcode hl hr, List.append_nil]

/-! ### Decoding in 32-bit mode (30_encoding.md R80; 20_memory.md R47) -/

theorem vecNum_lt_eight (lo : BitVec 3) : (Machine.vecNum false false lo).val < 8 := by
  revert lo
  decide

/-- In M32 an EVEX encoding has no extension bit set (R80). -/
theorem Evex.extension_of_wf_m32 {e : Evex} (h : e.wf .m32 = true) :
    e.r = false ∧ e.x = false ∧ e.b = false ∧ e.rHi = false := by
  rw [Evex.wf, Bool.and_eq_true] at h
  obtain ⟨hext, -⟩ := h
  simpa [and_assoc] using hext

theorem Vex3.extension_of_wf_m32 {v : Vex3} (h : v.wf .m32 = true) : v.r = false ∧ v.x = false ∧ v.b = false := by
  simpa [Vex3.wf, and_assoc] using h

/-- A register operand with no extension bit set. -/
theorem source_reg_low {s : Machine.State} {f : Form} {pfx : List Prefix} {x b : Bool} {len : Nat} {rm : RegMem}
    {n : Fin 32} (hx : x = false) (hb : b = false) (h : s.source f pfx x b len rm = .reg n) :
    ∃ lo, n = Machine.vecNum false false lo := by
  subst hx hb
  cases rm with
  | reg r =>
    rw [Machine.State.source, Bool.and_false] at h
    cases h
    exact ⟨r, rfl⟩
  | mem m => cases h

/-- In M32 the vector registers of an instruction are named by the three bits of ModRM alone. -/
theorem Instr.registers_of_shapeWf_m32 {i : Instr} (h : i.shapeWf .m32 = true) :
    (∃ lo, i.dst = Machine.vecNum false false lo) ∧
    ∀ s n, i.source s = .reg n → ∃ lo, n = Machine.vecNum false false lo := by
  cases i with
  | cvtpd2ps p reg rm => exact ⟨⟨reg, rfl⟩, fun _ _ hs => source_reg_low rfl rfl hs⟩
  | cvtpd2psRex p rex reg rm => cases h
  | vex128C5 p r reg rm | vex256C5 p r reg rm =>
    simp only [Instr.shapeWf, Bool.and_eq_true] at h
    obtain ⟨⟨⟨hr, -⟩, -⟩, -⟩ := h
    obtain rfl : r = false := by simpa using hr
    exact ⟨⟨reg, rfl⟩, fun _ _ hs => source_reg_low rfl rfl hs⟩
  | vex128C4 p v reg rm | vex256C4 p v reg rm =>
    simp only [Instr.shapeWf, Bool.and_eq_true] at h
    obtain ⟨⟨⟨hv, -⟩, -⟩, -⟩ := h
    obtain ⟨hr, hx, hb⟩ := Vex3.extension_of_wf_m32 hv
    exact ⟨⟨reg, by rw [Instr.dst, hr]⟩, fun _ _ hs => source_reg_low hx hb hs⟩
  | evex512Er p e rc reg rm =>
    simp only [Instr.shapeWf, Bool.and_eq_true] at h
    obtain ⟨he, -⟩ := h
    obtain ⟨hr, hx, hb, hrHi⟩ := Evex.extension_of_wf_m32 he
    refine ⟨⟨reg, by rw [Instr.dst, hr, hrHi]⟩, fun s n hs => ⟨rm, ?_⟩⟩
    rw [Instr.source, hx, hb] at hs
    cases hs
    rfl
  | evex128 p e reg rm | evex256 p e reg rm | evex512 p e reg rm =>
    simp only [Instr.shapeWf, Bool.and_eq_true] at h
    obtain ⟨⟨⟨he, -⟩, -⟩, -⟩ := h
    obtain ⟨hr, hx, hb, hrHi⟩ := Evex.extension_of_wf_m32 he
    exact ⟨⟨reg, by rw [Instr.dst, hr, hrHi]⟩, fun _ _ hs => source_reg_low hx hb hs⟩
  | evex128Bcst p e reg m | evex256Bcst p e reg m | evex512Bcst p e reg m =>
    simp only [Instr.shapeWf, Bool.and_eq_true] at h
    obtain ⟨⟨⟨he, -⟩, -⟩, -⟩ := h
    obtain ⟨hr, -, -, hrHi⟩ := Evex.extension_of_wf_m32 he
    exact ⟨⟨reg, by rw [Instr.dst, hr, hrHi]⟩, fun _ _ hs => by cases hs⟩

/-! #### Verdicts, from what step 3 of R76 finds -/

theorem decode_otherInstruction {m : Mode} {bytes body : List Byte} {pfx : List Prefix} {rex : Option Rex}
    (hscan : scanPrefixes m bytes = (pfx, rex, body)) (hop : parseOpcode m pfx rex body = .otherInstruction) :
    decode m bytes = .otherInstruction := by
  simp only [decode, hscan, hop]

theorem decode_extensionInM32 {m : Mode} {bytes body : List Byte} {pfx : List Prefix} {rex : Option Rex}
    (hscan : scanPrefixes m bytes = (pfx, rex, body)) (hop : parseOpcode m pfx rex body = .extensionInM32) :
    decode m bytes = .extensionInM32 := by
  simp only [decode, hscan, hop]

/-- The bytes from ModRM on, where the opcode is that of a form. -/
def OpcodeResult.operand? : OpcodeResult → Option (List Byte)
  | .form _ _ rest => some rest
  | _ => none

/-- With the byte 67 in M32 a ModRM byte of a memory operand decides, whatever `#UD` is held back (R47, log 16). -/
theorem decode_address16 {bytes body rest : List Byte} {pfx : List Prefix} {rex : Option Rex} {modrm : Byte}
    (hscan : scanPrefixes .m32 bytes = (pfx, rex, body)) (h67 : pfx.contains .addrSize = true)
    (hmod : modrm.extractLsb' 6 2 ≠ 3#2) (hop : (parseOpcode .m32 pfx rex body).operand? = some (modrm :: rest)) :
    decode .m32 bytes = .address16 := by
  cases hp : parseOpcode .m32 pfx rex body with
  | form ud build rest' =>
    rw [hp] at hop
    cases hop
    simp only [decode, hscan, hp, h67, parseModRM, hmod, if_false, beq_self_eq_true, Bool.and_self, if_true]
  | _ => rw [hp] at hop; cases hop

/-! #### The four shapes in 32-bit mode -/

/-- In M32 the byte after C4, C5 or 62 must look like a ModRM byte with a register operand (R80). -/
theorem parseOpcode_m32_other {op v1 : Byte} (hop : op = 0xC4#8 ∨ op = 0xC5#8 ∨ op = 0x62#8)
    (hv : v1.extractLsb' 6 2 ≠ 3#2) (pfx : List Prefix) (rex : Option Rex) (rest : List Byte) :
    parseOpcode .m32 pfx rex (op :: v1 :: rest) = .otherInstruction := by
  obtain rfl | rfl | rfl := hop
  · exact if_pos ⟨rfl, hv⟩
  · exact if_pos ⟨rfl, hv⟩
  · exact if_pos ⟨rfl, hv⟩

/-- The bytes 40 to 4F are none of the opcodes. -/
theorem parseOpcode_rex (r : Rex) (m : Mode) (pfx : List Prefix) (rex : Option Rex) (rest : List Byte) :
    parseOpcode m pfx rex (r.toByte :: rest) = .otherInstruction := by
  have hne : r.toByte ≠ 0x0F#8 ∧ r.toByte ≠ 0xC5#8 ∧ r.toByte ≠ 0xC4#8 ∧ r.toByte ≠ 0x62#8 := by
    obtain ⟨w, r, x, b⟩ := r
    revert w r x b
    decide
  obtain ⟨h0F, hC5, hC4, h62⟩ := hne
  simp only [parseOpcode, h0F, hC5, hC4, h62, if_false]

theorem parseOpcode_C4_extension {v1 : Byte} (hv : v1.extractLsb' 6 2 = 3#2) (hB : v1.getLsbD 5 = false)
    (pfx : List Prefix) (rex : Option Rex) (rest : List Byte) :
    parseOpcode .m32 pfx rex (0xC4#8 :: v1 :: rest) = .extensionInM32 :=
  (if_neg fun h => h.2 hv).trans (if_pos ⟨rfl, hB⟩)

theorem parseOpcode_62_extension {p0 p1 p2 op : Byte} (hp : p0.extractLsb' 6 2 = 3#2)
    (hext : p0.getLsbD 5 = false ∨ p0.getLsbD 4 = false ∨ p2.getLsbD 3 = false)
    (pfx : List Prefix) (rex : Option Rex) (rest : List Byte) :
    parseOpcode .m32 pfx rex (0x62#8 :: p0 :: p1 :: p2 :: op :: rest) = .extensionInM32 :=
  (if_neg fun h => h.2 hp).trans (if_pos ⟨rfl, hext⟩)

theorem operand_legacy {pfx : List Prefix} (h66 : pfx.contains .opSize = true) (hF2 : pfx.contains .repne = false)
    (hF3 : pfx.contains .rep = false) (m : Mode) (rex : Option Rex) (rest : List Byte) :
    (parseOpcode m pfx rex (0x0F#8 :: 0x5A#8 :: rest)).operand? = some rest := by
  rw [parseOpcode, if_pos rfl]
  simp only [opcodeLegacy, h66, hF2, hF3]
  rfl

theorem operand_C5 {v1 : Byte} (hv : v1.extractLsb' 6 2 = 3#2) (hpp : v1.extractLsb' 0 2 = 1#2) (m : Mode)
    (pfx : List Prefix) (rex : Option Rex) (rest : List Byte) :
    (parseOpcode m pfx rex (0xC5#8 :: v1 :: 0x5A#8 :: rest)).operand? = some rest := by
  rw [parseOpcode, if_neg (by decide), if_pos rfl]
  simp only [opcodeC5, hv, hpp]
  simp [OpcodeResult.operand?]

theorem operand_C4 {v1 v2 : Byte} (hv : v1.extractLsb' 6 2 = 3#2) (hB : v1.getLsbD 5 = true)
    (hmm : v1.extractLsb' 0 5 = 1#5) (hpp : v2.extractLsb' 0 2 = 1#2) (m : Mode)
    (pfx : List Prefix) (rex : Option Rex) (rest : List Byte) :
    (parseOpcode m pfx rex (0xC4#8 :: v1 :: v2 :: 0x5A#8 :: rest)).operand? = some rest := by
  rw [parseOpcode, if_neg (by decide), if_neg (by decide), if_pos rfl]
  simp only [opcodeC4, hv, hmm, hpp, hB]
  simp [OpcodeResult.operand?]

theorem operand_62 {p0 p1 p2 : Byte} (hp : p0.extractLsb' 6 2 = 3#2) (hB : p0.getLsbD 5 = true)
    (hR : p0.getLsbD 4 = true) (hV : p2.getLsbD 3 = true) (hmmm : p0.extractLsb' 0 3 = 1#3)
    (hpp : p1.extractLsb' 0 2 = 1#2) (m : Mode) (pfx : List Prefix) (rex : Option Rex) (rest : List Byte) :
    (parseOpcode m pfx rex (0x62#8 :: p0 :: p1 :: p2 :: 0x5A#8 :: rest)).operand? = some rest := by
  rw [parseOpcode, if_neg (by decide), if_neg (by decide), if_neg (by decide), if_pos rfl]
  simp only [opcode62, hp, hmmm, hpp, hB, hR, hV]
  simp [OpcodeResult.operand?]

end Sys2Proof

namespace Sys2Proof.Machine

/-! ### Reset (R34, R200) -/

/-- Settles O60: the launch state holds the same value in every vector register, and in every opmask register. -/
theorem resetRegisterValues : Obligations.ResetRegisterValues := by
  refine ⟨rfl, fun n => ?_, fun n => ?_⟩
  · simp [State.readZmm, State.reset]
  · simp [State.readK, State.reset]

/-! ### What a step answers (R76, R189, R206) -/

/-- Before END and inside the text, what is fetched is what the bytes decode to, but for the two tests of the top of the
address space (R28, R206). -/
def fetchedOf (s : State) : DecodeResult → Fetched
  | .instr i _ => if s.ip.toNat + i.len < s.cfg.mode.addressSpace then .instr i else .stop (.refuse .addressWrap)
  | .invalid => .stop (.exception .ud)
  | .tooLong => .stop (.exception .gp)
  | .otherInstruction => .stop (.refuse .otherInstruction)
  | .extensionInM32 => .stop (.refuse .extensionInM32)
  | .address16 => .stop (.refuse .address16)
  | .truncated =>
    .stop (.refuse (if s.cfg.mode.addressSpace ≤ s.cfg.textHi then .addressWrap else .fetchOutsideText))

theorem fetch_eq_fetchedOf {s : State} (he : s.atEnd = false) (ht : s.inText = true) :
    s.fetch = fetchedOf s (decode s.cfg.mode s.fetchBytes) := by
  rw [State.fetch, he, ht]
  cases decode s.cfg.mode s.fetchBytes <;> rfl

theorem fetch_of_decode {s : State} {d : DecodeResult} (he : s.atEnd = false) (ht : s.inText = true)
    (hd : decode s.cfg.mode s.fetchBytes = d) : s.fetch = fetchedOf s d := by
  rw [fetch_eq_fetchedOf he ht, hd]

theorem step_of_fetch_stop {s : State} {e : Stop} (h : s.fetch = .stop e) : step s = e.outcome s := by
  rw [step, h]

theorem step_of_fetch_instr {s : State} {i : Instr} (h : s.fetch = .instr i) : step s = exec i s := by
  rw [step, h]

/-- Settles O10: the decoded instruction is the one fetched. -/
theorem stepRunsTheDecodedInstruction : Obligations.StepRunsTheDecodedInstruction := by
  intro s i rest he ht hd hlen
  exact step_of_fetch_instr ((fetch_of_decode he ht hd).trans (if_pos hlen))

/-- Settles O12: every other decoding is fetched as a stop, whose outcome the step answers. -/
theorem stepOnOtherDecodings : Obligations.StepOnOtherDecodings := by
  intro s he ht
  refine ⟨fun hd => ?_, fun hd => ?_, fun hd => ?_, fun hd => ?_, fun hd => ?_, fun i rest hd hlen => ?_, fun hd => ?_⟩
  case refine_6 => exact step_of_fetch_stop ((fetch_of_decode he ht hd).trans (if_neg (Nat.not_lt.2 hlen)))
  case refine_7 =>
    rw [step_of_fetch_stop (fetch_of_decode he ht hd)]
    by_cases h : s.cfg.textHi < s.cfg.mode.addressSpace
    · rw [if_pos h, if_neg (Nat.not_le.2 h)]; rfl
    · rw [if_neg h, if_pos (Nat.not_lt.1 h)]; rfl
  all_goals exact step_of_fetch_stop (fetch_of_decode he ht hd)

/-! ### The frame (R33) and masked exceptions (R25, R116) -/

/-- Settles O22: an instruction that completes goes to `nextState`, whose frame is known. -/
theorem frameOfEveryInstruction : Obligations.FrameOfEveryInstruction := by
  intro i s t h
  rw [exec_next h]
  exact ⟨frame_nextState i s, rfl⟩

theorem unmasked_of_allMasked {c : Ctx} (h : c.allMasked = true) (f : FpFlags) : c.unmasked f = false := by
  simp only [Ctx.allMasked, Bool.and_eq_true] at h
  obtain ⟨⟨⟨⟨hi, hd⟩, ho⟩, hu⟩, hp⟩ := h
  simp [Ctx.unmasked, hi, hd, ho, hu, hp]

/-- With all mask bits of MXCSR set every exception is masked, and under embedded rounding always (R104, R117). -/
theorem ctx_allMasked {s : State} (h : s.mxcsr.extractLsb' 7 6 = 0x3F#6) (er : Option Rounding) :
    (s.ctx er).allMasked = true := by
  have hbit : ∀ k, k < 6 → s.mxcsr.getLsbD (7 + k) = true := fun k hk => by
    have hx : (s.mxcsr.extractLsb' 7 6).getLsbD k = (BitVec.allOnes 6).getLsbD k := congrArg (·.getLsbD k) h
    rwa [BitVec.getLsbD_extractLsb', BitVec.getLsbD_allOnes, decide_eq_true hk, Bool.true_and] at hx
  cases er with
  | some rc => rfl
  | none =>
    simp only [Ctx.allMasked, State.ctx, ctxOfMxcsr, mxcsrIM, mxcsrDM, mxcsrOM, mxcsrUM, mxcsrPM, Bool.and_eq_true]
    exact ⟨⟨⟨⟨hbit 0 (by decide), hbit 1 (by decide)⟩, hbit 3 (by decide)⟩, hbit 4 (by decide)⟩, hbit 5 (by decide)⟩

/-- Settles O23: no unmasked exception is detected, so the instruction is ready. -/
theorem maskedExceptionsNeverStop : Obligations.MaskedExceptionsNeverStop := by
  intro i s he hs hm
  have hu : i.unmaskedDetected s = false := by
    rw [Instr.unmaskedDetected, unmasked_of_allMasked (ctx_allMasked hm i.rounding), Bool.and_false]
  have hr : i.ready s = true := by rw [Instr.ready, he, hs, hu]; rfl
  exact ⟨nextState i s, exec_of_ready hr⟩

/-! ### Reading the source, in one equation per kind of operand (R51, R52, R156 step 5) -/

/-- A memory operand in every form: alignment, address space, readability of the active lanes, then the elements. -/
theorem readSource_mem {f : Form} {aaa : BitVec 3} (hm : f.isEvex = true ∨ aaa = 0#3) (s : State) (la : Word) :
    readSource s f (.mem la) aaa =
      if f = .legacy ∧ la.toNat % 16 ≠ 0 then .error (.exception .gp)
      else if !s.inSpace la (8 * f.kl) then .error (.refuse .addressWrap)
      else if !((List.range f.kl).all fun j => !s.active aaa j || s.isReadable (la.toNat + 8 * j) 8) then
        .error (.exception .memFault)
      else .ok (activeLanes f.kl (s.active aaa) (s.sourceElement (.mem la))) := by
  by_cases he : f.isEvex = true
  · simp only [readSource, he, if_true, readLanes, memRead_element]
    rfl
  · have hact : s.active aaa = fun _ => true := by
      funext j
      simp [State.active, hm.resolve_left he]
    have hkl : f.kl ≤ 8 := by cases f <;> decide
    have hlanes : activeLanes f.kl (fun _ => true) (lane64 (memRead s.mem la.toNat (8 * f.kl))) =
        activeLanes f.kl (fun _ => true) (s.sourceElement (.mem la)) :=
      activeLanes_congr fun j hj _ => lane64_memRead s la.toNat f.kl j hkl hj
    simp only [readSource, he, if_false, readVector, isReadable_elements, hact, hlanes, Bool.not_true, Bool.false_or,
      Bool.false_eq_true]

theorem readSource_bcst (s : State) (f : Form) (aaa : BitVec 3) (la : Word) :
    readSource s f (.bcst la) aaa =
      if !s.inSpace la 8 then .error (.refuse .addressWrap)
      else if (List.range f.kl).any (s.active aaa) && !s.isReadable la.toNat 8 then .error (.exception .memFault)
      else .ok (activeLanes f.kl (s.active aaa) (s.sourceElement (.bcst la))) := by
  simp only [readSource, readBroadcast, memRead_element]
  rfl

theorem activeLanes_congr_active {kl : Nat} {p q : Nat → Bool} (x : Nat → F64) (h : ∀ j, j < kl → p j = q j) :
    activeLanes kl p x = activeLanes kl q x :=
  List.map_congr_left fun j hj => by rw [h j (List.mem_range.1 hj)]

theorem any_range_congr {kl : Nat} {p q : Nat → Bool} (h : ∀ j, j < kl → p j = q j) :
    (List.range kl).any p = (List.range kl).any q := by
  rw [Bool.eq_iff_iff, List.any_eq_true, List.any_eq_true]
  exact exists_congr fun j => and_congr_right fun hj => by rw [h j (List.mem_range.1 hj)]

theorem all_range_congr {kl : Nat} {p q : Nat → Bool} (h : ∀ j, j < kl → p j = q j) :
    (List.range kl).all p = (List.range kl).all q := by
  rw [List.all_eq_not_any_not, List.all_eq_not_any_not, any_range_congr fun j hj => by rw [h j hj]]

/-- Reading the source depends on the configuration, on which lanes are active, and on the elements of the active lanes
(R118). -/
theorem readSource_congr {s t : State} {f : Form} {src : Source} {aaa : BitVec 3} (hm : f.isEvex = true ∨ aaa = 0#3)
    (hcfg : t.cfg = s.cfg) (hact : ∀ j, j < f.kl → t.active aaa j = s.active aaa j)
    (helem : ∀ j, j < f.kl → s.active aaa j = true → t.sourceElement src j = s.sourceElement src j) :
    readSource t f src aaa = readSource s f src aaa := by
  have hspace : ∀ la n, t.inSpace la n = s.inSpace la n := fun la n => by rw [State.inSpace, hcfg]; rfl
  have hread : ∀ la n, t.isReadable la n = s.isReadable la n := fun la n => by rw [State.isReadable, hcfg]; rfl
  have hlanes : activeLanes f.kl (t.active aaa) (t.sourceElement src) =
      activeLanes f.kl (s.active aaa) (s.sourceElement src) :=
    (activeLanes_congr_active _ hact).trans (activeLanes_congr helem)
  cases src with
  | reg n => exact congrArg Except.ok hlanes
  | mem la =>
    rw [readSource_mem hm, readSource_mem hm, hspace, hlanes,
      all_range_congr fun j hj => by rw [hact j hj, hread (la.toNat + 8 * j) 8]]
  | bcst la => rw [readSource_bcst, readSource_bcst, hspace, hread, hlanes, any_range_congr hact]

/-! ### What an operand's address is formed from (R43 to R48, R64, R65) -/

/-- The source is a register that the encoding names, or the address is formed from the general registers, the
instruction pointer, FS_BASE, GS_BASE and the mode. -/
theorem source_congr {s t : State} (i : Instr) (hgpr : t.gpr = s.gpr) (hrip : t.rip = s.rip)
    (hfs : t.fsBase = s.fsBase) (hgs : t.gsBase = s.gsBase) (hcfg : t.cfg = s.cfg) : i.source t = i.source s := by
  cases s; cases t
  subst hgpr hrip hfs hgs hcfg
  cases i <;> rfl

/-- A register source is the same in every state. -/
theorem source_eq_reg {i : Instr} {s : State} {n : Fin 32} (h : i.source s = .reg n) (t : State) :
    i.source t = .reg n := by
  cases i with
  | evex512Er => exact h
  | evex128Bcst | evex256Bcst | evex512Bcst => cases h
  | cvtpd2ps _ _ rm | cvtpd2psRex _ _ _ rm | vex128C5 _ _ _ rm | vex128C4 _ _ _ rm | vex256C5 _ _ _ rm
  | vex256C4 _ _ _ rm | evex128 _ _ _ rm | evex256 _ _ _ rm | evex512 _ _ _ rm =>
    cases rm with
    | reg r => exact h
    | mem m => cases h

/-- An element in memory is its eight bytes. -/
theorem elementAt_congr {s t : State} {a : Nat} (h : ∀ b, b < 8 → t.mem.read (a + b) = s.mem.read (a + b)) :
    t.elementAt a = s.elementAt a := by
  refine BitVec.eq_of_getLsbD_eq fun k hk => ?_
  rw [elementAt_getLsbD t a k hk, elementAt_getLsbD s a k hk, h (k / 8) (by omega)]

theorem sourceElement_congr {s t : State} (hzmm : t.zmm = s.zmm) (hmem : t.mem = s.mem) (hcfg : t.cfg = s.cfg)
    (src : Source) (j : Nat) : t.sourceElement src j = s.sourceElement src j := by
  cases src <;> simp only [State.sourceElement, State.readZmm, State.elementAt, hzmm, hmem, hcfg]

/-- What an instruction reads through its source: the operand it names, which lanes are active, and their elements. -/
theorem read_congr {i : Instr} {s t : State} (hsrc : i.source t = i.source s) (hcfg : t.cfg = s.cfg)
    (hact : ∀ j, j < i.form.kl → t.active i.aaa j = s.active i.aaa j)
    (helem : ∀ j, j < i.form.kl → s.active i.aaa j = true →
      t.sourceElement (i.source s) j = s.sourceElement (i.source s) j) :
    readSource t i.form (i.source t) i.aaa = readSource s i.form (i.source s) i.aaa := by
  rw [hsrc]
  exact readSource_congr (isEvex_or_unmasked i) hcfg hact helem

/-! ### Parts of the state that an instruction does not read -/

/-- A function applied to MXCSR in the answer of a packed conversion. -/
def PackedResult.map (h : BitVec 32 → BitVec 32) : PackedResult → PackedResult
  | .results rs x => .results rs (h x)
  | .raiseXm x => .raiseXm (h x)

@[simp] theorem PackedResult.map_id (p : PackedResult) : p.map id = p := by
  cases p <;> rfl

/-- A change of MXCSR that the context does not see and that commutes with ORing in flags goes through the packed
conversion (R116, R119). -/
theorem packedConvert_map {h : BitVec 32 → BitVec 32} {m : BitVec 32}
    (hflags : ∀ f, raiseFlags (h m) f = h (raiseFlags m f)) (c : Ctx) (xs : List (Option F64)) :
    packedConvert c (h m) xs = (packedConvert c m xs).map h := by
  simp only [packedConvert_eq, hflags]
  split_ifs <;> rfl

/-- The state an execution leaves that wrote the results `rs` and MXCSR `x`. -/
def completed (i : Instr) (s : State) (rs : List (Option F32)) (x : BitVec 32) : State :=
  ((s.setZmm i.dst (writeBack i.form (s.readZmm i.dst) i.zeroing rs)).setMxcsr x).setRip (s.nextIp i.len)

/-- The change `g` of the state is not seen by the instruction `i`: the checks, the elements read and the conversion are
the same after it, and it commutes with what `i` writes. `h` is the change of MXCSR that belongs to `g`. -/
structure Unseen (i : Instr) (g : State → State) (h : BitVec 32 → BitVec 32) (s : State) : Prop where
  gate : gate i.form (g s) = gate i.form s
  read : readSource (g s) i.form (i.source (g s)) i.aaa = readSource s i.form (i.source s) i.aaa
  packed : ∀ xs, packedConvert ((g s).ctx i.rounding) (g s).mxcsr xs =
    (packedConvert (s.ctx i.rounding) s.mxcsr xs).map h
  exception : (g s).simdException = s.simdException := by rfl
  faulted : ∀ x, (g s).setMxcsr (h x) = g (s.setMxcsr x) := by intros; rfl
  completed : ∀ rs x, completed i (g s) rs (h x) = g (completed i s rs x) := by intros; rfl

theorem raise_map (x : Exc) (g : State → State) (s : State) : raise x (g s) = (raise x s).map g := by
  cases x <;> rfl

theorem Stop.outcome_map (e : Stop) (g : State → State) (s : State) :
    e.outcome (g s) = mapOutcome g (e.outcome s) := by
  cases e with
  | exception x => exact congrArg Host.Outcome.fault (raise_map x g s)
  | refuse r => rfl

/-- `exec`, by the three operations it calls in turn. -/
theorem exec_eq (i : Instr) (s : State) :
    exec i s =
      match gate i.form s with
      | .error e => e.outcome s
      | .ok _ =>
        match readSource s i.form (i.source s) i.aaa with
        | .error e => e.outcome s
        | .ok xs =>
          match packedConvert (s.ctx i.rounding) s.mxcsr xs with
          | .raiseXm x => .fault (raise s.simdException (s.setMxcsr x))
          | .results rs x => .next (completed i s rs x) := by
  rw [exec_eq_convert]
  rfl

/-- An instruction that does not see a change of the state has the outcome it had, changed likewise. -/
theorem exec_of_unseen {i : Instr} {g : State → State} {h : BitVec 32 → BitVec 32} {s : State}
    (u : Unseen i g h s) : exec i (g s) = mapOutcome g (exec i s) := by
  rw [exec_eq, exec_eq, u.gate, u.read]
  cases gate i.form s with
  | error e => exact e.outcome_map g s
  | ok _ =>
    cases readSource s i.form (i.source s) i.aaa with
    | error e => exact e.outcome_map g s
    | ok xs =>
      simp only [u.packed xs]
      cases packedConvert (s.ctx i.rounding) s.mxcsr xs with
      | raiseXm x =>
        simp only [PackedResult.map, u.exception, u.faulted, raise_map, mapOutcome]
      | results rs x => exact congrArg Host.Outcome.next (u.completed rs x)

/-- Availability depends on the configuration and on the enable bits of the form (R174, R175). -/
theorem gate_congr {s t : State} {f : Form} (hcfg : t.cfg = s.cfg) (hok : t.envOk f = s.envOk f)
    (hts : t.envTs = s.envTs) : gate f t = gate f s := by
  simp only [gate, hcfg, hok, hts]

/-- A change that leaves MXCSR alone leaves the packed conversion alone. -/
theorem packed_unchanged {s t : State} (h : t.mxcsr = s.mxcsr) (er : Option Rounding) (xs : List (Option F64)) :
    packedConvert (t.ctx er) t.mxcsr xs = (packedConvert (s.ctx er) s.mxcsr xs).map id := by
  cases er <;> simp only [State.ctx, h, PackedResult.map_id]

/-- Settles O31: no operation takes RFLAGS. -/
theorem eflagsNeitherReadNorWritten : Obligations.EflagsNeitherReadNorWritten := by
  intro i s v
  exact exec_of_unseen (g := fun t => { t with rflags := v })
    { gate := rfl
      read := read_congr (source_congr i rfl rfl rfl rfl rfl) rfl (fun _ _ => rfl)
        fun _ _ _ => sourceElement_congr rfl rfl rfl _ _
      packed := packed_unchanged rfl i.rounding }

/-- Settles O32: the register named is the same in every state, and holds the same elements. -/
theorem registerSourceTouchesNoMemory : Obligations.RegisterSourceTouchesNoMemory := by
  intro i s n g m f b hsrc
  exact exec_of_unseen (g := fun t => { t with gpr := g, mem := m, fsBase := f, gsBase := b })
    { gate := rfl
      read := read_congr ((source_eq_reg hsrc _).trans hsrc.symm) rfl (fun _ _ => rfl)
        fun _ _ _ => by rw [hsrc]; rfl
      packed := packed_unchanged rfl i.rounding }

/-- Settles O33: the address is formed without memory, and an active element is eight bytes that agree. -/
theorem onlyActiveLanesReadMemory : Obligations.OnlyActiveLanesReadMemory := by
  intro i s m hmem hbcst
  exact exec_of_unseen (g := fun t => { t with mem := m })
    { gate := rfl
      read := by
        refine read_congr (source_congr i rfl rfl rfl rfl rfl) rfl (fun _ _ => rfl) fun j hj hact => ?_
        cases hsrc : i.source s with
        | reg n => rfl
        | mem la =>
          refine elementAt_congr fun b hb => ?_
          rw [Nat.add_assoc]
          exact hmem la hsrc (8 * j + b) (by omega) (by rwa [show (8 * j + b) / 8 = j by omega])
        | bcst la => exact elementAt_congr fun b hb => hbcst la hsrc ⟨j, hj, hact⟩ b hb
      packed := packed_unchanged rfl i.rounding }

/-- Settles O35: the mask register is read through `State.active`, lane by lane. -/
theorem onlyMaskBitsRead : Obligations.OnlyMaskBitsRead := by
  intro i s k hk
  exact exec_of_unseen (g := fun t => { t with k := k })
    { gate := rfl
      read := by
        refine read_congr (source_congr i rfl rfl rfl rfl rfl) rfl (fun j hj => ?_)
          fun _ _ _ => sourceElement_congr rfl rfl rfl _ _
        rw [Bool.eq_iff_iff, active_iff, active_iff]
        exact or_congr_right' fun h0 => by rw [hk h0 j hj]
      packed := packed_unchanged rfl i.rounding }

/-- The enable bits that R175 names for a form decide whether it is enabled. -/
theorem envOk_congr {s t : State} (f : Form) (h0 : t.cr0.getLsbD 2 = s.cr0.getLsbD 2)
    (h4 : ∀ j, j = 9 ∨ j = 10 ∨ j = 18 → t.cr4.getLsbD j = s.cr4.getLsbD j)
    (hx : ∀ j, j = 1 ∨ j = 2 ∨ j = 5 ∨ j = 6 ∨ j = 7 → t.xcr0.getLsbD j = s.xcr0.getLsbD j) :
    t.envOk f = s.envOk f := by
  have hlegacy : t.osLegacy = s.osLegacy := by rw [State.osLegacy, h0, h4 9 (by decide)]; rfl
  have havx : t.osAvx = s.osAvx := by rw [State.osAvx, h4 18 (by decide), hx 1 (by decide), hx 2 (by decide)]; rfl
  have hevex : t.osAvx512 = s.osAvx512 := by
    rw [State.osAvx512, havx, hx 5 (by decide), hx 6 (by decide), hx 7 (by decide)]; rfl
  cases f with
  | legacy => exact hlegacy
  | vex128 | vex256 => exact havx
  | evex128 | evex256 | evex512 | evex512Er => exact hevex

/-- Settles O36: the control registers are read by the enablement checks and for the choice of `#XM` or `#UD`. -/
theorem onlyEnableBitsOfControlRegistersRead : Obligations.OnlyEnableBitsOfControlRegistersRead := by
  intro i s a b c ha hb hc
  exact exec_of_unseen (g := fun t => { t with cr0 := a, cr4 := b, xcr0 := c })
    { gate := gate_congr rfl (envOk_congr i.form (ha 2 (by decide)) hb hc) (ha 3 (by decide))
      read := read_congr (source_congr i rfl rfl rfl rfl rfl) rfl (fun _ _ => rfl)
        fun _ _ _ => sourceElement_congr rfl rfl rfl _ _
      packed := packed_unchanged rfl i.rounding
      exception := congrArg (fun x => if x then Exc.xm else Exc.ud) (hb 10 (by decide)) }

/-! ### The exception flags of MXCSR are not read (R26) -/

theorem getLsbD_of_ushiftRight_eq_zero {x : BitVec 32} {n k : Nat} (h : x >>> n = 0#32) (hk : n ≤ k) :
    x.getLsbD k = false := by
  have := congrArg (·.getLsbD (k - n)) h
  rwa [BitVec.getLsbD_ushiftRight, BitVec.getLsbD_zero, Nat.add_sub_cancel' hk] at this

/-- The numeric context reads MXCSR[15:6] only (R104). -/
theorem ctx_congr {s t : State} (h : ∀ k, 6 ≤ k → t.mxcsr.getLsbD k = s.mxcsr.getLsbD k) (er : Option Rounding) :
    t.ctx er = s.ctx er := by
  cases er <;>
    simp only [State.ctx, ctxEmbedded, ctxOfMxcsr, mxcsrDAZ, mxcsrIM, mxcsrDM, mxcsrOM, mxcsrUM, mxcsrPM, mxcsrRC,
      mxcsrFTZ, h 6 (by decide), h 7 (by decide), h 8 (by decide), h 10 (by decide), h 11 (by decide),
      h 12 (by decide), h 13 (by decide), h 14 (by decide), h 15 (by decide)]

theorem raiseFlags_or (m x : BitVec 32) (f : FpFlags) : raiseFlags (m ||| x) f = raiseFlags m f ||| x := by
  rw [raiseFlags, raiseFlags, BitVec.or_assoc, BitVec.or_comm x, BitVec.or_assoc]

/-- With flags of MXCSR already set, the outcome is the same but that they are set in it too. -/
theorem exec_or_flags (i : Instr) (s : State) {x : BitVec 32} (hx : x >>> 6 = 0#32) :
    exec i { s with mxcsr := s.mxcsr ||| x } = mapOutcome (fun t => { t with mxcsr := t.mxcsr ||| x }) (exec i s) :=
  exec_of_unseen (g := fun t => { t with mxcsr := t.mxcsr ||| x }) (h := (· ||| x))
    { gate := rfl
      read := read_congr (source_congr i rfl rfl rfl rfl rfl) rfl (fun _ _ => rfl)
        fun _ _ _ => sourceElement_congr rfl rfl rfl _ _
      packed := fun xs => by
        rw [ctx_congr (s := s) fun k hk => by
          rw [BitVec.getLsbD_or, getLsbD_of_ushiftRight_eq_zero hx hk, Bool.or_false]]
        exact packedConvert_map (h := (· ||| x)) (fun f => raiseFlags_or _ _ f) _ _ }

@[simp] theorem raise_state (x : Exc) (s : State) : (raise x s).state = s := by
  cases x <;> rfl

/-- The state in a fault is the one before the instruction, with flags ORed into MXCSR unless rounding is embedded. -/
theorem exec_fault_state {i : Instr} {s : State} {f : Fault} (h : exec i s = .fault f) :
    f.state = s ∨ i.rounding = none ∧ ∃ g, f.state = s.setMxcsr (raiseFlags s.mxcsr g) := by
  rw [exec_eq_convert] at h
  obtain ⟨x, -, rfl⟩ | ⟨-, x, -, rfl⟩ | ⟨-, xs, x, -, hp, rfl⟩ := convert_fault h
  · exact .inl (raise_state x s)
  · exact .inl (raise_state x s)
  · obtain ⟨hsae, hx⟩ := packedConvert_raise hp
    rw [ctx_sae, Option.isSome_eq_false_iff, Option.isNone_iff_eq_none] at hsae
    refine .inr ⟨hsae, ?_⟩
    rw [raise_state]
    obtain ⟨-, rfl⟩ | ⟨-, -, rfl⟩ := hx
    · exact ⟨_, rfl⟩
    · exact ⟨_, rfl⟩

theorem rounding_isSome_iff (i : Instr) : i.rounding.isSome = true ↔ i.form = .evex512Er := by
  cases i <;> simp [Instr.rounding, Instr.form]

/-- MXCSR in a completed instruction or a fault: some flags ORed in, and none under embedded rounding. -/
theorem exec_mxcsr {i : Instr} {s t : State} (h : exec i s = .next t ∨ ∃ f, exec i s = .fault f ∧ f.state = t) :
    ∃ g, t.mxcsr = raiseFlags s.mxcsr g ∧ (i.form = .evex512Er → g = noFlags) := by
  have hsame : ∃ g, s.mxcsr = raiseFlags s.mxcsr g ∧ (i.form = .evex512Er → g = noFlags) :=
    ⟨noFlags, (raiseFlags_noFlags _).symm, fun _ => rfl⟩
  obtain h | ⟨f, h, rfl⟩ := h
  · rw [exec_next h, nextState_mxcsr]
    by_cases hf : i.form = .evex512Er
    · rwa [Instr.mxcsrAfter, if_pos ((rounding_isSome_iff i).2 hf)]
    · exact ⟨_, mxcsrAfter_of_form_ne hf, fun h => absurd h hf⟩
  · obtain hst | ⟨hr, g, hst⟩ := exec_fault_state h
    · rwa [hst]
    · have hf : i.form ≠ .evex512Er := fun hf => by simpa [hr] using (rounding_isSome_iff i).2 hf
      exact ⟨g, by rw [hst]; rfl, fun h => absurd h hf⟩

/-- Settles O38: the flags are ORed into MXCSR, and nothing reads them. -/
theorem exceptionFlagsAreSticky : Obligations.ExceptionFlagsAreSticky := by
  refine ⟨fun i s x hx => exec_or_flags i s hx, fun i s t h => ?_⟩
  obtain ⟨g, hg, her⟩ := exec_mxcsr h
  rw [hg]
  exact ⟨raiseFlags_ushiftRight_six _ _, raiseFlags_and_self _ _, fun hf => by rw [her hf, raiseFlags_noFlags]⟩

/-! ### Execution is sequential (R28, R205, R206) -/

/-- `rip + len` where it stays inside the address space. -/
theorem nextIp_toNat {s : State} {len : Nat} (h : s.ip.toNat + len < s.cfg.mode.addressSpace) :
    (s.nextIp len).toNat = s.ip.toNat + len := by
  have hle : s.cfg.mode.addressSpace ≤ 2 ^ 64 := by cases s.cfg.mode <;> decide
  have hsum : (s.ip + BitVec.ofNat 64 len).toNat = s.ip.toNat + len := by
    rw [BitVec.toNat_add, BitVec.toNat_ofNat, Nat.add_mod_mod, Nat.mod_eq_of_lt (by omega)]
  rw [State.nextIp]
  cases hm : s.cfg.mode with
  | m64 => exact hsum
  | m32 =>
    rw [hm] at h
    rw [Mode.wrapAddress, BitVec.toNat_setWidth_of_le (by decide), BitVec.toNat_setWidth, hsum]
    exact Nat.mod_eq_of_lt h

theorem fetch_of_not_inText {s : State} (he : s.atEnd = false) (ht : s.inText = false) :
    s.fetch = .stop (.refuse .fetchOutsideText) := by
  rw [State.fetch, he, ht]
  rfl

/-- Only END is fetched as the end of the run. -/
theorem fetch_eq_done_iff (s : State) : s.fetch = .done ↔ s.atEnd = true := by
  refine ⟨fun h => ?_, fun he => by rw [State.fetch, he]; rfl⟩
  by_contra he
  rw [Bool.not_eq_true] at he
  cases ht : s.inText with
  | false => rw [fetch_of_not_inText he ht] at h; cases h
  | true =>
    rw [fetch_eq_fetchedOf he ht] at h
    cases hd : decode s.cfg.mode s.fetchBytes with
    | instr i rest => rw [hd, fetchedOf] at h; split_ifs at h
    | _ => rw [hd] at h; cases h

theorem inText_of_fetch_instr {s : State} {i : Instr} (h : s.fetch = .instr i) : s.atEnd = false ∧ s.inText = true := by
  have he : s.atEnd = false := Bool.eq_false_iff.2 fun he => by rw [(fetch_eq_done_iff s).2 he] at h; cases h
  refine ⟨he, Bool.eq_true_of_not_eq_false fun ht => ?_⟩
  rw [fetch_of_not_inText he ht] at h
  cases h

/-- An instruction is fetched where the bytes decode to it and its next address is inside the address space. -/
theorem decode_of_fetch_instr {s : State} {i : Instr} (h : s.fetch = .instr i) :
    (∃ rest, decode s.cfg.mode s.fetchBytes = .instr i rest) ∧ s.ip.toNat + i.len < s.cfg.mode.addressSpace := by
  obtain ⟨he, ht⟩ := inText_of_fetch_instr h
  rw [fetch_eq_fetchedOf he ht] at h
  cases hd : decode s.cfg.mode s.fetchBytes with
  | instr j rest =>
    rw [hd, fetchedOf] at h
    split_ifs at h with hlen
    cases h
    exact ⟨⟨rest, rfl⟩, hlen⟩
  | _ => rw [hd] at h; cases h

/-- Settles O14: the instruction fetched is the one decoded, and completing it sets the instruction pointer. -/
theorem executionIsSequential : Obligations.ExecutionIsSequential := by
  intro s t hstep hend
  obtain ⟨hdone, -⟩ | ⟨i, hf, hexec⟩ := step_next hstep
  · rw [(fetch_eq_done_iff s).1 hdone] at hend
    cases hend
  · obtain ⟨⟨rest, hd⟩, hlen⟩ := decode_of_fetch_instr hf
    obtain ⟨-, h4, h15⟩ := decode_len hd
    refine ⟨i, rest, hd, hexec, ?_, h4, h15⟩
    rw [exec_next hexec, nextState_rip, nextIp_toNat hlen]

/-! ### 32-bit mode (R47, R80) -/

/-- In M32, scannable prefixes and a byte that is none: the verdict on what stands there is the verdict of the step. -/
theorem fetch_of_fetches_m32 {s : State} {pfx : List Prefix} {b : Byte} {shape : List Byte} {d : DecodeResult}
    (hm : s.cfg.mode = .m32) (hpfx : prefixesScan .m32 pfx = true) (hb : legacyPrefix b = none)
    (hf : s.fetches (pfx.map Prefix.toByte ++ b :: shape))
    (hd : ∀ bytes rest, scanPrefixes .m32 bytes = (pfx, none, b :: shape ++ rest) → decode .m32 bytes = d) :
    s.fetch = fetchedOf s d := by
  obtain ⟨he, ht, rest, hbytes⟩ := hf
  refine fetch_of_decode he ht ?_
  rw [hm, hbytes, List.append_assoc]
  exact hd _ rest (scanPrefixes_append_opcode hpfx hb (.inl rfl) _)

/-- A shape that asks for a ModRM operand, the byte 67 among the prefixes, and the ModRM byte of a memory operand: 16-bit
addressing. -/
theorem step_address16 {s : State} {pfx : List Prefix} {b modrm : Byte} {shape : List Byte}
    (hm : s.cfg.mode = .m32) (hpfx : prefixesScan .m32 pfx = true) (hb : legacyPrefix b = none)
    (h67 : pfx.contains .addrSize = true) (hmod : modrm.extractLsb' 6 2 ≠ 3#2)
    (hf : s.fetches (pfx.map Prefix.toByte ++ b :: shape ++ [modrm]))
    (hop : ∀ rest, (parseOpcode .m32 pfx none (b :: shape ++ rest)).operand? = some rest) :
    step s = .refused .address16 := by
  rw [List.append_assoc, List.cons_append] at hf
  refine step_of_fetch_stop (fetch_of_fetches_m32 (d := .address16) hm hpfx hb hf fun bytes rest hscan => ?_)
  rw [← List.cons_append, List.append_assoc] at hscan
  exact decode_address16 hscan h67 hmod (hop _)

/-- The three stored bits in one field: with all of them 1, nothing is extended in M32 (R67, R80). -/
theorem stored_bits_C4 {v1 : Byte} (h : v1.extractLsb' 5 3 = 7#3) :
    v1.extractLsb' 6 2 = 3#2 ∧ v1.getLsbD 5 = true := by
  revert v1
  decide

/-- The same for the stored bits of P0 (R69, R80). -/
theorem stored_bits_P0 {p0 : Byte} (h : p0.extractLsb' 4 4 = 0xF#4) :
    p0.extractLsb' 6 2 = 3#2 ∧ p0.getLsbD 5 = true ∧ p0.getLsbD 4 = true := by
  revert p0
  decide

/-- Settles O8: in M32 each clause is a verdict of step 3 of R76, or that of the ModRM byte, on the bytes behind the
prefixes; and no encoding of M32 has an extension bit. -/
theorem thirtyTwoBitModeDifferences : Obligations.ThirtyTwoBitModeDifferences := by
  intro s pfx hm hpfx
  refine ⟨fun op v1 hop hv hf => ?_, fun rex hf => ?_, fun v1 hv hB hf => ?_, fun p0 p1 p2 op hp hext hf => ?_,
    fun i hi => ?_, fun h67 modrm hmod => ⟨fun h66 hF2 hF3 hf => ?_, fun v1 hv hpp hf => ?_,
      fun v1 v2 hv hmm hpp hf => ?_, fun p0 p1 p2 hp hV hmmm hpp hf => ?_⟩⟩
  · have hl : legacyPrefix op = none := by obtain rfl | rfl | rfl := hop <;> rfl
    exact step_of_fetch_stop (fetch_of_fetches_m32 (d := .otherInstruction) hm hpfx hl hf
      fun _ rest hscan => decode_otherInstruction hscan (parseOpcode_m32_other hop hv pfx none rest))
  · exact step_of_fetch_stop (fetch_of_fetches_m32 (d := .otherInstruction) hm hpfx (legacyPrefix_rex rex) hf
      fun _ rest hscan => decode_otherInstruction hscan (parseOpcode_rex rex .m32 pfx none rest))
  · exact step_of_fetch_stop (fetch_of_fetches_m32 (d := .extensionInM32) hm hpfx rfl hf
      fun _ rest hscan => decode_extensionInM32 hscan (parseOpcode_C4_extension hv hB pfx none rest))
  · exact step_of_fetch_stop (fetch_of_fetches_m32 (d := .extensionInM32) hm hpfx rfl hf
      fun _ rest hscan => decode_extensionInM32 hscan (parseOpcode_62_extension hp hext pfx none rest))
  · rw [Instr.wf, Bool.and_eq_true] at hi
    obtain ⟨hshape, -⟩ := hi
    obtain ⟨⟨lo, hdst⟩, hsrc⟩ := Instr.registers_of_shapeWf_m32 hshape
    refine ⟨hdst ▸ vecNum_lt_eight lo, fun n hn => ?_⟩
    obtain ⟨lo, rfl⟩ := hsrc s n hn
    exact vecNum_lt_eight lo
  · exact step_address16 hm hpfx rfl h67 hmod hf (operand_legacy h66 hF2 hF3 .m32 none)
  · exact step_address16 hm hpfx rfl h67 hmod hf (operand_C5 hv hpp .m32 pfx none)
  · obtain ⟨hv, hB⟩ := stored_bits_C4 hv
    exact step_address16 hm hpfx rfl h67 hmod hf (operand_C4 hv hB hmm hpp .m32 pfx none)
  · obtain ⟨hp, hB, hR⟩ := stored_bits_P0 hp
    exact step_address16 hm hpfx rfl h67 hmod hf (operand_62 hp hB hR hV hmmm hpp .m32 pfx none)

end Sys2Proof.Machine
end

section
/-!
The bytes of a ModRM operand decode to it, and the prefixes that no encoding may have raise `#UD` (O6); what an enabled
instruction answers to an operand that it cannot read (O26, O27, O28); linear addresses (O42 to O44).
-/

namespace Sys2Proof

/-! ### The ModRM operand is decoded from its bytes (20_memory.md R43, R44; 30_encoding.md R64) -/

theorem byte233_fields (hi : BitVec 2) (mid lo : BitVec 3) :
    (byte233 hi mid lo).extractLsb' 6 2 = hi ∧ (byte233 hi mid lo).extractLsb' 3 3 = mid ∧
      (byte233 hi mid lo).extractLsb' 0 3 = lo := by
  revert hi mid lo
  decide

theorem le32_bytes (v : BitVec 32) :
    le32 (v.extractLsb' 0 8) (v.extractLsb' 8 8) (v.extractLsb' 16 8) (v.extractLsb' 24 8) = v := by
  rw [le32, BitVec.extractLsb'_append_extractLsb'_eq_extractLsb' (by rfl : 24 = 16 + 8),
    BitVec.extractLsb'_append_extractLsb'_eq_extractLsb' (by rfl : 16 = 8 + 8),
    BitVec.extractLsb'_append_extractLsb'_eq_extractLsb' (by rfl : 8 = 0 + 8)]
  exact BitVec.extractLsb'_eq_self

theorem Disp.mod_ne_three (d : Disp) : d.mod ≠ 3#2 := by
  cases d <;> simp [Disp.mod]

theorem Disp.mod_eq_zero_iff (d : Disp) : d.mod = 0#2 ↔ d = .none := by
  cases d <;> simp [Disp.mod]

theorem parseDisp_bytes (d : Disp) (reg : BitVec 3) (mk : Disp → MemOperand) (rest : List Byte) :
    parseDisp d.mod reg mk (d.bytes ++ rest) = .ok reg (.mem (mk d)) rest := by
  cases d with
  | none => rfl
  | d8 v => rfl
  | d32 v => exact congrArg (fun w => ModRMResult.ok reg (.mem (mk (.d32 w))) rest) (le32_bytes v)

theorem parseDisp32_bytes (v : BitVec 32) (reg : BitVec 3) (mk : BitVec 32 → MemOperand) (rest : List Byte) :
    parseDisp32 reg mk (bytes32 v ++ rest) = .ok reg (.mem (mk v)) rest :=
  congrArg (fun w => ModRMResult.ok reg (.mem (mk w)) rest) (le32_bytes v)

/-- Step 4 of R76 finds the operand that was encoded, unless it is a memory operand with 16-bit addressing. -/
theorem parseModRM_encode {a16 : Bool} {rm : RegMem} (hwf : rm.wf = true) (h16 : rm.isMem = true → a16 = false)
    (reg : BitVec 3) (rest : List Byte) : parseModRM a16 (rm.encode reg ++ rest) = .ok reg rm rest := by
  cases rm with
  | reg r =>
    obtain ⟨hmod, hreg, hrm⟩ := byte233_fields 3#2 reg r
    simp only [RegMem.encode, List.cons_append, List.nil_append, parseModRM, hmod, hreg, hrm, if_true]
  | mem m =>
    obtain rfl : a16 = false := h16 rfl
    cases m with
    | base r d =>
      simp only [RegMem.wf, MemOperand.wf, Bool.and_eq_true, bne_iff_ne, Bool.not_eq_true', Bool.and_eq_false_iff,
        beq_eq_false_iff_ne, ne_eq] at hwf
      obtain ⟨h4, h5⟩ := hwf
      obtain ⟨hmod, hreg, hrm⟩ := byte233_fields d.mod reg r
      have hnotDisp32 : ¬(r = 5#3 ∧ d.mod = 0#2) := fun ⟨hr, hd⟩ =>
        h5.elim (· hr) (· ((Disp.mod_eq_zero_iff d).1 hd))
      simp only [RegMem.encode, List.cons_append, parseModRM, hmod, hreg, hrm, Disp.mod_ne_three, h4, hnotDisp32,
        if_false, Bool.false_eq_true, parseDisp_bytes]
    | disp32 v =>
      obtain ⟨hmod, hreg, hrm⟩ := byte233_fields 0#2 reg 5#3
      simp only [RegMem.encode, List.cons_append, parseModRM, hmod, hreg, hrm, parseDisp32_bytes]
      rfl
    | sib scale index bs d =>
      simp only [RegMem.wf, MemOperand.wf, Bool.not_eq_true', Bool.and_eq_false_iff, beq_eq_false_iff_ne, ne_eq] at hwf
      obtain ⟨hmod, hreg, hrm⟩ := byte233_fields d.mod reg 4#3
      obtain ⟨hscale, hindex, hbase⟩ := byte233_fields scale index bs
      have hnotDisp32 : ¬(bs = 5#3 ∧ d.mod = 0#2) := fun ⟨hb, hd⟩ =>
        hwf.elim (· hb) (· ((Disp.mod_eq_zero_iff d).1 hd))
      simp only [RegMem.encode, List.cons_append, parseModRM, hmod, hreg, hrm, hscale, hindex, hbase,
        Disp.mod_ne_three, hnotDisp32, if_false, if_true, Bool.false_eq_true, parseDisp_bytes]
    | sibDisp32 scale index v =>
      obtain ⟨hmod, hreg, hrm⟩ := byte233_fields 0#2 reg 4#3
      obtain ⟨hscale, hindex, hbase⟩ := byte233_fields scale index 5#3
      simp only [RegMem.encode, List.cons_append, parseModRM, hmod, hreg, hrm, hscale, hindex, hbase,
        parseDisp32_bytes]
      rfl

/-! ### `#UD` held back until the length is known (R76 step 5, C14) -/

theorem addressable_iff (m : Mode) (pfx : List Prefix) (mem : Bool) :
    addressable m pfx mem = true ↔ (mem = true → (m == .m32 && pfx.contains .addrSize) = false) := by
  cases m <;> cases mem <;> simp [addressable]

/-- The bytes from ModRM on, where the opcode is that of a form with a `#UD` held back. -/
def OpcodeResult.heldBack? : OpcodeResult → Option (List Byte)
  | .form true _ rest => some rest
  | _ => none

/-- The opcode of a form with a `#UD` held back, then an operand, in at most 15 bytes: a `#UD` encoding. -/
theorem decode_invalid {m : Mode} {bytes shape rest : List Byte} {pfx : List Prefix} {rex : Option Rex}
    {reg : BitVec 3} {rm : RegMem}
    (hscan : scanPrefixes m bytes = (pfx, rex, shape ++ (rm.encode reg ++ rest)))
    (hop : (parseOpcode m pfx rex (shape ++ (rm.encode reg ++ rest))).heldBack? = some (rm.encode reg ++ rest))
    (hrm : rm.wf = true) (haddr : addressable m pfx rm.isMem = true)
    (hlen : pfx.length + rex.toList.length + (shape ++ rm.encode reg).length ≤ 15) : decode m bytes = .invalid := by
  have htaken : ¬15 < bytes.length - rest.length := by
    have hall := scanPrefixes_length m bytes
    simp only [hscan, List.length_append] at hall hlen
    omega
  cases hp : parseOpcode m pfx rex (shape ++ (rm.encode reg ++ rest)) with
  | form ud build rest' =>
    rw [hp] at hop
    cases ud with
    | false => cases hop
    | true =>
      obtain rfl : rest' = rm.encode reg ++ rest := Option.some.inj hop
      simp only [decode, hscan, hp, parseModRM_encode hrm ((addressable_iff m pfx rm.isMem).1 haddr), htaken,
        if_false, if_true]
  | _ => rw [hp] at hop; cases hop

theorem scanPrefixes_append_rex {pfx : List Prefix} (hp : prefixesScan .m64 pfx = true) (rex : Rex) {b : Byte}
    (hb : legacyPrefix b = none) (bs : List Byte) :
    scanPrefixes .m64 (pfx.map Prefix.toByte ++ rex.toByte :: b :: bs) = (pfx, some rex, b :: bs) := by
  have hnext : ∀ c ∈ (b :: bs).head?, legacyPrefix c = none := by
    intro c hc
    cases hc
    exact hb
  rw [scanPrefixes_append _ hp, scanPrefixes_rex (legacyPrefix_rex rex) (rexOf_toByte rex) hnext, List.append_nil]

/-! ### Prefixes that no encoding may have (R61, R62, R78) -/

/-- LOCK on the legacy shape, with or without a REX byte. -/
theorem decode_lock {m : Mode} {bytes rest : List Byte} {pfx : List Prefix} {rex : Option Rex} {reg : BitVec 3}
    {rm : RegMem} (hscan : scanPrefixes m bytes = (pfx, rex, 0x0F#8 :: 0x5A#8 :: (rm.encode reg ++ rest)))
    (h66 : pfx.contains .opSize = true) (hF0 : pfx.contains .lock = true) (hF2 : pfx.contains .repne = false)
    (hF3 : pfx.contains .rep = false) (hrm : rm.wf = true) (haddr : addressable m pfx rm.isMem = true)
    (hlen : pfx.length + rex.toList.length + 3 + rm.size ≤ 15) : decode m bytes = .invalid := by
  refine decode_invalid (shape := [0x0F#8, 0x5A#8]) hscan ?_ hrm haddr ?_
  · rw [List.cons_append, List.cons_append, List.nil_append, parseOpcode, if_pos rfl]
    simp only [opcodeLegacy, h66, hF0, hF2, hF3]
    rfl
  · rw [List.length_append, RegMem.encode_length]
    simp only [List.length_cons, List.length_nil]
    omega

/-- The shape of an opcode that tolerates neither 66, F0, F2, F3 nor a REX byte in front: with one of them it is still
the opcode of a form, and `#UD`. -/
def RejectsPrefixes (m : Mode) (shape : List Byte) : Prop :=
  ∀ (pfx : List Prefix) (rex : Option Rex) (rest : List Byte), badVexPrefix pfx rex = true →
    (parseOpcode m pfx rex (shape ++ rest)).heldBack? = some rest

/-! #### The stored bits of the bytes that follow C5, C4 and 62: in M32 none extends a register number (R80) -/

theorem vexC5Byte_fields {m : Mode} {r : Bool} (hr : m = .m64 ∨ r = false) (l : Bool) :
    ¬(m = .m32 ∧ (vexC5Byte r l).extractLsb' 6 2 ≠ 3#2) ∧ (vexC5Byte r l).extractLsb' 0 2 = 1#2 := by
  cases m with
  | m64 => exact ⟨fun h => absurd h.1 (by decide), by revert r l; decide⟩
  | m32 =>
    obtain rfl : r = false := hr.resolve_left (by decide)
    revert l
    decide

theorem vexC4Byte1_fields {m : Mode} {v : Vex3} (hv : v.wf m = true) :
    ¬(m = .m32 ∧ (vexC4Byte1 v).extractLsb' 6 2 ≠ 3#2) ∧ ¬(m = .m32 ∧ (vexC4Byte1 v).getLsbD 5 = false) ∧
      (vexC4Byte1 v).extractLsb' 0 5 = 1#5 := by
  obtain ⟨r, x, b, w⟩ := v
  cases m with
  | m64 =>
    clear hv
    exact ⟨fun h => absurd h.1 (by decide), fun h => absurd h.1 (by decide), by revert r x b w; decide⟩
  | m32 =>
    obtain ⟨rfl, rfl, rfl⟩ := Vex3.extension_of_wf_m32 hv
    clear hv
    revert w
    decide

theorem vexC4Byte2_pp (v : Vex3) (l : Bool) : (vexC4Byte2 v l).extractLsb' 0 2 = 1#2 := by
  obtain ⟨r, x, b, w⟩ := v
  revert r x b w l
  decide

theorem evexP0_fields {m : Mode} {e : Evex} (he : e.wf m = true) :
    ¬(m = .m32 ∧ (evexP0 e).extractLsb' 6 2 ≠ 3#2) ∧
      ¬(m = .m32 ∧ ((evexP0 e).getLsbD 5 = false ∨ (evexP0 e).getLsbD 4 = false)) ∧
      (evexP0 e).extractLsb' 0 3 = 1#3 := by
  obtain ⟨r, x, b, rHi, z, aaa⟩ := e
  cases m with
  | m64 =>
    have hmap : ∀ r x b rHi : Bool, (evexP0 ⟨r, x, b, rHi, z, aaa⟩).extractLsb' 0 3 = 1#3 := by
      simp only [evexP0]
      decide
    exact ⟨fun h => absurd h.1 (by decide), fun h => absurd h.1 (by decide), hmap r x b rHi⟩
  | m32 =>
    obtain ⟨rfl, rfl, rfl, rfl⟩ := Evex.extension_of_wf_m32 he
    simp only [evexP0]
    decide

theorem evexP2_stored_vHi (e : Evex) (ll : BitVec 2) (b : Bool) : (evexP2 e ll b).getLsbD 3 = true := by
  have hbit : ∀ (z : Bool) (ll : BitVec 2) (b : Bool) (aaa : BitVec 3),
      (BitVec.ofBool z ++ ll ++ BitVec.ofBool b ++ 1#1 ++ aaa).getLsbD 3 = true := by
    decide
  exact hbit e.z ll b e.aaa

theorem rejectsPrefixes_C5 {m : Mode} {r : Bool} (hr : m = .m64 ∨ r = false) (l : Bool) :
    RejectsPrefixes m [0xC5#8, vexC5Byte r l, 0x5A#8] := by
  intro pfx rex rest hbad
  obtain ⟨hstored, hpp⟩ := vexC5Byte_fields hr l
  simp only [List.cons_append, List.nil_append]
  rw [parseOpcode, if_neg (by decide), if_pos rfl]
  simp only [opcodeC5, hstored, hpp, hbad, Bool.true_or, ne_eq, not_true_eq_false, if_false]
  rfl

theorem rejectsPrefixes_C4 {m : Mode} {v : Vex3} (hv : v.wf m = true) (l : Bool) :
    RejectsPrefixes m [0xC4#8, vexC4Byte1 v, vexC4Byte2 v l, 0x5A#8] := by
  intro pfx rex rest hbad
  obtain ⟨hstored, hB, hmap⟩ := vexC4Byte1_fields hv
  simp only [List.cons_append, List.nil_append]
  rw [parseOpcode, if_neg (by decide), if_neg (by decide), if_pos rfl]
  simp only [opcodeC4, hstored, hB, hmap, vexC4Byte2_pp, hbad, Bool.true_or, ne_eq, not_true_eq_false, or_self,
    if_false]
  rfl

theorem rejectsPrefixes_62 {m : Mode} {e : Evex} (he : e.wf m = true) (ll : BitVec 2) (b : Bool) :
    RejectsPrefixes m [0x62#8, evexP0 e, 0xFD#8, evexP2 e ll b, 0x5A#8] := by
  intro pfx rex rest hbad
  obtain ⟨hstored, hBR, hmap⟩ := evexP0_fields he
  simp only [List.cons_append, List.nil_append]
  rw [parseOpcode, if_neg (by decide), if_neg (by decide), if_neg (by decide), if_pos rfl]
  have hpp : (0xFD#8).extractLsb' 0 2 = 1#2 := rfl
  simp only [opcode62, hstored, hmap, hpp, evexP2_stored_vHi, Bool.true_eq_false, or_false, hBR, hbad, Bool.true_or,
    ne_eq, not_true_eq_false, or_self, if_false]
  rfl

/-- The opcode and the operand of a VEX or EVEX instruction with nothing in front. -/
theorem encode_vex {m : Mode} {i : Instr} (hwf : i.shapeWf m = true) (hf : i.form ≠ .legacy) (hp : i.prefixes = []) :
    ∃ (b : Byte) (shape : List Byte) (reg : BitVec 3) (rm : RegMem),
      encode i = b :: shape ++ rm.encode reg ∧ legacyPrefix b = none ∧ rexOf b = none ∧ rm.wf = true ∧
      RejectsPrefixes m (b :: shape) := by
  cases i with
  | cvtpd2ps | cvtpd2psRex => exact absurd rfl hf
  | vex128C5 p r reg rm | vex256C5 p r reg rm =>
    obtain rfl : p = [] := hp
    simp only [Instr.shapeWf, Bool.and_eq_true, Bool.or_eq_true, beq_iff_eq, Bool.not_eq_true'] at hwf
    obtain ⟨⟨⟨hr, -⟩, hrm⟩, -⟩ := hwf
    exact ⟨_, _, reg, rm, rfl, rfl, rfl, hrm, rejectsPrefixes_C5 hr _⟩
  | vex128C4 p v reg rm | vex256C4 p v reg rm =>
    obtain rfl : p = [] := hp
    simp only [Instr.shapeWf, Bool.and_eq_true] at hwf
    obtain ⟨⟨⟨hv, -⟩, hrm⟩, -⟩ := hwf
    exact ⟨_, _, reg, rm, rfl, rfl, rfl, hrm, rejectsPrefixes_C4 hv _⟩
  | evex512Er p e rc reg rm =>
    obtain rfl : p = [] := hp
    simp only [Instr.shapeWf, Bool.and_eq_true] at hwf
    obtain ⟨he, -⟩ := hwf
    exact ⟨_, _, reg, .reg rm, rfl, rfl, rfl, rfl, rejectsPrefixes_62 he _ _⟩
  | evex128 p e reg rm | evex256 p e reg rm | evex512 p e reg rm =>
    obtain rfl : p = [] := hp
    simp only [Instr.shapeWf, Bool.and_eq_true] at hwf
    obtain ⟨⟨⟨he, -⟩, hrm⟩, -⟩ := hwf
    exact ⟨_, _, reg, rm, rfl, rfl, rfl, hrm, rejectsPrefixes_62 he _ _⟩
  | evex128Bcst p e reg mo | evex256Bcst p e reg mo | evex512Bcst p e reg mo =>
    obtain rfl : p = [] := hp
    simp only [Instr.shapeWf, Bool.and_eq_true] at hwf
    obtain ⟨⟨⟨he, -⟩, hrm⟩, -⟩ := hwf
    exact ⟨_, _, reg, .mem mo, rfl, rfl, rfl, hrm, rejectsPrefixes_62 he _ _⟩

/-- 66, F0, F2, F3 or a REX byte in force before a VEX or EVEX instruction, found by the scan: a `#UD` encoding. -/
theorem decode_badVexPrefix {m : Mode} {pfx : List Prefix} {rex : Option Rex} {front rest : List Byte} {i : Instr}
    (hwf : i.shapeWf m = true) (hf : i.form ≠ .legacy) (hp : i.prefixes = [])
    (hscan : ∀ b bs, legacyPrefix b = none → rexOf b = none →
      scanPrefixes m (front ++ b :: bs) = (pfx, rex, b :: bs))
    (h67 : m = .m64 ∨ pfx.contains .addrSize = false) (hlen : pfx.length + rex.toList.length + i.size ≤ 15)
    (hbad : badVexPrefix pfx rex = true) : decode m (front ++ encode i ++ rest) = .invalid := by
  obtain ⟨b, shape, reg, rm, henc, hb, hrex, hrm, hrej⟩ := encode_vex hwf hf hp
  have haddr : addressable m pfx rm.isMem = true :=
    (addressable_iff m pfx rm.isMem).2 fun _ => by
      obtain rfl | h67 := h67
      · rfl
      · rw [h67, Bool.and_false]
  rw [← i.len_eq_size, Instr.len, henc] at hlen
  refine decode_invalid (rest := rest) (shape := b :: shape) ?_ (hrej pfx rex _ hbad) hrm haddr hlen
  rw [henc, List.append_assoc, List.append_assoc]
  exact hscan b _ hb hrex

end Sys2Proof

namespace Sys2Proof.Machine

theorem step_invalid {s : State} {bytes : List Byte} (hf : s.fetches bytes)
    (hd : ∀ rest, decode s.cfg.mode (bytes ++ rest) = .invalid) : step s = .fault (.invalidOpcode s) := by
  obtain ⟨he, ht, rest, hbytes⟩ := hf
  exact step_of_fetch_stop (fetch_of_decode he ht (hbytes ▸ hd rest))

/-- Settles O6: the scan finds the forbidden byte, which the opcode holds against the encoding until its length is known. -/
theorem forbiddenPrefixesRaiseUd : Obligations.ForbiddenPrefixesRaiseUd := by
  refine ⟨fun s pfx reg rm hpfx h66 hF0 hF2 hF3 hrm haddr hlen hf => step_invalid hf fun rest => ?_,
    fun s pfx rex reg rm hm hpfx h66 hF0 hF2 hF3 hrm hlen hf => step_invalid hf fun rest => ?_,
    fun s pfx i hpfx hform hp hwf h67 hlen hbad hf => step_invalid hf fun rest => ?_,
    fun s pfx rex i hm hpfx hform hp hwf hlen hf => step_invalid hf fun rest => ?_⟩
  · refine decode_lock (rex := none) (reg := reg) (rest := rest) ?_ h66 hF0 hF2 hF3 hrm haddr hlen
    rw [encode, List.append_assoc, List.append_assoc]
    exact scanPrefixes_append_opcode hpfx rfl (.inr rfl) _
  · rw [hm]
    refine decode_lock (rex := some rex) (reg := reg) (rest := rest) ?_ h66 hF0 hF2 hF3 hrm rfl (by simpa using hlen)
    rw [encode, List.append_assoc, List.append_assoc]
    exact scanPrefixes_append_rex hpfx rex rfl _
  · rw [Instr.wf, Bool.and_eq_true] at hwf
    obtain ⟨hshape, -⟩ := hwf
    refine decode_badVexPrefix (rex := none) hshape hform hp (fun b bs hb hrex => ?_) h67 hlen ?_
    · exact scanPrefixes_append_opcode hpfx hb (.inr hrex) bs
    · rw [badVexPrefix, hbad]
      rfl
  · rw [Instr.wf, Bool.and_eq_true] at hwf
    obtain ⟨hshape, -⟩ := hwf
    rw [hm]
    refine decode_badVexPrefix (rex := some rex) hshape hform hp (fun b bs hb _ => ?_) (.inl rfl) hlen ?_
    · rw [List.append_assoc]
      exact scanPrefixes_append_rex hpfx rex hb bs
    · exact Bool.or_true _

end Sys2Proof.Machine

namespace Sys2Proof.Machine

/-! ### An operand that cannot be read (R45, R51, R52, R179) -/

/-- An enabled instruction stops as the reading of its source does. -/
theorem exec_of_readSource_error {i : Instr} {s : State} {e : Stop} (he : s.enabled i.form = true)
    (h : readSource s i.form (i.source s) i.aaa = .error e) : exec i s = e.outcome s := by
  rw [exec_eq, gate_of_enabled he, h]

theorem inSpace_iff (s : State) (la : Word) (n : Nat) :
    s.inSpace la n = true ↔ la.toNat + n ≤ s.cfg.mode.addressSpace :=
  decide_eq_true_iff

theorem inSpace_eq_false_iff (s : State) (la : Word) (n : Nat) :
    s.inSpace la n = false ↔ s.cfg.mode.addressSpace < la.toNat + n :=
  decide_eq_false_iff_not.trans Nat.not_le

theorem readSource_misaligned {la : Word} (hal : la.toNat % 16 ≠ 0) (s : State) (aaa : BitVec 3) :
    readSource s .legacy (.mem la) aaa = .error (.exception .gp) :=
  if_pos ⟨rfl, hal⟩

theorem exc_of_raise_eq {f : Fault} {x : Exc} {s : State} (h : f = raise x s) : f.exc = x := by
  subst h
  cases x <;> rfl

/-- Settles O26: of the three ways to fault, only the reading of the source raises `#GP(0)`. -/
theorem legacyAlignment : Obligations.LegacyAlignment := by
  intro i s la
  refine ⟨fun hf he hsrc hal => ?_, fun t ht => ?_⟩
  · rw [← hf] at he
    refine exec_of_readSource_error he (e := .exception .gp) ?_
    rw [hf, hsrc]
    exact readSource_misaligned hal s i.aaa
  · rw [exec_eq_convert] at ht
    obtain ⟨x, hg, hx⟩ | ⟨-, x, hr, hx⟩ | ⟨-, xs, x, -, -, hx⟩ := convert_fault ht
    · obtain rfl := exc_of_raise_eq hx
      obtain ⟨h, -⟩ | ⟨h, -⟩ := gate_error hg <;> cases h
    · obtain rfl := exc_of_raise_eq hx
      obtain ⟨-, h⟩ | ⟨h, -⟩ | ⟨h, -⟩ := readSource_error hr
      · exact h
      · cases h
      · cases h
    · have hgp : Exc.gp = s.simdException := exc_of_raise_eq hx
      rw [State.simdException] at hgp
      split at hgp <;> cases hgp

/-- Settles O28: the address space is tested after alignment and before readability, and is the only refusal. -/
theorem wrappingOperandIsRefused : Obligations.WrappingOperandIsRefused := by
  intro i s
  refine ⟨fun la he hla => exec_of_readSource_error he (e := .refuse .addressWrap) ?_, fun r hr => ?_⟩
  · obtain ⟨hsrc, hal, hwrap⟩ | ⟨hsrc, hwrap⟩ := hla
    · have haligned : ¬(i.form = .legacy ∧ la.toNat % 16 ≠ 0) := fun ⟨hf, h⟩ => h (hal hf)
      rw [hsrc, readSource_mem (isEvex_or_unmasked i), if_neg haligned, (inSpace_eq_false_iff s la _).2 hwrap]
      rfl
    · rw [hsrc, readSource_bcst, (inSpace_eq_false_iff s la _).2 hwrap]
      rfl
  · rw [exec_eq_convert] at hr
    obtain ⟨-, rfl, herr⟩ := convert_refused hr
    obtain ⟨h, -⟩ | ⟨-, la, hla⟩ | ⟨h, -⟩ := readSource_error herr
    · cases h
    · rw [inSpace_eq_false_iff, inSpace_eq_false_iff] at hla
      exact ⟨rfl, la, hla⟩
    · cases h

theorem isReadable_eq_false {s : State} {a n b : Nat} (hb : b < n) (h : s.cfg.readableByte (a + b) = false) :
    s.isReadable a n = false :=
  List.all_eq_false.2 ⟨b, List.mem_range.2 hb, by rw [h]; decide⟩

/-- An active lane of an aligned operand inside the address space that cannot be read. -/
theorem readSource_mem_unreadable {s : State} {f : Form} {aaa : BitVec 3} {la : Word} {j : Nat}
    (hm : f.isEvex = true ∨ aaa = 0#3) (hal : f = .legacy → la.toNat % 16 = 0)
    (hsp : s.inSpace la (8 * f.kl) = true) (hj : j < f.kl) (hact : s.active aaa j = true)
    (hr : s.isReadable (la.toNat + 8 * j) 8 = false) :
    readSource s f (.mem la) aaa = .error (.exception .memFault) := by
  have haligned : ¬(f = .legacy ∧ la.toNat % 16 ≠ 0) := fun ⟨hf, h⟩ => h (hal hf)
  have hlane : ((List.range f.kl).all fun j => !s.active aaa j || s.isReadable (la.toNat + 8 * j) 8) = false :=
    List.all_eq_false.2 ⟨j, List.mem_range.2 hj, by rw [hact, hr]; decide⟩
  rw [readSource_mem hm, if_neg haligned, hsp, hlane]
  rfl

theorem readSource_bcst_unreadable {s : State} {f : Form} {aaa : BitVec 3} {la : Word} {j : Nat}
    (hsp : s.inSpace la 8 = true) (hj : j < f.kl) (hact : s.active aaa j = true)
    (hr : s.isReadable la.toNat 8 = false) :
    readSource s f (.bcst la) aaa = .error (.exception .memFault) := by
  have hlane : (List.range f.kl).any (s.active aaa) = true := List.any_eq_true.2 ⟨j, List.mem_range.2 hj, hact⟩
  rw [readSource_bcst, hsp, hlane, hr]
  rfl

/-! #### No lane active (R158; D12) -/

theorem sourceReady_of_inactive {s : State} {f : Form} {aaa : BitVec 3} {src : Source} {la : Word}
    (hf : f.isEvex = true) (hoff : ∀ j, j < f.kl → s.active aaa j = false)
    (hsrc : src = .mem la ∧ s.inSpace la (8 * f.kl) = true ∨ src = .bcst la ∧ s.inSpace la 8 = true) :
    s.sourceReady f aaa src = true := by
  obtain ⟨rfl, hsp⟩ | ⟨rfl, hsp⟩ := hsrc
  · have hlegacy : (f != .legacy) = true := by
      cases f with
      | legacy => cases hf
      | _ => rfl
    have hlanes : ((List.range f.kl).all fun j => !s.active aaa j || s.isReadable (la.toNat + 8 * j) 8) = true :=
      List.all_eq_true.2 fun j hj => by rw [hoff j (List.mem_range.1 hj)]; rfl
    rw [State.sourceReady, hlegacy, hsp, hlanes]
    rfl
  · have hnone : (List.range f.kl).any (s.active aaa) = false :=
      List.any_eq_false.2 fun j hj => by rw [hoff j (List.mem_range.1 hj)]; decide
    rw [State.sourceReady, hsp, hnone]
    rfl

/-- Masked-off lanes detect no exception (R118). -/
theorem flags_of_inactive {i : Instr} {s : State} (hoff : ∀ j, j < i.form.kl → s.active i.aaa j = false) :
    i.preFlags s = noFlags ∧ i.postFlags s = noFlags := by
  have hnone : ∀ p, i.anyLane s p = false := fun p =>
    List.any_eq_false.2 fun j hj => by
      rw [Instr.activeLane, hoff j (List.mem_range.1 hj), Bool.false_and]
      decide
  simp only [Instr.preFlags, Instr.postFlags, hnone]
  exact ⟨rfl, rfl⟩

/-- With no lane active, an enabled instruction whose source is ready completes and sets no flag. -/
theorem completes_of_inactive {i : Instr} {s : State} (he : s.enabled i.form = true)
    (hsrc : s.sourceReady i.form i.aaa (i.source s) = true)
    (hoff : ∀ j, j < i.form.kl → s.active i.aaa j = false) : i.ready s = true ∧ i.mxcsrAfter s = s.mxcsr := by
  obtain ⟨hpre, hpost⟩ := flags_of_inactive hoff
  constructor
  · have hexc : i.unmaskedDetected s = false := by
      rw [Instr.unmaskedDetected, hpre, hpost]
      exact Bool.and_false _
    rw [Instr.ready, he, hsrc, hexc]
    rfl
  · rw [Instr.mxcsrAfter, hpre, hpost]
    split
    · rfl
    · exact raiseFlags_noFlags s.mxcsr

/-- Settles O27: readability is tested for the lanes that are active, and a lane that is not active detects nothing. -/
theorem unreadableOperandRaisesMemFault : Obligations.UnreadableOperandRaisesMemFault := by
  intro i s la he
  refine ⟨fun j hsrc hal hsp hj hact hbyte => ?_, fun j b hsrc hsp hj hact hb hbyte => ?_, fun hf hoff hla => ?_⟩
  · have hr : s.isReadable (la.toNat + 8 * (j / 8)) 8 = false :=
      isReadable_eq_false (b := j % 8) (by omega) (by rwa [show la.toNat + 8 * (j / 8) + j % 8 = la.toNat + j by omega])
    refine exec_of_readSource_error he (e := .exception .memFault) ?_
    rw [hsrc]
    exact readSource_mem_unreadable (isEvex_or_unmasked i) hal ((inSpace_iff s la _).2 hsp) (by omega) hact hr
  · refine exec_of_readSource_error he (e := .exception .memFault) ?_
    rw [hsrc]
    exact readSource_bcst_unreadable ((inSpace_iff s la _).2 hsp) hj hact (isReadable_eq_false hb hbyte)
  · rw [← inSpace_iff, ← inSpace_iff] at hla
    have hsrc : s.sourceReady i.form i.aaa (i.source s) = true := sourceReady_of_inactive hf hoff hla
    obtain ⟨hready, hmxcsr⟩ := completes_of_inactive he hsrc hoff
    exact ⟨nextState i s, exec_of_ready hready, hmxcsr⟩

end Sys2Proof.Machine

namespace Sys2Proof.Machine

/-! ### The effective address: the sum, cut to the address size (R43 to R47) -/

theorem readGpr_of_m64 {s : State} (hm : s.cfg.mode = .m64) (r : BitVec 4) : s.readGpr r = s.gpr[r.toFin] := by
  rw [State.readGpr, hm]
  rfl

theorem nextIp_of_m64 {s : State} (hm : s.cfg.mode = .m64) (len : Nat) :
    s.nextIp len = s.rip + BitVec.ofNat 64 len := by
  rw [State.nextIp, State.ip, hm]
  rfl

/-- Index number 0100 is no index (R44). -/
theorem num4_eq_four_iff (x : Bool) (index : BitVec 3) : num4 x index = 4#4 ↔ x = false ∧ index = 4#3 := by
  revert x index
  decide

theorem indexValue_of_m64 {s : State} (hm : s.cfg.mode = .m64) (x : Bool) (scale : BitVec 2) (index : BitVec 3) :
    s.indexValue x scale index =
      if x = false ∧ index = 4#3 then 0#64 else s.gpr[(num4 x index).toFin] <<< scale.toNat := by
  simp only [State.indexValue, num4_eq_four_iff, readGpr_of_m64 hm]

/-- The operands `mk d` differ in their displacement alone, which is added to `sum`. -/
def State.AddsDisp (s : State) (x b : Bool) (mk : Disp → MemOperand) (sum : Word) : Prop :=
  ∀ n len d, s.addressSum x b n len (mk d) = sum + d.value n

theorem addsDisp_base (s : State) (x b : Bool) (rm : BitVec 3) :
    s.AddsDisp x b (.base rm) (s.readGpr (num4 b rm)) :=
  fun _ _ _ => rfl

theorem addsDisp_sib (s : State) (x b : Bool) (scale : BitVec 2) (index bs : BitVec 3) :
    s.AddsDisp x b (.sib scale index bs) (s.readGpr (num4 b bs) + s.indexValue x scale index) :=
  fun _ _ _ => rfl

theorem wrapAddress_m32 (a : Word) : Mode.wrapAddress .m32 a = (a.extractLsb' 0 32).setWidth 64 :=
  congrArg (BitVec.setWidth 64) (BitVec.setWidth_eq_extractLsb' (by decide))

/-- An address of 32 bits is its own low half. -/
theorem extractLsb'_setWidth_32 (v : BitVec 32) : (v.setWidth 64).extractLsb' 0 32 = v := by
  rw [← BitVec.setWidth_eq_extractLsb' (by decide), BitVec.setWidth_setWidth_of_le v (by decide), BitVec.setWidth_eq]

theorem wrapAddress_m32_lt (a : Word) : (Mode.wrapAddress .m32 a).toNat < 2 ^ 32 := by
  rw [wrapAddress_m32, BitVec.toNat_setWidth_of_le (by decide)]
  exact BitVec.isLt _

theorem effectiveAddress_of_m32 {s : State} (hm : s.cfg.mode = .m32) (pfx : List Prefix) (x b : Bool) (n len : Nat)
    (m : MemOperand) :
    s.effectiveAddress pfx x b n len m = ((s.addressSum x b n len m).extractLsb' 0 32).setWidth 64 :=
  (if_pos (.inl hm)).trans (wrapAddress_m32 _)

theorem effectiveAddress_of_m64 {s : State} (hm : s.cfg.mode = .m64) (pfx : List Prefix) (x b : Bool) (n len : Nat)
    (m : MemOperand) :
    s.effectiveAddress pfx x b n len m =
      if pfx.contains .addrSize then ((s.addressSum x b n len m).extractLsb' 0 32).setWidth 64
      else s.addressSum x b n len m := by
  simp only [State.effectiveAddress, hm, wrapAddress_m32]
  simp

/-- Only the byte 67 changes the effective address. -/
theorem effectiveAddress_of_no_addrSize {pfx : List Prefix} (h67 : pfx.contains .addrSize = false) (s : State)
    (x b : Bool) (n len : Nat) (m : MemOperand) :
    s.effectiveAddress pfx x b n len m = s.effectiveAddress [] x b n len m := by
  simp only [State.effectiveAddress, h67]
  rfl

/-! #### The sum in 32 bits (R47) -/

/-- The low half of a general register. -/
def State.gprLow (s : State) (r : BitVec 4) : BitVec 32 := (s.gpr[r.toFin]).extractLsb' 0 32

/-- `idx` in 32 bits (R44, R47). -/
def State.indexLow (s : State) (x : Bool) (scale : BitVec 2) (index : BitVec 3) : BitVec 32 :=
  if num4 x index = 4#4 then 0#32 else s.gprLow (num4 x index) <<< scale.toNat

/-- `disp` in 32 bits (R43, R49). -/
def dispLow (scale8 : Nat) : Disp → BitVec 32
  | .none => 0#32
  | .d8 v => v.signExtend 32 * BitVec.ofNat 32 scale8
  | .d32 w => w

/-- The sum of R47 over the low halves of the registers: the low half of `State.addressSum` (`addressSum_low`). -/
def State.addressSumLow (s : State) (x b : Bool) (scale8 : Nat) : MemOperand → BitVec 32
  | .base rm d => s.gprLow (num4 b rm) + dispLow scale8 d
  | .disp32 w => w
  | .sib scale index bs d => s.gprLow (num4 b bs) + s.indexLow x scale index + dispLow scale8 d
  | .sibDisp32 scale index w => s.indexLow x scale index + w

theorem setWidth_signExtend_64_32 {w : Nat} (v : BitVec w) : (v.signExtend 64).setWidth 32 = v.signExtend 32 := by
  refine BitVec.eq_of_getLsbD_eq fun k hk => ?_
  rw [BitVec.getLsbD_setWidth, BitVec.getLsbD_signExtend, BitVec.getLsbD_signExtend, decide_eq_true hk,
    decide_eq_true (by omega : k < 64)]
  rfl

theorem readGpr_low {s : State} (hm : s.cfg.mode = .m32) (r : BitVec 4) : (s.readGpr r).setWidth 32 = s.gprLow r := by
  rw [State.readGpr, hm, wrapAddress_m32, BitVec.setWidth_eq_extractLsb' (by decide), extractLsb'_setWidth_32]
  rfl

theorem indexValue_low {s : State} (hm : s.cfg.mode = .m32) (x : Bool) (scale : BitVec 2) (index : BitVec 3) :
    (s.indexValue x scale index).setWidth 32 = s.indexLow x scale index := by
  rw [State.indexValue, State.indexLow]
  split
  · rfl
  · rw [BitVec.setWidth_shiftLeft_of_le (by decide), readGpr_low hm]

theorem disp_value_low (n : Nat) (d : Disp) : (d.value n).setWidth 32 = dispLow n d := by
  cases d with
  | none => rfl
  | d8 v =>
    rw [Disp.value, BitVec.setWidth_mul _ _ (by decide), setWidth_signExtend_64_32,
      BitVec.setWidth_ofNat_of_le (by decide)]
    rfl
  | d32 w => exact (setWidth_signExtend_64_32 w).trans (BitVec.signExtend_eq w)

theorem setWidth_32_add (a b : Word) : (a + b).setWidth 32 = a.setWidth 32 + b.setWidth 32 :=
  BitVec.setWidth_add a b (by decide)

/-- In M32 the low half of the sum is the sum of the low halves. -/
theorem addressSum_low {s : State} (hm : s.cfg.mode = .m32) (x b : Bool) (n len : Nat) (m : MemOperand) :
    (s.addressSum x b n len m).setWidth 32 = s.addressSumLow x b n m := by
  cases m with
  | base rm d =>
    rw [State.addressSum, setWidth_32_add, readGpr_low hm, disp_value_low]
    rfl
  | disp32 w =>
    simp only [State.addressSum, hm]
    exact (BitVec.setWidth_eq_extractLsb' (by decide)).trans (extractLsb'_setWidth_32 w)
  | sib scale index bs d =>
    rw [State.addressSum, setWidth_32_add, setWidth_32_add, readGpr_low hm, indexValue_low hm, disp_value_low]
    rfl
  | sibDisp32 scale index w =>
    rw [State.addressSum, setWidth_32_add, indexValue_low hm, setWidth_signExtend_64_32, BitVec.signExtend_eq]
    rfl

theorem effectiveAddress_eq_sumLow {s : State} (hm : s.cfg.mode = .m32) (pfx : List Prefix) (x b : Bool) (n len : Nat)
    (m : MemOperand) : s.effectiveAddress pfx x b n len m = (s.addressSumLow x b n m).setWidth 64 := by
  rw [effectiveAddress_of_m32 hm, ← BitVec.setWidth_eq_extractLsb' (by decide), addressSum_low hm]

/-! ### The linear address: the effective address plus a segment base (R48) -/

theorem linearAddress_of_m64 {s : State} (hm : s.cfg.mode = .m64) (pfx : List Prefix) (x b : Bool) (n len : Nat)
    (m : MemOperand) :
    s.linearAddress pfx x b n len m = s.effectiveAddress pfx x b n len m + s.overrideBase pfx := by
  rw [State.linearAddress, hm]
  rfl

theorem linearAddress_of_m32 {s : State} (hm : s.cfg.mode = .m32) (pfx : List Prefix) (x b : Bool) (n len : Nat)
    (m : MemOperand) :
    s.linearAddress pfx x b n len m =
      ((s.effectiveAddress pfx x b n len m + s.overrideBase pfx).extractLsb' 0 32).setWidth 64 := by
  rw [State.linearAddress, hm, wrapAddress_m32]

/-- A single override adds the base of the segment it names, which is 0 for all but FS and GS. -/
theorem overrideBase_singleton (s : State) (g : SegReg) : s.overrideBase [.seg g] = s.segmentBase g := by
  have heff : overrides s.cfg.mode [.seg g] = if g.hasEffect s.cfg.mode then [g] else [] := by
    cases h : g.hasEffect s.cfg.mode <;> simp [overrides, h]
  rw [State.overrideBase, heff]
  split_ifs with h
  · rfl
  · cases g with
    | fs | gs => exact absurd rfl h
    | es | cs | ss | ds => rfl

theorem segmentBase_flat (s : State) {g : SegReg} (hfs : g ≠ .fs) (hgs : g ≠ .gs) : s.segmentBase g = 0#64 := by
  cases g with
  | fs => exact absurd rfl hfs
  | gs => exact absurd rfl hgs
  | es | cs | ss | ds => rfl

/-- With nothing in front, in M64 the sum of R43 to R46; in M32 the sum in 32 bits. -/
theorem linearAddress_nil_of_m64 {s : State} (hm : s.cfg.mode = .m64) (x b : Bool) (n len : Nat) (m : MemOperand) :
    s.linearAddress [] x b n len m = s.addressSum x b n len m := by
  rw [linearAddress_of_m64 hm, effectiveAddress_of_m64 hm]
  exact BitVec.add_zero _

theorem linearAddress_nil_of_m32 {s : State} (hm : s.cfg.mode = .m32) (x b : Bool) (n len : Nat) (m : MemOperand) :
    s.linearAddress [] x b n len m = (s.addressSumLow x b n m).setWidth 64 := by
  rw [linearAddress_of_m32 hm, effectiveAddress_eq_sumLow hm, State.overrideBase, overrides, List.filterMap_nil,
    BitVec.add_zero, extractLsb'_setWidth_32]

theorem linearAddress_seg_of_m64 {s : State} (hm : s.cfg.mode = .m64) (g : SegReg) (x b : Bool) (n len : Nat)
    (m : MemOperand) :
    s.linearAddress [.seg g] x b n len m = s.linearAddress [] x b n len m + s.segmentBase g := by
  rw [linearAddress_of_m64 hm, overrideBase_singleton, effectiveAddress_of_no_addrSize (by rfl),
    linearAddress_nil_of_m64 hm, effectiveAddress_of_m64 hm]
  rfl

theorem linearAddress_seg_of_m32 {s : State} (hm : s.cfg.mode = .m32) (g : SegReg) (x b : Bool) (n len : Nat)
    (m : MemOperand) :
    s.linearAddress [.seg g] x b n len m =
      ((s.linearAddress [] x b n len m + s.segmentBase g).extractLsb' 0 32).setWidth 64 := by
  rw [linearAddress_of_m32 hm, overrideBase_singleton, effectiveAddress_eq_sumLow hm, linearAddress_nil_of_m32 hm]

/-- Settles O42: with nothing in front the linear address is the sum, and a segment override adds its base to it. -/
theorem linearAddressForms : Obligations.LinearAddressForms := by
  intro s n len
  refine ⟨fun hm x b => ?_, fun hm => ?_⟩
  · intro la forms idx
    have hla : ∀ m, la m = s.addressSum x b n len m := linearAddress_nil_of_m64 hm x b n len
    have hforms : ∀ {mk sum}, s.AddsDisp x b mk sum → forms mk sum := fun hmk =>
      ⟨(hla _).trans ((hmk n len .none).trans (BitVec.add_zero _)), fun v => (hla _).trans (hmk n len (.d8 v)),
        fun w => (hla _).trans (hmk n len (.d32 w))⟩
    have hidx : ∀ sc ix, s.indexValue x sc ix = idx sc ix := indexValue_of_m64 hm x
    refine ⟨fun rm => ?_, fun w => ?_, fun sc ix bs => ?_, fun sc ix w => ?_,
      fun m => ⟨?_, ?_, fun g hfs hgs => ?_⟩⟩
    · rw [← readGpr_of_m64 hm]
      exact hforms (addsDisp_base s x b rm)
    · rw [hla, ← nextIp_of_m64 hm]
      simp only [State.addressSum, hm]
    · rw [← readGpr_of_m64 hm, ← hidx]
      exact hforms (addsDisp_sib s x b sc ix bs)
    · rw [hla, ← hidx]
      rfl
    · exact linearAddress_seg_of_m64 hm .fs x b n len m
    · exact linearAddress_seg_of_m64 hm .gs x b n len m
    · rw [linearAddress_seg_of_m64 hm, segmentBase_flat s hfs hgs]
      exact BitVec.add_zero _
  · intro la reg is forms idx
    have hla : ∀ m, is m (s.addressSumLow false false n m) := linearAddress_nil_of_m32 hm false false n len
    have hforms : ∀ {mk sum}, (∀ d, s.addressSumLow false false n (mk d) = sum + dispLow n d) → forms mk sum :=
      fun hmk =>
        ⟨(hmk .none).trans (BitVec.add_zero _) ▸ hla _, fun v => hmk (.d8 v) ▸ hla _,
          fun w => hmk (.d32 w) ▸ hla _⟩
    have hidx : ∀ sc ix, s.indexLow false sc ix = idx sc ix := fun sc ix => by
      simp only [State.indexLow, num4_eq_four_iff, true_and]
      rfl
    refine ⟨fun rm => hforms fun d => rfl, fun w => hla (.disp32 w), fun sc ix bs => ?_, fun sc ix w => ?_,
      fun m => ⟨?_, ?_, fun g hfs hgs => ?_⟩⟩
    · rw [← hidx]
      exact hforms fun d => rfl
    · rw [← hidx]
      exact hla (.sibDisp32 sc ix w)
    · exact linearAddress_seg_of_m32 hm .fs false false n len m
    · exact linearAddress_seg_of_m32 hm .gs false false n len m
    · rw [linearAddress_seg_of_m32 hm, segmentBase_flat s hfs hgs, BitVec.add_zero, linearAddress_nil_of_m32 hm,
        extractLsb'_setWidth_32]
      exact (hla m).symm

/-- Settles O43: the address is cut to 32 bits by the byte 67 and in M32, where the low halves alone decide. -/
theorem thirtyTwoBitAddresses : Obligations.ThirtyTwoBitAddresses := by
  intro s pfx x b n len m
  refine ⟨fun hm => ?_, fun hm => ⟨?_, ?_, ?_⟩⟩
  · rw [effectiveAddress_of_m64 hm, effectiveAddress_of_m64 hm]
    rfl
  · rw [effectiveAddress_eq_sumLow hm]
    cases m with
    | base rm d | sib sc ix bs d => cases d <;> rfl
    | disp32 w | sibDisp32 sc ix w => rfl
  · rw [effectiveAddress_eq_sumLow hm, BitVec.toNat_setWidth_of_le (by decide)]
    exact BitVec.isLt _
  · rw [State.linearAddress, hm]
    exact wrapAddress_m32_lt _

/-! ### A `disp8` in an EVEX instruction (R49) -/

/-- No scaled `disp8` overflows 32 bits. -/
theorem disp8_value_eq_disp32 (v : BitVec 8) {n : Nat} (hn : n ≤ 64) :
    (Disp.d8 v).value n = (Disp.d32 (v.signExtend 32 * BitVec.ofNat 32 n)).value n := by
  have hlo : -2 ^ 7 ≤ v.toInt := v.le_toInt
  have hhi : v.toInt < 2 ^ 7 := v.toInt_lt
  have hscale : (0 : Int) ≤ n ∧ (n : Int) ≤ 64 := by omega
  have hprod : -2 ^ 13 ≤ v.toInt * n ∧ v.toInt * n ≤ 2 ^ 13 := by constructor <;> nlinarith
  have hn64 : (BitVec.ofNat 64 n).toInt = n := by rw [BitVec.toInt_ofNat', Int.bmod_eq_of_le] <;> omega
  have hn32 : (BitVec.ofNat 32 n).toInt = n := by rw [BitVec.toInt_ofNat', Int.bmod_eq_of_le] <;> omega
  refine BitVec.eq_of_toInt_eq ?_
  rw [Disp.value, Disp.value, BitVec.toInt_signExtend_of_le (by decide), BitVec.toInt_mul, BitVec.toInt_mul,
    BitVec.toInt_signExtend_of_le (by decide), BitVec.toInt_signExtend_of_le (by decide), hn64, hn32,
    Int.bmod_eq_of_le (by omega) (by omega), Int.bmod_eq_of_le (by omega) (by omega)]

theorem linearAddress_congr {s : State} {x b : Bool} {n len len' : Nat} {m m' : MemOperand}
    (h : s.addressSum x b n len m = s.addressSum x b n len' m') (pfx : List Prefix) :
    s.linearAddress pfx x b n len m = s.linearAddress pfx x b n len' m' := by
  simp only [State.linearAddress, State.effectiveAddress, h]

theorem linearAddress_disp8 {s : State} {x b : Bool} {mk : Disp → MemOperand} {sum : Word}
    (h : s.AddsDisp x b mk sum) (pfx : List Prefix) (v : BitVec 8) {n : Nat} (hn : n ≤ 64) (len len' : Nat) :
    s.linearAddress pfx x b n len (mk (.d8 v)) =
      s.linearAddress pfx x b n len' (mk (.d32 (v.signExtend 32 * BitVec.ofNat 32 n))) :=
  linearAddress_congr (by rw [h n len, h n len', disp8_value_eq_disp32 v hn]) pfx

/-- Settles O44: the two operands have the same sum, whatever the lengths of the two instructions. -/
theorem compressedDisplacement : Obligations.CompressedDisplacement := by
  intro s pfx e reg v scaled
  have hscaled : ∀ {mk sum}, s.AddsDisp e.x e.b mk sum → scaled mk := fun hmk =>
    have hla {n : Nat} (hn : n ≤ 64) (len len' : Nat) := linearAddress_disp8 hmk pfx v hn len len'
    ⟨congrArg Source.mem (hla (by decide) _ _), congrArg Source.mem (hla (by decide) _ _),
      congrArg Source.mem (hla (by decide) _ _), congrArg Source.bcst (hla (by decide) _ _),
      congrArg Source.bcst (hla (by decide) _ _), congrArg Source.bcst (hla (by decide) _ _)⟩
  exact ⟨fun rm => hscaled (addsDisp_base s _ _ rm), fun sc ix bs => hscaled (addsDisp_sib s _ _ sc ix bs)⟩

end Sys2Proof.Machine
end

section
/-!
Decoding and encoding are inverse to each other: an instruction's bytes taken apart into prefixes, REX byte, opcode and
ModRM operand (`encode_eq_parts`), and what decoding answers to bytes made of such parts (`decode_parts`). From these the
two round trips (O1, O2), `#UD` held back until the length is known (O3), the reserved fields (O4, O5), the neighbouring
instructions (O7), the step that executes the bytes in memory (O11), sample words (O9) and the ignored W (O41).
-/

namespace Sys2Proof

/-! ### Prefixes and the REX byte, from their bytes and back (30_encoding.md R61, R62, R76 steps 1 and 2) -/

/-- The byte of the REX in force, or nothing (R62). -/
def rexBytes (rex : Option Rex) : List Byte := rex.toList.map Rex.toByte

@[simp] theorem rexBytes_length (rex : Option Rex) : (rexBytes rex).length = rex.toList.length := by
  simp [rexBytes]

theorem rexBytes_eq_nil_iff (rex : Option Rex) : rexBytes rex = [] ↔ rex = none := by
  cases rex <;> simp [rexBytes]

theorem toByte_of_legacyPrefix {b : Byte} {p : Prefix} (h : legacyPrefix b = some p) :
    p.toByte = b ∧ p.isLegacy = true := by
  have hall : ∀ b : Byte, ∀ p ∈ legacyPrefix b, p.toByte = b ∧ p.isLegacy = true := by decide
  exact hall b p h

theorem toByte_of_rexOf {b : Byte} {rex : Rex} (h : rexOf b = some rex) : rex.toByte = b := by
  have hall : ∀ b : Byte, ∀ rex ∈ rexOf b, rex.toByte = b := by decide
  exact hall b rex h

/-- The scan finds the prefixes and the REX byte that were written, up to the first byte of an opcode. -/
theorem scanPrefixes_parts {m : Mode} {pfx : List Prefix} {rex : Option Rex} {b : Byte}
    (hp : prefixesScan m pfx = true) (hr : rex.isSome = true → m = .m64) (hb : legacyPrefix b = none)
    (hb' : rexOf b = none) (bs : List Byte) :
    scanPrefixes m (pfx.map Prefix.toByte ++ rexBytes rex ++ b :: bs) = (pfx, rex, b :: bs) := by
  rw [List.append_assoc]
  cases rex with
  | none => exact scanPrefixes_append_opcode hp hb (.inr hb') bs
  | some rex =>
    obtain rfl := hr rfl
    exact scanPrefixes_append_rex hp rex hb bs

/-- What the scan does with a byte: one of the legacy prefixes, a REX byte that one of these drops, the REX byte in
force, or the first byte of the opcode. -/
theorem scanPrefixes_cons (m : Mode) (b : Byte) (bs : List Byte) :
    (∃ p, legacyPrefix b = some p ∧
      scanPrefixes m (b :: bs) = (p :: (scanPrefixes m bs).1, (scanPrefixes m bs).2)) ∨
    (m = .m64 ∧ ∃ rex, rexOf b = some rex ∧ (∃ c ∈ bs.head?, (legacyPrefix c).isSome = true) ∧
      scanPrefixes m (b :: bs) = (.droppedRex rex :: (scanPrefixes m bs).1, (scanPrefixes m bs).2)) ∨
    (m = .m64 ∧ ∃ rex, rexOf b = some rex ∧ scanPrefixes m (b :: bs) = ([], some rex, bs)) ∨
    scanPrefixes m (b :: bs) = ([], none, b :: bs) := by
  cases hl : legacyPrefix b with
  | some p => exact .inl ⟨p, rfl, scanPrefixes_legacy hl m bs⟩
  | none =>
    refine .inr ?_
    cases m with
    | m32 => exact .inr (.inr (scanPrefixes_of_opcode hl (.inl rfl) bs))
    | m64 =>
      cases hr : rexOf b with
      | none => exact .inr (.inr (scanPrefixes_of_opcode hl (.inr hr) bs))
      | some rex =>
        by_cases hbs : ∀ c ∈ bs.head?, legacyPrefix c = none
        · exact .inr (.inl ⟨rfl, rex, rfl, scanPrefixes_rex hl hr hbs⟩)
        · push Not at hbs
          obtain ⟨c, hc, hne⟩ := hbs
          have hsome := Option.isSome_iff_ne_none.2 hne
          obtain ⟨cs, rfl⟩ := List.head?_eq_some_iff.1 hc
          exact .inl ⟨rfl, rex, rfl, ⟨c, hc, hsome⟩, scanPrefixes_droppedRex hl hr hsome cs⟩

/-- The scan loses no byte, and finds prefixes of the mode only. -/
theorem bytes_of_scanPrefixes (m : Mode) (bs : List Byte) :
    (scanPrefixes m bs).1.map Prefix.toByte ++ rexBytes (scanPrefixes m bs).2.1 ++ (scanPrefixes m bs).2.2 = bs ∧
      prefixesScan m (scanPrefixes m bs).1 = true ∧ ((scanPrefixes m bs).2.1.isSome = true → m = .m64) := by
  induction bs with
  | nil => exact ⟨rfl, rfl, fun h => by cases h⟩
  | cons b bs ih =>
    obtain ⟨hbytes, hps, hm⟩ := ih
    obtain ⟨p, hp, hscan⟩ | ⟨rfl, rex, hr, ⟨c, hc, hsome⟩, hscan⟩ | ⟨rfl, rex, hr, hscan⟩ | hscan :=
      scanPrefixes_cons m b bs
    all_goals rw [hscan]
    · obtain ⟨hbyte, hleg⟩ := toByte_of_legacyPrefix hp
      refine ⟨congrArg₂ List.cons hbyte hbytes, ?_, hm⟩
      cases p with
      | droppedRex => cases hleg
      | _ => exact hps
    · refine ⟨congrArg₂ List.cons (toByte_of_rexOf hr) hbytes, ?_, hm⟩
      obtain ⟨cs, rfl⟩ := List.head?_eq_some_iff.1 hc
      obtain ⟨q, hq⟩ := Option.isSome_iff_exists.1 hsome
      rw [scanPrefixes_legacy hq] at hps ⊢
      simpa [prefixesScan, (toByte_of_legacyPrefix hq).2] using hps
    · exact ⟨congrArg (· :: bs) (toByte_of_rexOf hr), rfl, fun _ => rfl⟩
    · exact ⟨rfl, rfl, fun h => by cases h⟩

/-! ### The ModRM operand, back to its bytes (20_memory.md R43, R44; 30_encoding.md R64) -/

theorem byte233_extract (b : Byte) :
    byte233 (b.extractLsb' 6 2) (b.extractLsb' 3 3) (b.extractLsb' 0 3) = b := by
  revert b
  decide

theorem extractLsb'_append_bytes (b0 b1 b2 b3 : BitVec 8) :
    (b3 ++ b2 ++ b1 ++ b0).extractLsb' 0 8 = b0 ∧ (b3 ++ b2 ++ b1 ++ b0).extractLsb' 8 8 = b1 ∧
      (b3 ++ b2 ++ b1 ++ b0).extractLsb' 16 8 = b2 ∧ (b3 ++ b2 ++ b1 ++ b0).extractLsb' 24 8 = b3 := by
  simp only [BitVec.extractLsb'_append_eq_ite]
  simp

theorem bytes32_le32 (b0 b1 b2 b3 : Byte) : bytes32 (le32 b0 b1 b2 b3) = [b0, b1, b2, b3] := by
  obtain ⟨h0, h1, h2, h3⟩ := extractLsb'_append_bytes b0 b1 b2 b3
  rw [bytes32, le32, h0, h1, h2, h3]

theorem eq_bytes_of_parseDisp {mod : BitVec 2} {reg reg' : BitVec 3} {mk : Disp → MemOperand} {bs rest : List Byte}
    {rm : RegMem} (hmod : mod ≠ 3#2) (h : parseDisp mod reg mk bs = .ok reg' rm rest) :
    reg' = reg ∧ ∃ d, rm = .mem (mk d) ∧ d.mod = mod ∧ bs = d.bytes ++ rest := by
  unfold parseDisp at h
  split_ifs at h with h0 h1
  · cases h
    exact ⟨rfl, .none, rfl, h0.symm, rfl⟩
  · split at h <;> cases h
    exact ⟨rfl, .d8 _, rfl, h1.symm, rfl⟩
  · have h2 : 2#2 = mod := by revert mod; decide
    split at h <;> cases h
    exact ⟨rfl, .d32 _, rfl, h2, by rw [Disp.bytes, bytes32_le32]; rfl⟩

theorem eq_bytes_of_parseDisp32 {reg reg' : BitVec 3} {mk : BitVec 32 → MemOperand} {bs rest : List Byte}
    {rm : RegMem} (h : parseDisp32 reg mk bs = .ok reg' rm rest) :
    reg' = reg ∧ ∃ v, rm = .mem (mk v) ∧ bs = bytes32 v ++ rest := by
  unfold parseDisp32 at h
  split at h <;> cases h
  exact ⟨rfl, _, rfl, by rw [bytes32_le32]; rfl⟩

/-- The operand that step 4 of R76 finds is one that ModRM and SIB can write, and the bytes taken are its encoding. -/
theorem eq_encode_of_parseModRM {a16 : Bool} {bs rest : List Byte} {reg : BitVec 3} {rm : RegMem}
    (h : parseModRM a16 bs = .ok reg rm rest) :
    bs = rm.encode reg ++ rest ∧ rm.wf = true ∧ (rm.isMem = true → a16 = false) := by
  cases bs with
  | nil => cases h
  | cons modrm bs =>
    have hmodrm := byte233_extract modrm
    simp only [parseModRM] at h
    split_ifs at h with h3 h16 h4 h5
    · cases h
      exact ⟨by rw [RegMem.encode, ← h3, hmodrm]; rfl, rfl, fun h => by cases h⟩
    · cases bs with
      | nil => cases h
      | cons sib bs =>
        have hsib := byte233_extract sib
        simp only at h
        split_ifs at h with h50
        · obtain ⟨hbase, h0⟩ := h50
          obtain ⟨rfl, v, rfl, rfl⟩ := eq_bytes_of_parseDisp32 h
          exact ⟨by rw [RegMem.encode, ← h0, ← h4, hmodrm, ← hbase, hsib]; rfl, rfl, fun _ => by simpa using h16⟩
        · obtain ⟨rfl, d, rfl, hd, rfl⟩ := eq_bytes_of_parseDisp h3 h
          refine ⟨by rw [RegMem.encode, hd, ← h4, hmodrm, hsib]; rfl, ?_, fun _ => by simpa using h16⟩
          rw [← hd, Disp.mod_eq_zero_iff] at h50
          simpa [RegMem.wf, MemOperand.wf, imp_iff_not_or] using h50
    · obtain ⟨h5, h0⟩ := h5
      obtain ⟨rfl, v, rfl, rfl⟩ := eq_bytes_of_parseDisp32 h
      exact ⟨by rw [RegMem.encode, ← h0, ← h5, hmodrm]; rfl, rfl, fun _ => by simpa using h16⟩
    · obtain ⟨rfl, d, rfl, hd, rfl⟩ := eq_bytes_of_parseDisp h3 h
      refine ⟨by rw [RegMem.encode, hd, hmodrm]; rfl, ?_, fun _ => by simpa using h16⟩
      rw [← hd, Disp.mod_eq_zero_iff] at h5
      simpa [RegMem.wf, MemOperand.wf, h4, imp_iff_not_or] using h5

/-! ### The opcode of each shape (30_encoding.md R60, R63, R66, R67, R69, R76 step 3) -/

/-- What stands between the prefixes and ModRM: `0F 5A`, or VEX or EVEX with any bits and then 5A (R60). -/
inductive Opcode where
  | legacy
  | c5 (v1 : Byte)
  | c4 (v1 v2 : Byte)
  | evex (p0 p1 p2 : Byte)

/-- The bytes of an opcode (R63, R66, R67, R69). -/
def Opcode.bytes : Opcode → List Byte
  | .legacy => [0x0F#8, 0x5A#8]
  | .c5 v1 => [0xC5#8, v1, 0x5A#8]
  | .c4 v1 v2 => [0xC4#8, v1, v2, 0x5A#8]
  | .evex p0 p1 p2 => [0x62#8, p0, p1, p2, 0x5A#8]

/-- The map and `pp` are those of the instruction (R79), and in M32 no stored extension bit is 0 (R80). -/
def Opcode.InTable (m : Mode) (pfx : List Prefix) : Opcode → Prop
  | .legacy => pfx.contains .opSize = true ∧ pfx.contains .repne = false ∧ pfx.contains .rep = false
  | .c5 v1 => (m = .m32 → v1.extractLsb' 6 2 = 3#2) ∧ v1.extractLsb' 0 2 = 1#2
  | .c4 v1 v2 => (m = .m32 → v1.extractLsb' 5 3 = 7#3) ∧ v1.extractLsb' 0 5 = 1#5 ∧ v2.extractLsb' 0 2 = 1#2
  | .evex p0 p1 p2 => (m = .m32 → p0.extractLsb' 4 4 = 0xF#4 ∧ p2.getLsbD 3 = true) ∧ p0.extractLsb' 0 3 = 1#3 ∧
      p1.extractLsb' 0 2 = 1#2

/-- The free bits that the two bytes after C4 store (R67). -/
def vex3Of (v1 v2 : Byte) : Vex3 := ⟨!v1.getLsbD 7, !v1.getLsbD 6, !v1.getLsbD 5, v2.getLsbD 7⟩

/-- The free bits that P0 and P2 store (R69). -/
def evexOf (p0 p2 : Byte) : Evex :=
  ⟨!p0.getLsbD 7, !p0.getLsbD 6, !p0.getLsbD 5, !p0.getLsbD 4, p2.getLsbD 7, p2.extractLsb' 0 3⟩

/-- The `#UD` held back until the length is known (R73, R78, C14). -/
def Opcode.reserved (pfx : List Prefix) (rex : Option Rex) : Opcode → Bool
  | .legacy => pfx.contains .lock
  | .c5 v1 => badVexPrefix pfx rex || v1.extractLsb' 3 4 != 0xF#4
  | .c4 _ v2 => badVexPrefix pfx rex || v2.extractLsb' 3 4 != 0xF#4
  | .evex p0 p1 p2 => badVexPrefix pfx rex || p0.getLsbD 3 || !p1.getLsbD 2 || !p1.getLsbD 7 ||
      p1.extractLsb' 3 4 != 0xF#4 || !p2.getLsbD 3 || (p2.getLsbD 7 && p2.extractLsb' 0 3 == 0#3)

/-- The instruction that an operand completes; `none` is `#UD` (R71). -/
def Opcode.build (pfx : List Prefix) (rex : Option Rex) (reg : BitVec 3) (rm : RegMem) : Opcode → Option Instr
  | .legacy => some (rex.elim (.cvtpd2ps pfx reg rm) (.cvtpd2psRex pfx · reg rm))
  | .c5 v1 =>
    if v1.getLsbD 2 then some (.vex256C5 pfx (!v1.getLsbD 7) reg rm)
    else some (.vex128C5 pfx (!v1.getLsbD 7) reg rm)
  | .c4 v1 v2 =>
    if v2.getLsbD 2 then some (.vex256C4 pfx (vex3Of v1 v2) reg rm)
    else some (.vex128C4 pfx (vex3Of v1 v2) reg rm)
  | .evex p0 _ p2 => evexForm pfx (evexOf p0 p2) (p2.getLsbD 4) (p2.extractLsb' 5 2) reg rm

theorem stored_C4_iff (v1 : Byte) :
    v1.extractLsb' 5 3 = 7#3 ↔ v1.extractLsb' 6 2 = 3#2 ∧ v1.getLsbD 5 = true := by
  revert v1
  decide

theorem stored_P0_iff (p0 : Byte) :
    p0.extractLsb' 4 4 = 0xF#4 ↔ p0.extractLsb' 6 2 = 3#2 ∧ p0.getLsbD 5 = true ∧ p0.getLsbD 4 = true := by
  revert p0
  decide

theorem not_extension_c4 {m : Mode} {v1 : Byte} (hm : m = .m32 → v1.extractLsb' 5 3 = 7#3) :
    ¬(m = .m32 ∧ v1.getLsbD 5 = false) := by
  rintro ⟨h32, hB⟩
  obtain ⟨-, hB'⟩ := (stored_C4_iff v1).1 (hm h32)
  exact absurd (hB'.symm.trans hB) (by decide)

theorem not_extension_evex {m : Mode} {p0 p2 : Byte}
    (hm : m = .m32 → p0.extractLsb' 4 4 = 0xF#4 ∧ p2.getLsbD 3 = true) :
    ¬(m = .m32 ∧ (p0.getLsbD 5 = false ∨ p0.getLsbD 4 = false ∨ p2.getLsbD 3 = false)) := by
  rintro ⟨h32, hext⟩
  obtain ⟨hp0, hV⟩ := hm h32
  obtain ⟨-, hB, hR⟩ := (stored_P0_iff p0).1 hp0
  simp only [hB, hR, hV, Bool.true_eq_false, or_self] at hext

theorem parseOpcode_0F (m : Mode) (pfx : List Prefix) (rex : Option Rex) (bs : List Byte) :
    parseOpcode m pfx rex (0x0F#8 :: bs) = opcodeLegacy pfx rex bs := rfl

theorem parseOpcode_C5 (m : Mode) (pfx : List Prefix) (rex : Option Rex) (bs : List Byte) :
    parseOpcode m pfx rex (0xC5#8 :: bs) = opcodeC5 m pfx rex bs := rfl

theorem parseOpcode_C4 (m : Mode) (pfx : List Prefix) (rex : Option Rex) (bs : List Byte) :
    parseOpcode m pfx rex (0xC4#8 :: bs) = opcodeC4 m pfx rex bs := rfl

theorem parseOpcode_62 (m : Mode) (pfx : List Prefix) (rex : Option Rex) (bs : List Byte) :
    parseOpcode m pfx rex (0x62#8 :: bs) = opcode62 m pfx rex bs := rfl

/-- Step 3 of R76 on the bytes of an opcode of the table. -/
theorem parseOpcode_bytes {m : Mode} {pfx : List Prefix} {o : Opcode} (h : o.InTable m pfx) (rex : Option Rex)
    (rest : List Byte) :
    parseOpcode m pfx rex (o.bytes ++ rest) =
      .form (o.reserved pfx rex) (fun reg rm => o.build pfx rex reg rm) rest := by
  cases o with
  | legacy =>
    obtain ⟨h66, hF2, hF3⟩ := h
    simp only [Opcode.bytes, List.cons_append, List.nil_append, parseOpcode_0F, opcodeLegacy, h66, hF2, hF3]
    cases rex <;> rfl
  | c5 v1 =>
    obtain ⟨hm, hpp⟩ := h
    have hstored : ¬(m = .m32 ∧ v1.extractLsb' 6 2 ≠ 3#2) := fun ⟨h32, hv⟩ => hv (hm h32)
    simp only [Opcode.bytes, List.cons_append, List.nil_append, parseOpcode_C5, opcodeC5, hstored, hpp, ne_eq,
      not_true_eq_false, if_false]
    rfl
  | c4 v1 v2 =>
    obtain ⟨hm, hmap, hpp⟩ := h
    have hstored : ¬(m = .m32 ∧ v1.extractLsb' 6 2 ≠ 3#2) := fun ⟨h32, hv⟩ => hv ((stored_C4_iff v1).1 (hm h32)).1
    have hB := not_extension_c4 hm
    simp only [Opcode.bytes, List.cons_append, List.nil_append, parseOpcode_C4, opcodeC4, hstored, hB, hmap, hpp,
      ne_eq, not_true_eq_false, or_self, if_false]
    rfl
  | evex p0 p1 p2 =>
    obtain ⟨hm, hmap, hpp⟩ := h
    have hstored : ¬(m = .m32 ∧ p0.extractLsb' 6 2 ≠ 3#2) := fun ⟨h32, hv⟩ =>
      hv ((stored_P0_iff p0).1 (hm h32).1).1
    have hext := not_extension_evex hm
    simp only [Opcode.bytes, List.cons_append, List.nil_append, parseOpcode_62, opcode62, hstored, hext, hmap, hpp,
      ne_eq, not_true_eq_false, or_self, if_false]
    rfl

/-- Only the bytes of an opcode of the table ask for an operand. -/
theorem eq_bytes_of_parseOpcode {m : Mode} {pfx : List Prefix} {rex : Option Rex} {bs rest : List Byte} {ud : Bool}
    {build : BitVec 3 → RegMem → Option Instr} (h : parseOpcode m pfx rex bs = .form ud build rest) :
    ∃ o : Opcode, o.InTable m pfx ∧ bs = o.bytes ++ rest := by
  cases bs with
  | nil => cases h
  | cons b bs =>
    simp only [parseOpcode] at h
    split_ifs at h with h0F hC5 hC4 h62
    · cases bs with
      | nil => cases h
      | cons op bs =>
        simp only [opcodeLegacy] at h
        split_ifs at h with hop hpfx
        cases h
        obtain rfl := not_not.1 hop
        simp only [Bool.or_eq_true, Bool.not_eq_true', not_or, Bool.not_eq_true, Bool.not_eq_false] at hpfx
        obtain ⟨⟨hF2, hF3⟩, h66⟩ := hpfx
        exact ⟨.legacy, ⟨h66, hF2, hF3⟩, by rw [h0F]; rfl⟩
    · match bs with
      | [] => cases h
      | [v1] => simp only [opcodeC5] at h; split_ifs at h
      | v1 :: op :: bs =>
        simp only [opcodeC5] at h
        split_ifs at h with hm hpp hop
        all_goals
          cases h
          obtain rfl := not_not.1 hop
          simp only [not_and, ne_eq, not_not] at hm hpp
          exact ⟨.c5 v1, ⟨hm, hpp⟩, by rw [hC5]; rfl⟩
    · match bs with
      | [] => cases h
      | [v1] | [v1, v2] => simp only [opcodeC4] at h; split_ifs at h
      | v1 :: v2 :: op :: bs =>
        simp only [opcodeC4] at h
        split_ifs at h with hm hB hop
        all_goals
          cases h
          simp only [not_and, not_or, ne_eq, not_not, Bool.not_eq_false] at hm hB hop
          obtain ⟨hmap, hpp, rfl⟩ := hop
          exact ⟨.c4 v1 v2, ⟨fun h32 => (stored_C4_iff v1).2 ⟨hm h32, hB h32⟩, hmap, hpp⟩, by rw [hC4]; rfl⟩
    · match bs with
      | [] => cases h
      | [p0] | [p0, p1] | [p0, p1, p2] => simp only [opcode62] at h; split_ifs at h
      | p0 :: p1 :: p2 :: op :: bs =>
        simp only [opcode62] at h
        split_ifs at h with hm hB hop
        cases h
        simp only [not_and, not_or, ne_eq, not_not, Bool.not_eq_false] at hm hB hop
        obtain ⟨hmap, hpp, rfl⟩ := hop
        refine ⟨.evex p0 p1 p2, ⟨fun h32 => ?_, hmap, hpp⟩, by rw [h62]; rfl⟩
        obtain ⟨h5, h4, h3⟩ := hB h32
        exact ⟨(stored_P0_iff p0).2 ⟨hm h32, h5, h4⟩, h3⟩

/-! ### Decoding bytes made of parts (R76) -/

/-- No opcode begins with a byte that the scan would take. -/
theorem Opcode.bytes_head (o : Opcode) :
    ∃ b bs, o.bytes = b :: bs ∧ legacyPrefix b = none ∧ rexOf b = none := by
  cases o <;> exact ⟨_, _, rfl, rfl, rfl⟩

/-- Prefixes, a REX byte, an opcode of the table and an operand: too long, else `#UD`, else the instruction. -/
theorem decode_parts {m : Mode} {pfx : List Prefix} {rex : Option Rex} {o : Opcode} {rm : RegMem}
    (hpfx : prefixesScan m pfx = true) (hrex : rex.isSome = true → m = .m64) (ho : o.InTable m pfx)
    (hrm : rm.wf = true) (haddr : addressable m pfx rm.isMem = true) (reg : BitVec 3) (rest : List Byte) :
    decode m (pfx.map Prefix.toByte ++ rexBytes rex ++ o.bytes ++ rm.encode reg ++ rest) =
      if 15 < pfx.length + rex.toList.length + o.bytes.length + 1 + rm.size then .tooLong
      else if o.reserved pfx rex then .invalid
      else (o.build pfx rex reg rm).elim .invalid (.instr · rest) := by
  have hscan : scanPrefixes m (pfx.map Prefix.toByte ++ rexBytes rex ++ o.bytes ++ rm.encode reg ++ rest) =
      (pfx, rex, o.bytes ++ (rm.encode reg ++ rest)) := by
    obtain ⟨b, bs, hb, hl, hr⟩ := o.bytes_head
    simpa only [hb, List.append_assoc, List.cons_append] using
      scanPrefixes_parts hpfx hrex hl hr (bs ++ (rm.encode reg ++ rest))
  have htaken : (pfx.map Prefix.toByte ++ rexBytes rex ++ o.bytes ++ rm.encode reg ++ rest).length - rest.length =
      pfx.length + rex.toList.length + o.bytes.length + 1 + rm.size := by
    simp only [List.length_append, List.length_map, rexBytes_length, RegMem.encode_length]
    omega
  simp only [decode, hscan, parseOpcode_bytes ho,
    parseModRM_encode hrm ((addressable_iff m pfx rm.isMem).1 haddr), htaken]
  cases o.build pfx rex reg rm <;> rfl

/-- Bytes that decode to an instruction are made of such parts. -/
theorem parts_of_decode {m : Mode} {bytes rest : List Byte} {i : Instr} (h : decode m bytes = .instr i rest) :
    ∃ pfx rex o reg rm,
      bytes = pfx.map Prefix.toByte ++ rexBytes rex ++ Opcode.bytes o ++ rm.encode reg ++ rest ∧
      prefixesScan m pfx = true ∧ (rex.isSome = true → m = .m64) ∧ o.InTable m pfx ∧ rm.wf = true ∧
      addressable m pfx rm.isMem = true ∧ o.reserved pfx rex = false ∧ o.build pfx rex reg rm = some i := by
  obtain ⟨build, rest', reg, rm, hop, hrm, hi, -⟩ := decode_eq_instr h
  obtain ⟨hbytes, hpfx, hrex⟩ := bytes_of_scanPrefixes m bytes
  obtain ⟨o, ho, hbody⟩ := eq_bytes_of_parseOpcode hop
  obtain ⟨rfl, hwf, h16⟩ := eq_encode_of_parseModRM hrm
  rw [hbody, parseOpcode_bytes ho] at hop
  injection hop with hud hbuild
  refine ⟨_, _, o, reg, rm, ?_, hpfx, hrex, ho, hwf, (addressable_iff ..).2 h16, hud, ?_⟩
  · rw [hbody] at hbytes
    simpa only [List.append_assoc] using hbytes.symm
  · rw [← hi, ← hbuild]

/-! ### The parts of an instruction (30_encoding.md R60) -/

/-- The REX byte of an instruction (R62). -/
def Instr.rex? : Instr → Option Rex
  | .cvtpd2psRex _ rex _ _ => some rex
  | _ => none

/-- The `reg` field of ModRM (R64). -/
def Instr.reg : Instr → BitVec 3
  | .cvtpd2ps _ reg _ | .cvtpd2psRex _ _ reg _ => reg
  | .vex128C5 _ _ reg _ | .vex128C4 _ _ reg _ | .vex256C5 _ _ reg _ | .vex256C4 _ _ reg _ => reg
  | .evex512Er _ _ _ reg _ => reg
  | .evex128 _ _ reg _ | .evex256 _ _ reg _ | .evex512 _ _ reg _ => reg
  | .evex128Bcst _ _ reg _ | .evex256Bcst _ _ reg _ | .evex512Bcst _ _ reg _ => reg

/-- The r/m operand (R64). -/
def Instr.regMem : Instr → RegMem
  | .cvtpd2ps _ _ rm | .cvtpd2psRex _ _ _ rm => rm
  | .vex128C5 _ _ _ rm | .vex128C4 _ _ _ rm | .vex256C5 _ _ _ rm | .vex256C4 _ _ _ rm => rm
  | .evex512Er _ _ _ _ rm => .reg rm
  | .evex128 _ _ _ rm | .evex256 _ _ _ rm | .evex512 _ _ _ rm => rm
  | .evex128Bcst _ _ _ m | .evex256Bcst _ _ _ m | .evex512Bcst _ _ _ m => .mem m

/-- The EVEX opcode that holds these fields, with FD for P1 (R69, R70). -/
def Opcode.ofEvex (e : Evex) (ll : BitVec 2) (b : Bool) : Opcode := .evex (evexP0 e) 0xFD#8 (evexP2 e ll b)

/-- The opcode of an instruction (R84). -/
def Instr.opcode : Instr → Opcode
  | .cvtpd2ps .. | .cvtpd2psRex .. => .legacy
  | .vex128C5 _ r _ _ => .c5 (vexC5Byte r false)
  | .vex128C4 _ v _ _ => .c4 (vexC4Byte1 v) (vexC4Byte2 v false)
  | .vex256C5 _ r _ _ => .c5 (vexC5Byte r true)
  | .vex256C4 _ v _ _ => .c4 (vexC4Byte1 v) (vexC4Byte2 v true)
  | .evex512Er _ e rc _ _ => .ofEvex e rc.toBits true
  | .evex128 _ e _ _ => .ofEvex e 0#2 false
  | .evex128Bcst _ e _ _ => .ofEvex e 0#2 true
  | .evex256 _ e _ _ => .ofEvex e 1#2 false
  | .evex256Bcst _ e _ _ => .ofEvex e 1#2 true
  | .evex512 _ e _ _ => .ofEvex e 2#2 false
  | .evex512Bcst _ e _ _ => .ofEvex e 2#2 true

theorem encode_eq_parts (i : Instr) :
    encode i = i.prefixes.map Prefix.toByte ++ rexBytes i.rex? ++ i.opcode.bytes ++ i.regMem.encode i.reg := by
  cases i with
  | cvtpd2psRex p rex reg rm =>
    simp only [encode, Instr.prefixes, Instr.rex?, Instr.opcode, Instr.regMem, Instr.reg, rexBytes, Opcode.bytes,
      Option.toList, List.map_cons, List.map_nil, List.append_assoc, List.cons_append, List.nil_append]
  | _ => exact congrArg (· ++ _ ++ _) (List.append_nil _).symm

theorem size_eq_parts (i : Instr) :
    i.size = i.prefixes.length + i.rex?.toList.length + i.opcode.bytes.length + 1 + i.regMem.size := by
  rw [← i.len_eq_size, Instr.len, encode_eq_parts]
  simp only [List.length_append, List.length_map, rexBytes_length, RegMem.encode_length]
  omega

/-! #### The bits after C5 and C4 (R66, R67) -/

theorem vexC5Byte_bits (r l : Bool) :
    ((vexC5Byte r l).extractLsb' 6 2 = 3#2 ↔ r = false) ∧ (vexC5Byte r l).extractLsb' 0 2 = 1#2 ∧
      (vexC5Byte r l).extractLsb' 3 4 = 0xF#4 ∧ (vexC5Byte r l).getLsbD 2 = l ∧ (!(vexC5Byte r l).getLsbD 7) = r := by
  revert r l
  decide

theorem eq_vexC5Byte {v1 : Byte} (hpp : v1.extractLsb' 0 2 = 1#2) (hvvvv : v1.extractLsb' 3 4 = 0xF#4) :
    vexC5Byte (!v1.getLsbD 7) (v1.getLsbD 2) = v1 := by
  revert v1
  decide

theorem vexC4Byte1_bits (v : Vex3) :
    ((vexC4Byte1 v).extractLsb' 5 3 = 7#3 ↔ v.r = false ∧ v.x = false ∧ v.b = false) ∧
      (vexC4Byte1 v).extractLsb' 0 5 = 1#5 := by
  obtain ⟨r, x, b, w⟩ := v
  revert r x b w
  decide

theorem vexC4Byte2_bits (v : Vex3) (l : Bool) :
    (vexC4Byte2 v l).extractLsb' 0 2 = 1#2 ∧ (vexC4Byte2 v l).extractLsb' 3 4 = 0xF#4 ∧
      (vexC4Byte2 v l).getLsbD 2 = l := by
  obtain ⟨r, x, b, w⟩ := v
  revert r x b w l
  decide

theorem vex3Of_bytes (v : Vex3) (l : Bool) : vex3Of (vexC4Byte1 v) (vexC4Byte2 v l) = v := by
  obtain ⟨r, x, b, w⟩ := v
  revert r x b w l
  decide

theorem eq_vexC4Byte1 {v1 : Byte} (hmap : v1.extractLsb' 0 5 = 1#5) (v2 : Byte) :
    vexC4Byte1 (vex3Of v1 v2) = v1 := by
  simp only [vexC4Byte1, vex3Of]
  revert v1
  decide

theorem eq_vexC4Byte2 {v2 : Byte} (hpp : v2.extractLsb' 0 2 = 1#2) (hvvvv : v2.extractLsb' 3 4 = 0xF#4) (v1 : Byte) :
    vexC4Byte2 (vex3Of v1 v2) (v2.getLsbD 2) = v2 := by
  simp only [vexC4Byte2, vex3Of]
  revert v2
  decide

/-! #### The bits after 62 (R69, R70) -/

theorem evexP0_bits (e : Evex) :
    ((evexP0 e).extractLsb' 4 4 = 0xF#4 ↔ e.r = false ∧ e.x = false ∧ e.b = false ∧ e.rHi = false) ∧
      (evexP0 e).extractLsb' 0 3 = 1#3 ∧ (evexP0 e).getLsbD 3 = false := by
  obtain ⟨r, x, b, rHi, z, aaa⟩ := e
  simp only [evexP0]
  revert r x b rHi
  decide

theorem evexP2_bits (e : Evex) (ll : BitVec 2) (b : Bool) :
    (evexP2 e ll b).getLsbD 7 = e.z ∧ (evexP2 e ll b).extractLsb' 5 2 = ll ∧ (evexP2 e ll b).getLsbD 4 = b ∧
      (evexP2 e ll b).getLsbD 3 = true ∧ (evexP2 e ll b).extractLsb' 0 3 = e.aaa := by
  have hall : ∀ (z : Bool) (ll : BitVec 2) (b : Bool) (aaa : BitVec 3),
      let p2 : Byte := BitVec.ofBool z ++ ll ++ BitVec.ofBool b ++ 1#1 ++ aaa
      p2.getLsbD 7 = z ∧ p2.extractLsb' 5 2 = ll ∧ p2.getLsbD 4 = b ∧ p2.getLsbD 3 = true ∧
        p2.extractLsb' 0 3 = aaa := by
    decide
  exact hall e.z ll b e.aaa

theorem evexOf_bytes (e : Evex) (ll : BitVec 2) (b : Bool) : evexOf (evexP0 e) (evexP2 e ll b) = e := by
  obtain ⟨hz, -, -, -, haaa⟩ := evexP2_bits e ll b
  have hext : (!(evexP0 e).getLsbD 7) = e.r ∧ (!(evexP0 e).getLsbD 6) = e.x ∧ (!(evexP0 e).getLsbD 5) = e.b ∧
      (!(evexP0 e).getLsbD 4) = e.rHi := by
    obtain ⟨r, x, b, rHi, z, aaa⟩ := e
    simp only [evexP0]
    clear hz haaa
    revert r x b rHi
    decide
  obtain ⟨hr, hx, hb, hrHi⟩ := hext
  rw [evexOf, hr, hx, hb, hrHi, hz, haaa]

theorem eq_evexP0 {p0 : Byte} (h3 : p0.getLsbD 3 = false) (hmap : p0.extractLsb' 0 3 = 1#3) (p2 : Byte) :
    evexP0 (evexOf p0 p2) = p0 := by
  simp only [evexP0, evexOf]
  revert p0
  decide

theorem eq_evexP1 {p1 : Byte} (hpp : p1.extractLsb' 0 2 = 1#2) (h2 : p1.getLsbD 2 = true) (h7 : p1.getLsbD 7 = true)
    (hvvvv : p1.extractLsb' 3 4 = 0xF#4) : p1 = 0xFD#8 := by
  revert p1
  decide

theorem eq_evexP2 {p2 : Byte} (h3 : p2.getLsbD 3 = true) (p0 : Byte) :
    evexP2 (evexOf p0 p2) (p2.extractLsb' 5 2) (p2.getLsbD 4) = p2 := by
  simp only [evexP2, evexOf]
  revert p2
  decide

/-! #### Well-formed instructions (R60 to R80) -/

theorem prefixesLegacy_iff (m : Mode) (p : List Prefix) :
    prefixesLegacy m p = true ↔ prefixesScan m p = true ∧
      (p.contains .opSize = true ∧ p.contains .repne = false ∧ p.contains .rep = false) ∧
      p.contains .lock = false := by
  simp only [prefixesLegacy, Bool.and_eq_true, Bool.not_eq_true']
  tauto

theorem prefixesVex_iff (m : Mode) (p : List Prefix) :
    prefixesVex m p = true ↔ prefixesScan m p = true ∧ badVexPrefix p none = false := by
  simp only [prefixesVex, badVexPrefix, Bool.and_eq_true, Bool.not_eq_true', Bool.or_eq_false_iff, and_assoc,
    Option.isSome_none, and_true]

theorem Vex3.wf_iff (m : Mode) (v : Vex3) :
    v.wf m = true ↔ (m = .m32 → v.r = false ∧ v.x = false ∧ v.b = false) := by
  cases m <;> simp [Vex3.wf, and_assoc]

theorem Evex.wf_iff (m : Mode) (e : Evex) :
    e.wf m = true ↔ (m = .m32 → e.r = false ∧ e.x = false ∧ e.b = false ∧ e.rHi = false) ∧
      (e.z && e.aaa == 0#3) = false := by
  cases m <;> simp [Evex.wf, and_assoc, imp_iff_not_or]

theorem inTable_c5_iff (m : Mode) (pfx : List Prefix) (r l : Bool) :
    (Opcode.c5 (vexC5Byte r l)).InTable m pfx ↔ (m = .m32 → r = false) := by
  obtain ⟨hext, hpp, -⟩ := vexC5Byte_bits r l
  simp only [Opcode.InTable, hext, hpp, and_true]

theorem reserved_c5 (pfx : List Prefix) (rex : Option Rex) (r l : Bool) :
    (Opcode.c5 (vexC5Byte r l)).reserved pfx rex = badVexPrefix pfx rex := by
  obtain ⟨-, -, hvvvv, -⟩ := vexC5Byte_bits r l
  simp only [Opcode.reserved, hvvvv, bne_self_eq_false, Bool.or_false]

theorem inTable_c4_iff (m : Mode) (pfx : List Prefix) (v : Vex3) (l : Bool) :
    (Opcode.c4 (vexC4Byte1 v) (vexC4Byte2 v l)).InTable m pfx ↔ v.wf m = true := by
  obtain ⟨hext, hmap⟩ := vexC4Byte1_bits v
  obtain ⟨hpp, -⟩ := vexC4Byte2_bits v l
  simp only [Opcode.InTable, hext, hmap, hpp, and_true, Vex3.wf_iff]

theorem reserved_c4 (pfx : List Prefix) (rex : Option Rex) (v1 : Byte) (v : Vex3) (l : Bool) :
    (Opcode.c4 v1 (vexC4Byte2 v l)).reserved pfx rex = badVexPrefix pfx rex := by
  obtain ⟨-, hvvvv, -⟩ := vexC4Byte2_bits v l
  simp only [Opcode.reserved, hvvvv, bne_self_eq_false, Bool.or_false]

theorem inTable_ofEvex_iff (m : Mode) (pfx : List Prefix) (e : Evex) (ll : BitVec 2) (b : Bool) :
    (Opcode.ofEvex e ll b).InTable m pfx ↔
      (m = .m32 → e.r = false ∧ e.x = false ∧ e.b = false ∧ e.rHi = false) := by
  obtain ⟨hext, hmap, -⟩ := evexP0_bits e
  obtain ⟨-, -, -, hV, -⟩ := evexP2_bits e ll b
  have hpp : (0xFD#8).extractLsb' 0 2 = 1#2 := rfl
  simp only [Opcode.ofEvex, Opcode.InTable, hext, hmap, hV, hpp, and_true]

theorem reserved_ofEvex (pfx : List Prefix) (rex : Option Rex) (e : Evex) (ll : BitVec 2) (b : Bool) :
    (Opcode.ofEvex e ll b).reserved pfx rex = (badVexPrefix pfx rex || (e.z && e.aaa == 0#3)) := by
  obtain ⟨-, -, h3⟩ := evexP0_bits e
  obtain ⟨hz, -, -, hV, haaa⟩ := evexP2_bits e ll b
  have hP1 : (0xFD#8).getLsbD 2 = true ∧ (0xFD#8).getLsbD 7 = true ∧ (0xFD#8).extractLsb' 3 4 = 0xF#4 := by decide
  obtain ⟨h2, h7, hvvvv⟩ := hP1
  simp only [Opcode.ofEvex, Opcode.reserved, h3, hz, hV, haaa, h2, h7, hvvvv, bne_self_eq_false, Bool.not_true,
    Bool.or_false]

/-- The opcode of a well-formed instruction is in the table, with no `#UD`, and so are its prefixes and its operand. -/
theorem Instr.shapeWf_iff_parts (m : Mode) (i : Instr) :
    i.shapeWf m = true ↔ prefixesScan m i.prefixes = true ∧ (i.rex?.isSome = true → m = .m64) ∧
      i.opcode.InTable m i.prefixes ∧ i.regMem.wf = true ∧ addressable m i.prefixes i.regMem.isMem = true ∧
      i.opcode.reserved i.prefixes i.rex? = false := by
  cases i with
  | cvtpd2ps p reg rm =>
    simp only [shapeWf, prefixes, rex?, opcode, regMem, Opcode.InTable, Opcode.reserved, Bool.and_eq_true,
      prefixesLegacy_iff, Option.isSome_none, Bool.false_eq_true, false_imp_iff]
    tauto
  | cvtpd2psRex p rex reg rm =>
    simp only [shapeWf, prefixes, rex?, opcode, regMem, Opcode.InTable, Opcode.reserved, Bool.and_eq_true,
      prefixesLegacy_iff, Option.isSome_some, true_imp_iff, beq_iff_eq]
    have h64 : m = .m64 → addressable m p rm.isMem = true := by rintro rfl; rfl
    tauto
  | vex128C5 p r reg rm | vex256C5 p r reg rm =>
    have hr : (m == .m64 || !r) = true ↔ (m = .m32 → r = false) := by cases m <;> simp
    simp only [shapeWf, prefixes, rex?, opcode, regMem, inTable_c5_iff, reserved_c5, Bool.and_eq_true, hr,
      prefixesVex_iff, Option.isSome_none, Bool.false_eq_true, false_imp_iff]
    tauto
  | vex128C4 p v reg rm | vex256C4 p v reg rm =>
    simp only [shapeWf, prefixes, rex?, opcode, regMem, inTable_c4_iff, reserved_c4, Bool.and_eq_true,
      prefixesVex_iff, Option.isSome_none, Bool.false_eq_true, false_imp_iff]
    tauto
  | evex512Er p e rc reg rm =>
    have haddr : addressable m p false = true := by simp [addressable]
    simp only [shapeWf, prefixes, rex?, opcode, regMem, inTable_ofEvex_iff, reserved_ofEvex, Bool.and_eq_true,
      prefixesVex_iff, Evex.wf_iff, Bool.or_eq_false_iff, Option.isSome_none, Bool.false_eq_true, false_imp_iff,
      RegMem.wf, RegMem.isMem, haddr]
    tauto
  | evex128 p e reg rm | evex256 p e reg rm | evex512 p e reg rm =>
    simp only [shapeWf, prefixes, rex?, opcode, regMem, inTable_ofEvex_iff, reserved_ofEvex, Bool.and_eq_true,
      prefixesVex_iff, Evex.wf_iff, Bool.or_eq_false_iff, Option.isSome_none, Bool.false_eq_true, false_imp_iff]
    tauto
  | evex128Bcst p e reg mo | evex256Bcst p e reg mo | evex512Bcst p e reg mo =>
    simp only [shapeWf, prefixes, rex?, opcode, regMem, inTable_ofEvex_iff, reserved_ofEvex, Bool.and_eq_true,
      prefixesVex_iff, Evex.wf_iff, Bool.or_eq_false_iff, Option.isSome_none, Bool.false_eq_true, false_imp_iff,
      RegMem.wf, RegMem.isMem]
    tauto

/-! #### An instruction from its parts, and back -/

theorem Rounding.ofBits_toBits (rc : Rounding) : Rounding.ofBits rc.toBits = rc := by
  cases rc <;> rfl

theorem Rounding.toBits_ofBits (ll : BitVec 2) : (Rounding.ofBits ll).toBits = ll := by
  revert ll
  decide

theorem build_c5 (pfx : List Prefix) (rex : Option Rex) (r l : Bool) (reg : BitVec 3) (rm : RegMem) :
    (Opcode.c5 (vexC5Byte r l)).build pfx rex reg rm =
      if l then some (.vex256C5 pfx r reg rm) else some (.vex128C5 pfx r reg rm) := by
  obtain ⟨-, -, -, hl, hr⟩ := vexC5Byte_bits r l
  simp only [Opcode.build, hl, hr]

theorem build_c4 (pfx : List Prefix) (rex : Option Rex) (v : Vex3) (l : Bool) (reg : BitVec 3) (rm : RegMem) :
    (Opcode.c4 (vexC4Byte1 v) (vexC4Byte2 v l)).build pfx rex reg rm =
      if l then some (.vex256C4 pfx v reg rm) else some (.vex128C4 pfx v reg rm) := by
  obtain ⟨-, -, hl⟩ := vexC4Byte2_bits v l
  simp only [Opcode.build, vex3Of_bytes, hl]

theorem build_ofEvex (pfx : List Prefix) (rex : Option Rex) (e : Evex) (ll : BitVec 2) (b : Bool) (reg : BitVec 3)
    (rm : RegMem) : (Opcode.ofEvex e ll b).build pfx rex reg rm = evexForm pfx e b ll reg rm := by
  obtain ⟨-, hll, hb, -⟩ := evexP2_bits e ll b
  simp only [Opcode.ofEvex, Opcode.build, evexOf_bytes, hll, hb]

/-- The parts of an instruction make it. -/
theorem build_parts (i : Instr) : i.opcode.build i.prefixes i.rex? i.reg i.regMem = some i := by
  cases i with
  | cvtpd2ps | cvtpd2psRex => rfl
  | vex128C5 | vex256C5 => exact build_c5 ..
  | vex128C4 | vex256C4 => exact build_c4 ..
  | evex512Er p e rc reg rm =>
    simp only [Instr.opcode, build_ofEvex, Instr.regMem, evexForm, Rounding.ofBits_toBits]
    rfl
  | _ => exact build_ofEvex ..

theorem parts_of_evexForm {pfx : List Prefix} {e : Evex} {b : Bool} {ll : BitVec 2} {reg : BitVec 3} {rm : RegMem}
    {i : Instr} (h : evexForm pfx e b ll reg rm = some i) :
    i.prefixes = pfx ∧ i.rex? = none ∧ i.opcode = .ofEvex e ll b ∧ i.reg = reg ∧ i.regMem = rm := by
  unfold evexForm at h
  split at h
  · cases h
    exact ⟨rfl, rfl, by rw [Instr.opcode, Rounding.toBits_ofBits], rfl, rfl⟩
  all_goals
    split_ifs at h <;> cases h <;> subst ll <;> exact ⟨rfl, rfl, rfl, rfl, rfl⟩

/-- An instruction made of parts has these parts, if no reserved field hides in the opcode. -/
theorem parts_of_build {m : Mode} {pfx : List Prefix} {rex : Option Rex} {o : Opcode} {reg : BitVec 3} {rm : RegMem}
    {i : Instr} (ho : o.InTable m pfx) (hud : o.reserved pfx rex = false) (h : o.build pfx rex reg rm = some i) :
    i.prefixes = pfx ∧ i.rex? = rex ∧ i.opcode = o ∧ i.reg = reg ∧ i.regMem = rm := by
  cases o with
  | legacy => cases rex <;> cases h <;> exact ⟨rfl, rfl, rfl, rfl, rfl⟩
  | c5 v1 =>
    obtain ⟨-, hpp⟩ := ho
    simp only [Opcode.reserved, Bool.or_eq_false_iff, bne_eq_false_iff_eq] at hud
    obtain ⟨hbad, hvvvv⟩ := hud
    obtain rfl := rex_eq_none_of_badVexPrefix hbad
    have hv1 := eq_vexC5Byte hpp hvvvv
    simp only [Opcode.build] at h
    split_ifs at h with hl <;> cases h
    · exact ⟨rfl, rfl, by rw [Instr.opcode, ← hl, hv1], rfl, rfl⟩
    · exact ⟨rfl, rfl, by rw [Instr.opcode, ← Bool.eq_false_iff.2 hl, hv1], rfl, rfl⟩
  | c4 v1 v2 =>
    obtain ⟨-, hmap, hpp⟩ := ho
    simp only [Opcode.reserved, Bool.or_eq_false_iff, bne_eq_false_iff_eq] at hud
    obtain ⟨hbad, hvvvv⟩ := hud
    obtain rfl := rex_eq_none_of_badVexPrefix hbad
    have hv1 := eq_vexC4Byte1 hmap v2
    have hv2 := eq_vexC4Byte2 hpp hvvvv v1
    simp only [Opcode.build] at h
    split_ifs at h with hl <;> cases h
    · exact ⟨rfl, rfl, by rw [Instr.opcode, ← hl, hv1, hv2], rfl, rfl⟩
    · exact ⟨rfl, rfl, by rw [Instr.opcode, ← Bool.eq_false_iff.2 hl, hv1, hv2], rfl, rfl⟩
  | evex p0 p1 p2 =>
    obtain ⟨-, hmap, hpp⟩ := ho
    simp only [Opcode.reserved, Bool.or_eq_false_iff, bne_eq_false_iff_eq, Bool.not_eq_false'] at hud
    obtain ⟨⟨⟨⟨⟨⟨hbad, h3⟩, h2⟩, h7⟩, hvvvv⟩, hV⟩, -⟩ := hud
    obtain rfl := rex_eq_none_of_badVexPrefix hbad
    obtain ⟨hp, hr, ho, hreg, hrm⟩ := parts_of_evexForm h
    exact ⟨hp, hr, by rw [ho, Opcode.ofEvex, eq_evexP0 h3 hmap, ← eq_evexP1 hpp h2 h7 hvvvv, eq_evexP2 hV], hreg, hrm⟩

/-! ### The two round trips -/

/-- The bytes of an instruction decode to it, unless they are too many. -/
theorem decode_encode {m : Mode} {i : Instr} (h : i.shapeWf m = true) (rest : List Byte) :
    decode m (encode i ++ rest) = if 15 < i.size then .tooLong else .instr i rest := by
  obtain ⟨hpfx, hrex, ho, hrm, haddr, hud⟩ := (i.shapeWf_iff_parts m).1 h
  rw [encode_eq_parts, decode_parts hpfx hrex ho hrm haddr, hud, build_parts, ← size_eq_parts]
  rfl

/-- Settles O1: the bytes decode to the instruction, as they are at most 15. -/
theorem decodeOfEncodedInstruction : Obligations.DecodeOfEncodedInstruction := by
  intro m i rest hwf
  rw [Instr.wf, Bool.and_eq_true, decide_eq_true_eq] at hwf
  obtain ⟨hshape, hsize⟩ := hwf
  rw [decode_encode hshape, if_neg (Nat.not_lt.2 hsize)]

/-- Settles O2: the bytes are made of the parts of the instruction that they decode to. -/
theorem decodedBytesAreTheEncoding : Obligations.DecodedBytesAreTheEncoding := by
  intro m bytes i rest h
  obtain ⟨pfx, rex, o, reg, rm, hbytes, hpfx, hrex, ho, hrm, haddr, hud, hi⟩ := parts_of_decode h
  obtain ⟨rfl, rfl, rfl, rfl, rfl⟩ := parts_of_build ho hud hi
  obtain ⟨-, -, h15⟩ := decode_len h
  rw [← encode_eq_parts] at hbytes
  rw [i.len_eq_size] at h15
  rw [Instr.wf, Bool.and_eq_true, decide_eq_true_eq]
  exact ⟨hbytes, (i.shapeWf_iff_parts m).2 ⟨hpfx, hrex, ho, hrm, haddr, hud⟩, h15⟩

/-! ### Reserved fields and forbidden prefixes (R73, R78): too long before `#UD` (C14) -/

/-- The encoding is `#UD`: by its opcode and what stands in front of it, or by the operand too (R71, R78). -/
def Opcode.Rejected (pfx : List Prefix) (rex : Option Rex) (reg : BitVec 3) (rm : RegMem) (o : Opcode) : Prop :=
  o.reserved pfx rex = true ∨ o.build pfx rex reg rm = none

theorem decode_rejected {m : Mode} {pfx : List Prefix} {rex : Option Rex} {o : Opcode} {reg : BitVec 3} {rm : RegMem}
    (hpfx : prefixesScan m pfx = true) (hrex : rex.isSome = true → m = .m64) (ho : o.InTable m pfx)
    (hrm : rm.wf = true) (haddr : addressable m pfx rm.isMem = true) (hrej : o.Rejected pfx rex reg rm)
    (rest : List Byte) :
    decode m (pfx.map Prefix.toByte ++ rexBytes rex ++ o.bytes ++ rm.encode reg ++ rest) =
      if 15 < (pfx.map Prefix.toByte ++ rexBytes rex).length + o.bytes.length + 1 + rm.size then .tooLong
      else .invalid := by
  rw [decode_parts hpfx hrex ho hrm haddr, List.length_append, List.length_map, rexBytes_length]
  obtain hud | hnone := hrej
  · rw [hud]
    rfl
  · rw [hnone]
    exact congrArg (ite _ _) (ite_self _)

theorem rejected_c5 {pfx : List Prefix} {rex : Option Rex} {v1 : Byte}
    (h : v1.extractLsb' 3 4 ≠ 0xF#4 ∨ badVexPrefix pfx rex = true) (reg : BitVec 3) (rm : RegMem) :
    (Opcode.c5 v1).Rejected pfx rex reg rm :=
  .inl <| by simpa [Opcode.reserved, bne_iff_ne] using h.symm

theorem rejected_c4 {pfx : List Prefix} {rex : Option Rex} {v2 : Byte}
    (h : v2.extractLsb' 3 4 ≠ 0xF#4 ∨ badVexPrefix pfx rex = true) (v1 : Byte) (reg : BitVec 3) (rm : RegMem) :
    (Opcode.c4 v1 v2).Rejected pfx rex reg rm :=
  .inl <| by simpa [Opcode.reserved, bne_iff_ne] using h.symm

/-- `L'L = 11` is for embedded rounding only (R71). -/
theorem evexForm_eq_none {b : Bool} {rm : RegMem} (h : b = false ∨ rm.isMem = true) (pfx : List Prefix) (e : Evex)
    (reg : BitVec 3) : evexForm pfx e b 3#2 reg rm = none := by
  cases b with
  | false => rfl
  | true =>
    cases rm with
    | reg r => simp [RegMem.isMem] at h
    | mem mo => rfl

theorem rejected_evex {pfx : List Prefix} {rex : Option Rex} {p0 p1 p2 : Byte} {rm : RegMem}
    (h : p1.extractLsb' 3 4 ≠ 0xF#4 ∨ p0.getLsbD 3 = true ∨ p1.getLsbD 2 = false ∨ p1.getLsbD 7 = false ∨
      p2.getLsbD 3 = false ∨ (p2.getLsbD 7 = true ∧ p2.extractLsb' 0 3 = 0#3) ∨
      (p2.extractLsb' 5 2 = 3#2 ∧ (p2.getLsbD 4 = false ∨ rm.isMem = true)) ∨ badVexPrefix pfx rex = true)
    (reg : BitVec 3) : (Opcode.evex p0 p1 p2).Rejected pfx rex reg rm := by
  by_cases hll : p2.extractLsb' 5 2 = 3#2 ∧ (p2.getLsbD 4 = false ∨ rm.isMem = true)
  · obtain ⟨hll, hb⟩ := hll
    exact .inr (by rw [Opcode.build, hll, evexForm_eq_none hb])
  · refine .inl ?_
    simp only [Opcode.reserved, Bool.or_eq_true, Bool.and_eq_true, Bool.not_eq_true', bne_iff_ne, beq_iff_eq]
    tauto

theorem badVexPrefix_iff (pfx : List Prefix) (rex : Option Rex) :
    badVexPrefix pfx rex = true ↔ rexBytes rex ≠ [] ∨ pfx.contains .opSize = true ∨ pfx.contains .lock = true ∨
      pfx.contains .repne = true ∨ pfx.contains .rep = true := by
  rw [ne_eq, rexBytes_eq_nil_iff, ← ne_eq, Option.ne_none_iff_isSome]
  simp only [badVexPrefix, Bool.or_eq_true]
  tauto

/-- Settles O3: an encoding, and the parts of a `#UD` encoding of each shape, are measured first. -/
theorem overlongComesBeforeInvalid : Obligations.OverlongComesBeforeInvalid := by
  refine ⟨fun m i rest hshape hsize => by rw [decode_encode hshape, if_pos hsize],
    fun m pfx front reg rm rest hpfx hfront hrm haddr => ?_⟩
  obtain ⟨rex, rfl, hrex⟩ : ∃ rex, front = rexBytes rex ∧ (rex.isSome = true → m = .m64) := by
    obtain rfl | ⟨rfl, rex, rfl⟩ := hfront
    · exact ⟨none, rfl, fun h => by cases h⟩
    · exact ⟨some rex, rfl, fun _ => rfl⟩
  intro before decoded verdict badFront
  have hbad : badFront ↔ badVexPrefix pfx rex = true := (badVexPrefix_iff pfx rex).symm
  have hreject {o : Opcode} (ho : o.InTable m pfx) (hrej : o.Rejected pfx rex reg rm) :
      decoded o.bytes = verdict o.bytes := decode_rejected hpfx hrex ho hrm haddr hrej rest
  rw [hbad]
  refine ⟨fun h66 hF0 hF2 hF3 => ?_, fun v1 hm hpp h => ?_, fun v1 v2 hm hmap hpp h => ?_,
    fun p0 p1 p2 hm hmap hpp h => ?_⟩
  · exact hreject (o := .legacy) ⟨h66, hF2, hF3⟩ (.inl hF0)
  · exact hreject (o := .c5 v1) ⟨hm, hpp⟩ (rejected_c5 h reg rm)
  · exact hreject (o := .c4 v1 v2) ⟨hm, hmap, hpp⟩ (rejected_c4 h v1 reg rm)
  · exact hreject (o := .evex p0 p1 p2) ⟨hm, hmap, hpp⟩ (rejected_evex h reg)

/-! ### The neighbours in the opcode space (R79) -/

theorem opcodeLegacy_otherInstruction {pfx : List Prefix}
    (h : pfx.contains .opSize = false ∨ pfx.contains .repne = true ∨ pfx.contains .rep = true) (rex : Option Rex)
    (rest : List Byte) : opcodeLegacy pfx rex (0x5A#8 :: rest) = .otherInstruction := by
  have hpfx : (pfx.contains .repne || pfx.contains .rep || !pfx.contains .opSize) = true := by
    simp only [Bool.or_eq_true, Bool.not_eq_true']
    tauto
  exact if_pos hpfx

theorem opcodeC5_otherInstruction {v1 : Byte} (hpp : v1.extractLsb' 0 2 ≠ 1#2) (m : Mode) (pfx : List Prefix)
    (rex : Option Rex) (rest : List Byte) : opcodeC5 m pfx rex (v1 :: rest) = .otherInstruction := by
  simp only [opcodeC5, hpp, ne_eq, not_false_eq_true, if_true, ite_self]

theorem opcodeC4_otherInstruction {m : Mode} {v1 v2 : Byte} (hm : m = .m32 → v1.extractLsb' 5 3 = 7#3)
    (hpp : v2.extractLsb' 0 2 ≠ 1#2) (pfx : List Prefix) (rex : Option Rex) (op : Byte) (rest : List Byte) :
    opcodeC4 m pfx rex (v1 :: v2 :: op :: rest) = .otherInstruction := by
  simp only [opcodeC4, not_extension_c4 hm, hpp, if_false, ne_eq, not_false_eq_true, true_or, or_true, if_true, ite_self]

theorem opcode62_otherInstruction {m : Mode} {p0 p1 p2 : Byte}
    (hm : m = .m32 → p0.extractLsb' 4 4 = 0xF#4 ∧ p2.getLsbD 3 = true)
    (h : p0.extractLsb' 0 3 ≠ 1#3 ∨ p1.extractLsb' 0 2 ≠ 1#2) (pfx : List Prefix) (rex : Option Rex) (op : Byte)
    (rest : List Byte) : opcode62 m pfx rex (p0 :: p1 :: p2 :: op :: rest) = .otherInstruction := by
  have hother : p0.extractLsb' 0 3 ≠ 1#3 ∨ p1.extractLsb' 0 2 ≠ 1#2 ∨ op ≠ 0x5A#8 := h.imp_right .inl
  simp only [opcode62, not_extension_evex hm, if_false, if_pos hother, ite_self]

end Sys2Proof

namespace Sys2Proof.Machine

/-! ### A step on reserved fields (R73, R78, R172) and on the neighbours (R79) -/

/-- A `#UD` encoding of at most 15 bytes at the instruction pointer, with no REX byte. -/
theorem step_rejected {s : State} {pfx : List Prefix} {o : Opcode} {reg : BitVec 3} {rm : RegMem}
    (hpfx : prefixesVex s.cfg.mode pfx = true) (hrm : rm.wf = true)
    (haddr : addressable s.cfg.mode pfx rm.isMem = true) (ho : o.InTable s.cfg.mode pfx)
    (hrej : o.Rejected pfx none reg rm) (hlen : pfx.length + (o.bytes.length + 1) + rm.size ≤ 15)
    (hf : s.fetches (pfx.map Prefix.toByte ++ o.bytes ++ rm.encode reg)) : step s = .fault (.invalidOpcode s) := by
  refine step_invalid hf fun rest => ?_
  obtain ⟨hscan, -⟩ := (prefixesVex_iff _ _).1 hpfx
  have hd := decode_rejected hscan (fun h => by cases h) ho hrm haddr hrej rest
  rw [show rexBytes none = [] from rfl, List.append_nil, List.length_map, if_neg (by omega)] at hd
  exact hd

/-- Settles O4: a stored `vvvv` other than 1111 is a reserved field in each of the three shapes. -/
theorem reservedVvvvRaisesUd : Obligations.ReservedVvvvRaisesUd := by
  intro s pfx reg rm hpfx hrm haddr
  refine ⟨fun v1 hm hpp hvvvv hlen hf => ?_, fun v1 v2 hm hmap hpp hvvvv hlen hf => ?_,
    fun p0 p1 p2 hm hmap hpp hvvvv hlen hf => ?_⟩
  · exact step_rejected (o := .c5 v1) hpfx hrm haddr ⟨hm, hpp⟩ (rejected_c5 (.inl hvvvv) reg rm) hlen hf
  · exact step_rejected (o := .c4 v1 v2) hpfx hrm haddr ⟨hm, hmap, hpp⟩ (rejected_c4 (.inl hvvvv) v1 reg rm) hlen hf
  · exact step_rejected (o := .evex p0 p1 p2) hpfx hrm haddr ⟨hm, hmap, hpp⟩ (rejected_evex (.inl hvvvv) reg) hlen hf

/-- Settles O5: each of the patterns is a reserved field of the EVEX shape, or a form that does not exist. -/
theorem reservedEvexBitsRaiseUd : Obligations.ReservedEvexBitsRaiseUd := by
  intro s pfx reg rm p0 p1 p2 hpfx hrm haddr hm hmap hpp hlen hbits hf
  refine step_rejected (o := .evex p0 p1 p2) hpfx hrm haddr ⟨hm, hmap, hpp⟩ (rejected_evex (.inr ?_) reg) hlen hf
  tauto

/-- Scannable prefixes, then bytes with which an opcode of another instruction begins. -/
theorem step_otherInstruction {s : State} {pfx : List Prefix} {b : Byte} {shape : List Byte}
    (hpfx : prefixesScan s.cfg.mode pfx = true) (hl : legacyPrefix b = none) (hr : rexOf b = none)
    (hf : s.fetches (pfx.map Prefix.toByte ++ b :: shape))
    (hop : ∀ rest, parseOpcode s.cfg.mode pfx none (b :: (shape ++ rest)) = .otherInstruction) :
    step s = .refused .otherInstruction := by
  obtain ⟨he, ht, rest, hbytes⟩ := hf
  refine step_of_fetch_stop (fetch_of_decode (d := .otherInstruction) he ht ?_)
  rw [hbytes, List.append_assoc, List.cons_append]
  exact decode_otherInstruction (scanPrefixes_append_opcode hpfx hl (.inr hr) _) (hop rest)

/-- Settles O7: step 3 of R76 takes each of the neighbours for another instruction, whatever follows. -/
theorem neighboursAreRefused : Obligations.NeighboursAreRefused := by
  intro s pfx hpfx
  refine ⟨fun h hf => step_otherInstruction hpfx rfl rfl hf fun rest => ?_,
    fun _ => ⟨fun v1 hpp hf => step_otherInstruction hpfx rfl rfl hf fun rest => ?_,
      fun v1 v2 hm _ hpp hf => step_otherInstruction hpfx rfl rfl hf fun rest => ?_,
      fun p0 p1 p2 hm _ _ h hf => step_otherInstruction hpfx rfl rfl hf fun rest => ?_⟩⟩
  · exact opcodeLegacy_otherInstruction h none rest
  · exact opcodeC5_otherInstruction hpp s.cfg.mode pfx none (0x5A#8 :: rest)
  · exact opcodeC4_otherInstruction hm hpp pfx none _ _
  · refine opcode62_otherInstruction hm (h.symm.imp (fun ⟨hmap, _⟩ => ?_) id) pfx none _ _
    rw [hmap]
    decide

/-! ### The bytes of an instruction in memory are fetched (R76, R203) -/

/-- The bytes from an address on are these. -/
def Memory.Holds (mem : Memory) (a : Nat) (bs : List Byte) : Prop :=
  ∀ (k : Nat) (h : k < bs.length), mem.read (a + k) = bs[k]

theorem Memory.holds_cons {mem : Memory} {a : Nat} {b : Byte} {bs : List Byte} (h : mem.Holds a (b :: bs)) :
    mem.read a = b ∧ mem.Holds (a + 1) bs := by
  refine ⟨h 0 (Nat.succ_pos _), fun k hk => ?_⟩
  rw [Nat.add_assoc, Nat.add_comm 1 k]
  exact h (k + 1) (Nat.succ_lt_succ hk)

theorem readBytes_of_holds {mem : Memory} {bs : List Byte} : ∀ {a n : Nat}, mem.Holds a bs → bs.length ≤ n →
    ∃ rest, readBytes mem a n = bs ++ rest := by
  induction bs with
  | nil => exact fun _ _ => ⟨_, rfl⟩
  | cons b bs ih =>
    intro a n h hn
    obtain ⟨hb, hbs⟩ := Memory.holds_cons h
    obtain ⟨k, rfl⟩ := Nat.exists_eq_add_of_le' (Nat.le_trans (Nat.succ_pos _) hn)
    obtain ⟨rest, hrest⟩ := ih hbs (Nat.le_of_succ_le_succ hn)
    exact ⟨rest, by rw [readBytes, hb, hrest]; rfl⟩

/-- Of bytes in memory, those of prefixes first and then an opcode and its operand, none is left out of the fetch. -/
theorem fetchFrom_of_holds {m : Mode} {mem : Memory} {front : List Byte} {b : Byte} {body : List Byte}
    (hfront : ∀ c ∈ front, isPrefixByte m c = true) (hb : isPrefixByte m b = false)
    (hbody : (b :: body).length ≤ longestBody) : ∀ {a n : Nat}, mem.Holds a (front ++ b :: body) →
      (front ++ b :: body).length ≤ n → ∃ rest, fetchFrom m mem n a = front ++ b :: body ++ rest := by
  induction front with
  | nil =>
    intro a n h hn
    obtain ⟨k, rfl⟩ := Nat.exists_eq_add_of_le' (Nat.le_trans (Nat.succ_pos _) hn)
    obtain ⟨hread, -⟩ := Memory.holds_cons h
    rw [fetchFrom, hread, hb]
    exact readBytes_of_holds h (Nat.le_min.2 ⟨hn, hbody⟩)
  | cons c front ih =>
    intro a n h hn
    obtain ⟨k, rfl⟩ := Nat.exists_eq_add_of_le' (Nat.le_trans (Nat.succ_pos _) hn)
    obtain ⟨hread, hrest⟩ := Memory.holds_cons h
    obtain ⟨rest, ih⟩ := ih (fun c hc => hfront c (List.mem_cons_of_mem _ hc)) hrest (Nat.le_of_succ_le_succ hn)
    rw [fetchFrom, hread, if_pos (hfront c List.mem_cons_self), ih]
    exact ⟨rest, rfl⟩

theorem isPrefixByte_of_mem_prefixes {m : Mode} {pfx : List Prefix} (hpfx : prefixesScan m pfx = true) :
    ∀ b ∈ pfx.map Prefix.toByte, isPrefixByte m b = true := by
  induction pfx with
  | nil => exact fun b hb => absurd hb List.not_mem_nil
  | cons p ps ih =>
    rw [List.map_cons, List.forall_mem_cons]
    cases p with
    | droppedRex rex =>
      simp only [prefixesScan, Bool.and_eq_true] at hpfx
      obtain ⟨⟨hm, -⟩, hps⟩ := hpfx
      exact ⟨by simp [isPrefixByte, Prefix.toByte, hm, rexOf_toByte], ih hps⟩
    | _ => exact ⟨by rw [isPrefixByte, legacyPrefix_toByte rfl]; rfl, ih hpfx⟩

theorem isPrefixByte_of_mem_rexBytes {m : Mode} {rex : Option Rex} (hrex : rex.isSome = true → m = .m64) :
    ∀ b ∈ rexBytes rex, isPrefixByte m b = true := by
  cases rex with
  | none => exact fun b hb => absurd hb List.not_mem_nil
  | some rex =>
    obtain rfl := hrex rfl
    intro b hb
    obtain rfl := List.mem_singleton.1 hb
    simp [isPrefixByte, rexOf_toByte]

theorem opcode_length_le (o : Opcode) : o.bytes.length ≤ 5 := by
  cases o <;> simp [Opcode.bytes]

theorem regMem_size_le (rm : RegMem) : rm.size ≤ 5 := by
  have hd (d : Disp) : d.size ≤ 4 := by cases d <;> simp [Disp.size]
  cases rm with
  | reg r => exact Nat.zero_le 5
  | mem mo =>
    cases mo with
    | base r d => exact Nat.le_succ_of_le (hd d)
    | disp32 v => exact Nat.le_succ 4
    | sib scale index bs d => exact (Nat.add_comm ..).trans_le (Nat.succ_le_succ (hd d))
    | sibDisp32 scale index v => exact Nat.le_refl 5

/-- The encoding of an instruction inside the text is what the fetch finds first. -/
theorem fetchBytes_of_holds {s : State} {i : Instr} (hshape : i.shapeWf s.cfg.mode = true)
    (h : s.mem.Holds s.ip.toNat (encode i)) (hend : s.ip.toNat + i.len ≤ s.fetchEnd) :
    ∃ rest, s.fetchBytes = encode i ++ rest := by
  obtain ⟨hpfx, hrex, -⟩ := (i.shapeWf_iff_parts _).1 hshape
  obtain ⟨b, bs, hb, hl, hr⟩ := i.opcode.bytes_head
  have henc : encode i = i.prefixes.map Prefix.toByte ++ rexBytes i.rex? ++ b :: (bs ++ i.regMem.encode i.reg) := by
    rw [encode_eq_parts, hb, List.append_assoc, List.cons_append]
  have hfront : ∀ c ∈ i.prefixes.map Prefix.toByte ++ rexBytes i.rex?, isPrefixByte s.cfg.mode c = true :=
    List.forall_mem_append.2 ⟨isPrefixByte_of_mem_prefixes hpfx, isPrefixByte_of_mem_rexBytes hrex⟩
  have hbody : (b :: (bs ++ i.regMem.encode i.reg)).length ≤ longestBody := by
    have ho := opcode_length_le i.opcode
    have hrm := regMem_size_le i.regMem
    rw [← List.cons_append, ← hb, List.length_append, RegMem.encode_length, longestBody]
    omega
  have hlen : (encode i).length ≤ s.fetchEnd - s.ip.toNat := by
    rw [← Instr.len]
    omega
  rw [henc] at h hlen ⊢
  exact fetchFrom_of_holds hfront (by simp [isPrefixByte, hl, hr]) hbody h hlen

theorem four_le_len {m : Mode} {i : Instr} (hwf : i.wf m = true) : 4 ≤ i.len :=
  (decode_len (decodeOfEncodedInstruction m i [] hwf)).2.1

/-- Settles O11: the instruction's bytes are fetched, and decode to it. -/
theorem stepRunsTheInstructionInMemory : Obligations.StepRunsTheInstructionInMemory := by
  intro s i hwf he hlo hhi hspace hmem
  have hshape : i.shapeWf s.cfg.mode = true := (Bool.and_eq_true_iff.1 hwf).1
  have hend : s.ip.toNat + i.len ≤ s.fetchEnd := Nat.le_min.2 ⟨hhi, hspace.le⟩
  have ht : s.inText = true := by
    have h4 := four_le_len hwf
    rw [State.inText, Bool.and_eq_true, decide_eq_true_eq, decide_eq_true_eq]
    exact ⟨hlo, by omega⟩
  obtain ⟨rest, hbytes⟩ := fetchBytes_of_holds hshape hmem hend
  exact stepRunsTheDecodedInstruction s i rest he ht (hbytes ▸ decodeOfEncodedInstruction _ i rest hwf) hspace

/-! ### Sample words, and W (R62, R75, R84) -/

/-- Settles O9: the bytes are taken apart one by one. -/
theorem sampleWordsDecode : Obligations.SampleWordsDecode := by
  refine ⟨?_, ?_, ?_, ?_, ?_, ?_, ?_⟩ <;> rfl

/-- Settles O41: the meaning uses R, X and B and the length, which is the same. -/
theorem wIsIgnored : Obligations.WIsIgnored := by
  refine ⟨fun pfx rex w reg rm s => ?_, fun pfx v w reg rm s => ⟨?_, ?_⟩⟩
  all_goals
    rw [exec_eq_convert, exec_eq_convert]
    simp only [Instr.source, Instr.len_eq_size]
    rfl

end Sys2Proof.Machine
end

section
/-!
What an instruction reads of its source register and of MXCSR (O34, O37, O39), and where an unmasked exception stops it
(O29).
-/

namespace Sys2Proof.Machine

/-! ### The source register (R118, R145, R160) -/

/-- Writes to two vector registers commute. -/
theorem zmm_set_comm {n m : Fin 32} (hnm : n ≠ m) (z : Vector Vec 32) (v w : Vec) :
    (z.set n v).set m w = (z.set m w).set n v :=
  Vector.set_comm v w fun h => hnm (Fin.ext h)

/-- A vector register that is not the destination can be replaced before or after the results are written. -/
theorem completed_set_zmm {i : Instr} {n : Fin 32} (hn : n ≠ i.dst) (s : State) (v : Vec) (rs : List (Option F32))
    (x : BitVec 32) :
    completed i { s with zmm := s.zmm.set n v } rs x =
      { completed i s rs x with zmm := (completed i s rs x).zmm.set n v } := by
  have hdst : State.readZmm { s with zmm := s.zmm.set n v } i.dst = s.readZmm i.dst := by
    have h : (n : Nat) ≠ (i.dst : Nat) := fun h => hn (Fin.ext h)
    simp [State.readZmm, h]
  simp only [completed, hdst, State.setRip, State.setMxcsr, State.setZmm, zmm_set_comm hn]
  rfl

/-- Settles O34: the conversion gets the same elements, and the register replaced is not the one written. -/
theorem onlyActiveLanesReadRegister : Obligations.OnlyActiveLanesReadRegister := by
  intro i s n v hsrc hdst hv
  exact exec_of_unseen (g := fun t => { t with zmm := t.zmm.set n v })
    { gate := rfl
      read := by
        refine read_congr (source_congr i rfl rfl rfl rfl rfl) rfl (fun _ _ => rfl) fun j hj hact => ?_
        rw [hsrc]
        simpa [State.sourceElement, State.readZmm] using hv j hj hact
      packed := packed_unchanged rfl i.rounding
      completed := completed_set_zmm hdst s v }

/-! ### Divide-by-zero (R114) -/

/-- No set of flags has ZE. -/
theorem FpFlags.bits_getLsbD_two (f : FpFlags) : f.bits.getLsbD 2 = false := by
  obtain ⟨ie, de, oe, ue, pe⟩ := f
  revert ie de oe ue pe
  decide

theorem raiseFlags_getLsbD_two (x : BitVec 32) (f : FpFlags) : (raiseFlags x f).getLsbD 2 = x.getLsbD 2 := by
  rw [raiseFlags, BitVec.getLsbD_or, f.bits_getLsbD_two, Bool.or_false]

/-- No flag stands where ZM does. -/
theorem FpFlags.zm_and_bits (f : FpFlags) : 0x200#32 &&& f.bits = 0#32 := by
  obtain ⟨ie, de, oe, ue, pe⟩ := f
  revert ie de oe ue pe
  decide

/-- ORing in flags and flipping ZM commute. -/
theorem raiseFlags_xor_zm (x : BitVec 32) (f : FpFlags) :
    raiseFlags (x ^^^ 0x200#32) f = raiseFlags x f ^^^ 0x200#32 := by
  have hbool : ∀ a z b : Bool, (z && b) = false → (a ^^ z || b) = ((a || b) ^^ z) := by decide
  refine BitVec.eq_of_getLsbD_eq fun k _ => ?_
  rw [raiseFlags, raiseFlags, BitVec.getLsbD_or, BitVec.getLsbD_xor, BitVec.getLsbD_xor, BitVec.getLsbD_or]
  refine hbool _ _ _ ?_
  rw [← BitVec.getLsbD_and, f.zm_and_bits, BitVec.getLsbD_zero]

/-- The context has no place for ZM (R104). -/
theorem ctxOfMxcsr_xor_zm (x : BitVec 32) : ctxOfMxcsr (x ^^^ 0x200#32) = ctxOfMxcsr x := by
  have hbit : ∀ k, (0x200#32).getLsbD k = false → (x ^^^ 0x200#32).getLsbD k = x.getLsbD k := fun k hk => by
    rw [BitVec.getLsbD_xor, hk, Bool.xor_false]
  simp only [ctxOfMxcsr, mxcsrDAZ, mxcsrIM, mxcsrDM, mxcsrOM, mxcsrUM, mxcsrPM, mxcsrRC, mxcsrFTZ,
    hbit 6 (by decide), hbit 7 (by decide), hbit 8 (by decide), hbit 10 (by decide), hbit 11 (by decide),
    hbit 12 (by decide), hbit 13 (by decide), hbit 14 (by decide), hbit 15 (by decide)]

/-- The context of embedded rounding is that of any MXCSR with the same DAZ and FTZ (R117). -/
theorem ctxEmbedded_congr {x y : BitVec 32} (hdaz : y.getLsbD 6 = x.getLsbD 6) (hftz : y.getLsbD 15 = x.getLsbD 15)
    (rc : Rounding) : ctxEmbedded rc y = ctxEmbedded rc x := by
  simp only [ctxEmbedded, mxcsrDAZ, mxcsrFTZ, hdaz, hftz]

theorem ctx_xor_zm (s : State) (er : Option Rounding) :
    State.ctx { s with mxcsr := s.mxcsr ^^^ 0x200#32 } er = s.ctx er := by
  cases er with
  | none => exact ctxOfMxcsr_xor_zm s.mxcsr
  | some rc => exact ctxEmbedded_congr (by simp) (by simp) rc

/-- Settles O37: MXCSR changes by flags alone, none of them ZE, and the numeric context leaves ZM out. -/
theorem divideByZeroNeverInvolved : Obligations.DivideByZeroNeverInvolved := by
  have hze : ∀ (i : Instr) (s t : State), (exec i s = .next t ∨ ∃ f, exec i s = .fault f ∧ f.state = t) →
      t.mxcsr.getLsbD 2 = s.mxcsr.getLsbD 2 := fun i s t h => by
    obtain ⟨g, hg, -⟩ := exec_mxcsr h
    rw [hg, raiseFlags_getLsbD_two]
  refine ⟨fun i s t h => hze i s t (.inl h), fun i s f h => hze i s f.state (.inr ⟨f, h, rfl⟩), fun i s => ?_⟩
  exact exec_of_unseen (g := fun t => { t with mxcsr := t.mxcsr ^^^ 0x200#32 }) (h := (· ^^^ 0x200#32))
    { gate := rfl
      read := read_congr (source_congr i rfl rfl rfl rfl rfl) rfl (fun _ _ => rfl)
        fun _ _ _ => sourceElement_congr rfl rfl rfl _ _
      packed := fun xs => by
        rw [ctx_xor_zm]
        exact packedConvert_map (h := (· ^^^ 0x200#32)) (fun f => raiseFlags_xor_zm _ f) _ _ }

/-! ### Embedded rounding (R102, R117) -/

/-- With all exceptions suppressed the results are delivered, and MXCSR stays as it is. -/
theorem packedConvert_of_sae {c : Ctx} (h : c.sae = true) (m : BitVec 32) (xs : List (Option F64)) :
    packedConvert c m xs = .results (convertedLanes c xs) m := by
  rw [packedConvert_eq, if_pos h]

/-- Settles O39: of MXCSR the context keeps DAZ and FTZ, and what is enabled is ready. -/
theorem embeddedRoundingSuppressesExceptions : Obligations.EmbeddedRoundingSuppressesExceptions := by
  intro pfx e rc reg rm s
  refine ⟨fun x hdaz hftz => ?_, fun f hf => ?_⟩
  · exact exec_of_unseen (g := fun t => { t with mxcsr := x }) (h := fun _ => x)
      { gate := rfl
        read := rfl
        packed := fun xs => by
          have hctx : State.ctx { s with mxcsr := x } (some rc) = s.ctx (some rc) := ctxEmbedded_congr hdaz hftz rc
          simp only [Instr.rounding, hctx, packedConvert_of_sae (ctx_sae s (some rc)), PackedResult.map] }
  · constructor
    · refine Bool.eq_false_iff.2 fun he => ?_
      rw [exec_of_ready (evex512Er_ready he pfx e rc reg rm)] at hf
      cases hf
    · obtain h | ⟨h, -⟩ := exec_fault_state hf
      · exact h
      · cases h

/-! ### Unmasked exceptions (R116, R177, R179) -/

theorem rounding_eq_none {i : Instr} (h : i.form ≠ .evex512Er) : i.rounding = none := by
  rw [← Option.not_isSome_iff_eq_none, rounding_isSome_iff]
  exact h

/-- `#XM`, or `#UD` where CR4.OSXMMEXCPT is 0 (R177). -/
theorem raise_simdException (s u : State) :
    raise s.simdException u = if s.cr4.getLsbD 10 then .simdFloatingPoint u else .invalidOpcode u := by
  rw [State.simdException, State.envXmmExcpt]
  cases s.cr4.getLsbD 10 <;> rfl

/-- An enabled instruction with a readable source that takes its context from MXCSR: what the flags decide. -/
theorem exec_of_readable {i : Instr} {s : State} (he : s.enabled i.form = true)
    (hr : s.sourceReady i.form i.aaa (i.source s) = true) (hf : i.form ≠ .evex512Er) :
    exec i s =
      if (ctxOfMxcsr s.mxcsr).unmasked (i.preFlags s) then
        .fault (raise s.simdException (s.setMxcsr (raiseFlags s.mxcsr (i.preFlags s))))
      else if (ctxOfMxcsr s.mxcsr).unmasked (i.postFlags s) then
        .fault (raise s.simdException (s.setMxcsr (raiseFlags s.mxcsr ((i.preFlags s).union (i.postFlags s)))))
      else .next (nextState i s) := by
  have hctx : s.ctx i.rounding = ctxOfMxcsr s.mxcsr := by rw [rounding_eq_none hf]; rfl
  have hmx : i.mxcsrAfter s = raiseFlags s.mxcsr ((i.preFlags s).union (i.postFlags s)) := mxcsrAfter_of_form_ne hf
  have hpacked := packedConvert_eq (s.ctx i.rounding) s.mxcsr (sourceLanes i s)
  rw [← preFlags_eq, ← postFlags_eq, hctx, if_neg (show ¬(ctxOfMxcsr s.mxcsr).sae = true from Bool.false_ne_true)]
    at hpacked
  rw [sourceLanes] at hpacked
  rw [exec_eq_convert, convert_of_ready (isEvex_or_unmasked i) he hr, hctx, hpacked, nextState, hmx, hctx, sourceLanes]
  split_ifs <;> rfl

/-- Settles O29: the two tests of R116, on the two sets of flags. -/
theorem unmaskedExceptionStops : Obligations.UnmaskedExceptionStops := by
  intro i s he hr hf stop pre post m
  have hpre : (ctxOfMxcsr m).unmasked pre = (pre.ie && !m.getLsbD 7 || pre.de && !m.getLsbD 8) := by
    simp [Ctx.unmasked, ctxOfMxcsr, mxcsrIM, mxcsrDM, pre, Instr.preFlags, noFlags]
  have hpost : (ctxOfMxcsr m).unmasked post =
      (post.oe && !m.getLsbD 10 || post.ue && !m.getLsbD 11 || post.pe && !m.getLsbD 12) := by
    simp [Ctx.unmasked, ctxOfMxcsr, mxcsrOM, mxcsrUM, mxcsrPM, post, Instr.postFlags, noFlags]
  rw [exec_of_readable he hr hf, raise_simdException, raise_simdException, ← hpre, ← hpost]
  refine ⟨fun h => ?_, fun h h' => ?_⟩
  · rw [if_pos h]
    rfl
  · rw [if_neg (Bool.eq_false_iff.1 h), if_pos h']
    rfl

end Sys2Proof.Machine
end

section
/-!
The rounding of a quotient and of a magnitude (R109), settled in O48: what `roundInt` and `roundUnbounded` give.
-/

namespace Sys2Proof.Machine

/-! ### Rounding a quotient to an integer (R109) -/

/-- Whether a quotient with the integer part `fl` and the remainder `rem` is rounded up (the table of R109). -/
def roundsUp (fl rem den : Nat) (rc : Rounding) (s : Bool) : Bool :=
  if rc = .nearest then decide (den < 2 * rem ∨ 2 * rem = den ∧ fl % 2 = 1) else decide (rem ≠ 0) && roundsAway rc s

/-- `roundInt` is the integer part, one more where it is rounded up, with whether there is a remainder. -/
theorem roundInt_eq (num den : Nat) (rc : Rounding) (s : Bool) :
    roundInt num den rc s =
      (num / den + (roundsUp (num / den) (num % den) den rc s).toNat, decide (num % den ≠ 0)) := by
  have hcarry : ∀ up : Bool, (if up = true then num / den + 1 else num / den) = num / den + up.toNat := fun up => by
    cases up <;> rfl
  simp only [roundInt, hcarry, roundsUp]
  cases rc with
  | nearest => simp only [if_true, Bool.decide_or, Bool.decide_and]
  | down => rw [if_neg (by decide), show roundsAway .down s = s by cases s <;> rfl]
  | up => rw [if_neg (by decide), show roundsAway .up s = !s by cases s <;> rfl]
  | zero => rw [if_neg (by decide), show roundsAway .zero s = false by cases s <;> rfl, Bool.and_false]

theorem roundInt_inexact (num den : Nat) (rc : Rounding) (s : Bool) :
    (roundInt num den rc s).2 = decide (num % den ≠ 0) := by
  rw [roundInt_eq]

/-- To nearest: up from above the middle, and from the middle to an even integer. -/
theorem roundInt_nearest (num den : Nat) (s : Bool) :
    (roundInt num den .nearest s).1 =
      num / den + if den < 2 * (num % den) ∨ 2 * (num % den) = den ∧ num / den % 2 = 1 then 1 else 0 := by
  simp only [roundInt_eq, roundsUp, if_true, Bool.toNat, Bool.cond_decide]

/-- In a direction: up exactly with a remainder, away from zero. -/
theorem roundInt_directed {rc : Rounding} (hrc : rc ≠ .nearest) (num den : Nat) (s : Bool) :
    (roundInt num den rc s).1 = num / den + if num % den ≠ 0 ∧ roundsAway rc s = true then 1 else 0 := by
  have h : (decide (num % den ≠ 0) && roundsAway rc s) = decide (num % den ≠ 0 ∧ roundsAway rc s = true) := by
    rw [Bool.decide_and, Bool.decide_eq_true]
  simp only [roundInt_eq, roundsUp, if_neg hrc, h, Bool.toNat, Bool.cond_decide]

theorem roundInt_toward_zero {rc : Rounding} {s : Bool} (hrc : rc ≠ .nearest) (h : roundsAway rc s = false)
    (num den : Nat) : (roundInt num den rc s).1 = num / den := by
  rw [roundInt_directed hrc, if_neg (by simp [h]), Nat.add_zero]

/-- Away from zero is the quotient rounded up. -/
theorem roundInt_away {rc : Rounding} {s : Bool} (h : roundsAway rc s = true) (num : Nat) {den : Nat} (hden : 0 < den) :
    (roundInt num den rc s).1 = (num + den - 1) / den := by
  have hrc : rc ≠ .nearest := by rintro rfl; cases h
  have hdiv := Nat.mod_add_div num den
  have hlt := Nat.mod_lt num hden
  rw [roundInt_directed hrc]
  symm
  split_ifs with hr
  · obtain ⟨hr, -⟩ := hr
    rw [show num + den - 1 = (num % den - 1) + den * (num / den + 1) by rw [Nat.mul_succ]; omega,
      Nat.add_mul_div_left _ _ hden, Nat.div_eq_of_lt (a := num % den - 1) (by omega), Nat.zero_add]
  · have hr : num % den = 0 := by simpa [h] using hr
    rw [show num + den - 1 = (den - 1) + den * (num / den) by omega, Nat.add_mul_div_left _ _ hden,
      Nat.div_eq_of_lt (a := den - 1) (by omega), Nat.zero_add, Nat.add_zero]

/-- What is rounded up leaves a remainder. -/
theorem rem_pos_of_roundsUp {fl rem den : Nat} {rc : Rounding} {s : Bool} (hden : 0 < den)
    (h : roundsUp fl rem den rc s = true) : 0 < rem := by
  unfold roundsUp at h
  split at h
  · simp only [decide_eq_true_eq] at h
    omega
  · simp only [Bool.and_eq_true, decide_eq_true_eq] at h
    obtain ⟨hr, -⟩ := h
    omega

/-- The integer part for the integers that are given exactly; else it or the next. -/
theorem roundInt_fst_bounds (num : Nat) {den : Nat} (hden : 0 < den) (rc : Rounding) (s : Bool) :
    (roundInt num den rc s).1 = num / den ∨ (roundInt num den rc s).1 = num / den + 1 ∧ num % den ≠ 0 := by
  rw [roundInt_eq]
  cases h : roundsUp (num / den) (num % den) den rc s with
  | false => exact .inl rfl
  | true => exact .inr ⟨rfl, (rem_pos_of_roundsUp hden h).ne'⟩

/-- Rounding is inexact exactly where it changes the value. -/
theorem roundInt_inexact_iff (num : Nat) {den : Nat} (hden : 0 < den) (rc : Rounding) (s : Bool) :
    (roundInt num den rc s).2 = decide ((roundInt num den rc s).1 * den ≠ num) := by
  have hdiv := Nat.mod_add_div' num den
  have hlt := Nat.mod_lt num hden
  rw [roundInt_inexact, decide_eq_decide]
  obtain h | ⟨h, hr⟩ := roundInt_fst_bounds num hden rc s
  · rw [h]
    omega
  · rw [h, Nat.succ_mul]
    omega

theorem roundInt_exact (n : Nat) {den : Nat} (hden : 0 < den) (rc : Rounding) (s : Bool) :
    (roundInt (n * den) den rc s).1 = n := by
  obtain h | ⟨-, hr⟩ := roundInt_fst_bounds (n * den) hden rc s
  · rw [h, Nat.mul_div_cancel _ hden]
  · exact absurd (Nat.mul_mod_left n den) hr

/-- To nearest the distance is at most half a unit, and half a unit only where the result is even. -/
theorem roundInt_nearest_distance (num : Nat) {den : Nat} (hden : 0 < den) (s : Bool) :
    2 * distance num ((roundInt num den .nearest s).1 * den) ≤ den ∧
    (2 * distance num ((roundInt num den .nearest s).1 * den) = den → (roundInt num den .nearest s).1 % 2 = 0) := by
  have hdiv := Nat.mod_add_div' num den
  have hlt := Nat.mod_lt num hden
  have hsucc : (num / den + 1) * den = num / den * den + den := Nat.succ_mul _ _
  rw [roundInt_nearest, distance]
  split_ifs with hup
  · omega
  · rw [Nat.add_zero]
    omega

theorem roundsUp_mono {fl r r' den : Nat} {rc : Rounding} {s : Bool} (h : r ≤ r')
    (hup : roundsUp fl r den rc s = true) : roundsUp fl r' den rc s = true := by
  unfold roundsUp at hup ⊢
  split_ifs at hup ⊢
  · simp only [decide_eq_true_eq] at hup ⊢
    omega
  · simp only [Bool.and_eq_true, decide_eq_true_eq] at hup ⊢
    exact ⟨by omega, hup.2⟩

/-- Rounding keeps the order. -/
theorem roundInt_mono {num num' den : Nat} (hden : 0 < den) (h : num ≤ num') (rc : Rounding) (s : Bool) :
    (roundInt num den rc s).1 ≤ (roundInt num' den rc s).1 := by
  obtain hlt | heq := (Nat.div_le_div_right (c := den) h).lt_or_eq
  · have h1 := roundInt_fst_bounds num hden rc s
    have h2 := roundInt_fst_bounds num' hden rc s
    omega
  · have hr : num % den ≤ num' % den := by
      have h1 := Nat.mod_add_div num den
      have h2 := Nat.mod_add_div num' den
      rw [heq] at h1
      omega
    simp only [roundInt_eq, heq]
    exact Nat.add_le_add_left
      (Bool.toNat_le_toNat fun hup => roundsUp_mono hr hup) _

/-- A magnitude up to an integer is rounded to no more than it. -/
theorem roundInt_le {num den n : Nat} (hden : 0 < den) (h : num ≤ n * den) (rc : Rounding) (s : Bool) :
    (roundInt num den rc s).1 ≤ n :=
  (roundInt_mono hden h rc s).trans_eq (roundInt_exact n hden rc s)

theorem le_roundInt {num den n : Nat} (hden : 0 < den) (h : n * den ≤ num) (rc : Rounding) (s : Bool) :
    n ≤ (roundInt num den rc s).1 :=
  (roundInt_exact n hden rc s).symm.trans_le (roundInt_mono hden h rc s)

/-- Only the parity of the integer part matters, and the remainder beside the divisor. -/
theorem roundsUp_congr {fl fl' : Nat} (hfl : fl' % 2 = fl % 2) (rem den : Nat) {c : Nat} (hc : 0 < c) (rc : Rounding)
    (s : Bool) : roundsUp fl' (rem * c) (den * c) rc s = roundsUp fl rem den rc s := by
  have hlt : den * c < 2 * (rem * c) ↔ den < 2 * rem := by rw [← Nat.mul_assoc, Nat.mul_lt_mul_right hc]
  have heq : 2 * (rem * c) = den * c ↔ 2 * rem = den := by rw [← Nat.mul_assoc, Nat.mul_left_inj hc.ne']
  have hne : rem * c ≠ 0 ↔ rem ≠ 0 := by simp [hc.ne']
  simp only [roundsUp, hfl, hlt, heq, hne]

/-- A common factor does not matter. -/
theorem roundInt_mul_right (num den : Nat) {c : Nat} (hc : 0 < c) (rc : Rounding) (s : Bool) :
    roundInt (num * c) (den * c) rc s = roundInt num den rc s := by
  have hne : num % den * c ≠ 0 ↔ num % den ≠ 0 := by simp [hc.ne']
  rw [roundInt_eq, roundInt_eq, Nat.mul_div_mul_right _ _ hc, Nat.mul_mod_mul_right, roundsUp_congr rfl _ _ hc]
  simp only [hne]

/-- An even integer more in the quotient is that much more in the result. -/
theorem roundInt_add_mul (num : Nat) {den : Nat} (hden : 0 < den) {n : Nat} (hn : n % 2 = 0) (rc : Rounding)
    (s : Bool) : (roundInt (num + n * den) den rc s).1 = (roundInt num den rc s).1 + n := by
  have hup := roundsUp_congr (fl := num / den) (fl' := num / den + n) (by omega) (num % den) den Nat.one_pos rc s
  rw [Nat.mul_one, Nat.mul_one] at hup
  rw [roundInt_eq, roundInt_eq, Nat.add_mul_div_right _ _ hden, Nat.add_mul_mod_self_right, hup, Nat.add_right_comm]

/-- Below half a unit only rounding away from zero gives 1. -/
theorem roundInt_of_small {num den : Nat} (hpos : 0 < num) (h : 2 * num < den) (rc : Rounding) (s : Bool) :
    roundInt num den rc s = (if roundsAway rc s = true then 1 else 0, true) := by
  have hup : roundsUp 0 num den rc s = roundsAway rc s := by
    unfold roundsUp
    split_ifs with hrc
    · subst hrc
      rw [decide_eq_false (by omega)]
      rfl
    · rw [decide_eq_true (by omega), Bool.true_and]
  rw [roundInt_eq, Nat.div_eq_of_lt (by omega), Nat.mod_eq_of_lt (by omega), hup, decide_eq_true hpos.ne']
  cases roundsAway rc s <;> rfl

/-! ### The rounding with unbounded exponent (R109) -/

/-- `q = v / 2^(E−23)` lies in `[2^23, 2^24)`, so its rounding in `[2^23, 2^24]`. -/
theorem roundInt_significand {n : Nat} (hn : n ≠ 0) (rc : Rounding) (s : Bool) :
    2 ^ 23 ≤ (roundInt (n * 2 ^ 23) (2 ^ n.log2) rc s).1 ∧ (roundInt (n * 2 ^ 23) (2 ^ n.log2) rc s).1 ≤ 2 ^ 24 := by
  have hlo := Nat.log2_self_le hn
  have hhi := Nat.lt_log2_self (n := n)
  rw [Nat.pow_succ] at hhi
  exact ⟨le_roundInt (by positivity) (by omega) rc s, roundInt_le (by positivity) (by omega) rc s⟩

/-- The value of `r_unb`, and that its significand has 24 bits. -/
theorem roundUnbounded_spec {n : Nat} (hn : n ≠ 0) (rc : Rounding) (s : Bool) :
    2 ^ 23 ≤ (roundUnbounded n rc s).sig ∧ (roundUnbounded n rc s).sig < 2 ^ 24 ∧
    (roundUnbounded n rc s).sig * 2 ^ (roundUnbounded n rc s).exp =
      (roundInt (n * 2 ^ 23) (2 ^ n.log2) rc s).1 * 2 ^ n.log2 ∧
    (roundUnbounded n rc s).inexact = (roundInt (n * 2 ^ 23) (2 ^ n.log2) rc s).2 := by
  obtain ⟨hlo, hhi⟩ := roundInt_significand hn rc s
  simp only [roundUnbounded]
  split_ifs with h
  · refine ⟨le_rfl, Nat.pow_lt_pow_right (by decide) (by decide), ?_, rfl⟩
    dsimp only
    rw [h, Nat.pow_succ 2 n.log2]
    omega
  · exact ⟨hlo, hhi.lt_of_ne h, rfl, rfl⟩

/-- Settles O48: the table of R109, and the significand and value of the rounding with unbounded exponent. -/
theorem roundingWithUnboundedExponent : Obligations.RoundingWithUnboundedExponent := by
  refine ⟨fun num den s hden => ?_, fun n rc s hn => ?_⟩
  · obtain ⟨hhalf, htie⟩ := roundInt_nearest_distance num hden s
    exact ⟨fun rc => roundInt_inexact_iff num hden rc s, hhalf, htie,
      roundInt_toward_zero (by decide) (by cases s <;> rfl) num den, roundInt_toward_zero (by decide) rfl num den,
      roundInt_toward_zero (by decide) rfl num den, roundInt_away rfl num hden, roundInt_away rfl num hden⟩
  · obtain ⟨hlo, hhi, hval, hinexact⟩ := roundUnbounded_spec hn rc s
    refine ⟨Nat.log2_self_le hn, Nat.lt_log2_self, hlo, hhi, hval, ?_⟩
    rw [hinexact, roundInt_inexact_iff _ (by positivity), decide_eq_true_iff, hval]

end Sys2Proof.Machine
end

section
/-!
The values of the two formats as integers (R101, R105): what a magnitude of either format stands for, and the fields of a
double and of a single.
-/

namespace Sys2Proof.Machine

/-! ### The value of a magnitude (R101, R105) -/

/-- The value of the magnitude bits `m` of a format with `p` fraction bits, in units of its smallest denormal. -/
def scaled (p m : Nat) : Nat := (m - (m / 2 ^ p - 1) * 2 ^ p) * 2 ^ (m / 2 ^ p - 1)

/-- Denormal and zero: the exponent field is 0. -/
theorem scaled_of_lt {p m : Nat} (h : m < 2 ^ p) : scaled p m = m := by
  rw [scaled, Nat.div_eq_of_lt h, Nat.zero_sub, Nat.zero_mul, Nat.sub_zero, Nat.pow_zero, Nat.mul_one]

/-- Normal: the exponent field is `e + 1`. -/
theorem scaled_of_normal (p e : Nat) {f : Nat} (hf : f < 2 ^ p) :
    scaled p ((e + 1) * 2 ^ p + f) = (2 ^ p + f) * 2 ^ e := by
  have hdiv : ((e + 1) * 2 ^ p + f) / 2 ^ p = e + 1 := by
    rw [Nat.add_comm, Nat.add_mul_div_right _ _ (by positivity), Nat.div_eq_of_lt hf, Nat.zero_add]
  rw [scaled, hdiv, Nat.add_sub_cancel, Nat.succ_mul, Nat.add_assoc, Nat.add_sub_cancel_left]

/-- A magnitude as its exponent and fraction fields. -/
theorem magnitude_cases (p m : Nat) :
    m < 2 ^ p ∨ ∃ e f, f < 2 ^ p ∧ m = (e + 1) * 2 ^ p + f := by
  obtain h | h := Nat.lt_or_ge m (2 ^ p)
  · exact .inl h
  · have hdiv := Nat.div_pos h (by positivity)
    refine .inr ⟨m / 2 ^ p - 1, m % 2 ^ p, Nat.mod_lt _ (by positivity), ?_⟩
    rw [Nat.sub_add_cancel hdiv, Nat.div_add_mod']

/-- Up to the end of its binade a magnitude `r` units further stands for `r` times the unit more. -/
theorem scaled_add {p m r : Nat} (h : m % 2 ^ p + r ≤ 2 ^ p) :
    scaled p (m + r) = scaled p m + r * 2 ^ (m / 2 ^ p - 1) := by
  obtain hm | ⟨e, f, hf, rfl⟩ := magnitude_cases p m
  · rw [Nat.mod_eq_of_lt hm] at h
    rw [scaled_of_lt hm, Nat.div_eq_of_lt hm, Nat.zero_sub, Nat.pow_zero, Nat.mul_one]
    obtain hlt | heq := h.lt_or_eq
    · exact scaled_of_lt hlt
    · have hone := scaled_of_normal p 0 (f := 0) (by positivity)
      rw [heq]
      simpa using hone
  · rw [Nat.add_comm ((e + 1) * 2 ^ p) f, Nat.add_mul_mod_self_right, Nat.mod_eq_of_lt hf] at h
    rw [scaled_of_normal p e hf, Nat.add_comm _ f, Nat.add_mul_div_right _ _ (by positivity), Nat.div_eq_of_lt hf,
      Nat.zero_add, Nat.add_sub_cancel, ← Nat.add_mul, Nat.add_right_comm, Nat.add_comm (f + r)]
    obtain hlt | heq := h.lt_or_eq
    · rw [scaled_of_normal p e hlt, Nat.add_assoc]
    · have hnext := scaled_of_normal p (e + 1) (f := 0) (by positivity)
      rw [Nat.add_zero, Nat.succ_mul] at hnext
      rw [heq, hnext, Nat.add_assoc, heq, Nat.add_zero, Nat.pow_succ, ← Nat.two_mul, Nat.mul_comm (2 ^ e) 2,
        ← Nat.mul_assoc, Nat.mul_comm 2]

theorem scaled_succ (p m : Nat) : scaled p (m + 1) = scaled p m + 2 ^ (m / 2 ^ p - 1) := by
  have h : m % 2 ^ p + 1 ≤ 2 ^ p := Nat.mod_lt m (by positivity)
  rw [scaled_add h, Nat.one_mul]

/-- A format orders its values as it orders their magnitude bits. -/
theorem scaled_strictMono (p : Nat) : StrictMono (scaled p) :=
  strictMono_nat_of_lt_succ fun m => by
    rw [scaled_succ]
    exact Nat.lt_add_of_pos_right (by positivity)

/-! ### The fields of a double (R101) -/

/-- The value of two fields side by side. -/
theorem toNat_append_add {m n : Nat} (x : BitVec m) (y : BitVec n) : (x ++ y).toNat = x.toNat * 2 ^ n + y.toNat := by
  rw [BitVec.toNat_append, ← Nat.shiftLeft_add_eq_or_of_lt y.isLt, Nat.shiftLeft_eq]

theorem f64Magnitude_toNat (d : F64) : f64Magnitude d = d.toNat % 2 ^ 63 := by
  simp [f64Magnitude]

theorem f64Exp_eq (d : F64) : f64Exp d = f64Magnitude d / 2 ^ 52 := by
  rw [f64Magnitude_toNat, f64Exp, BitVec.extractLsb'_toNat, Nat.shiftRight_eq_div_pow]
  omega

theorem f64Frac_eq (d : F64) : f64Frac d = f64Magnitude d % 2 ^ 52 := by
  rw [f64Magnitude_toNat, f64Frac, BitVec.extractLsb'_toNat, Nat.shiftRight_eq_div_pow]
  omega

theorem f64Magnitude_lt (d : F64) : f64Magnitude d < 2 ^ 63 := BitVec.isLt _

/-- The exact magnitude of a finite double, by its magnitude bits. -/
theorem exactScaled_eq (d : F64) : exactScaled d = scaled 52 (f64Magnitude d) := by
  rw [exactScaled, f64Exp_eq, f64Frac_eq]
  obtain h | ⟨e, f, hf, he⟩ := magnitude_cases 52 (f64Magnitude d)
  · rw [scaled_of_lt h, if_pos (Nat.div_eq_of_lt h), Nat.mod_eq_of_lt h]
  · rw [he, scaled_of_normal 52 e hf, Nat.add_comm _ f, Nat.add_mul_div_right _ _ (by positivity),
      Nat.add_mul_mod_self_right, Nat.div_eq_of_lt hf, Nat.mod_eq_of_lt hf, Nat.zero_add,
      if_neg (Nat.succ_ne_zero e), Nat.add_sub_cancel]

theorem isFinite64_iff (d : F64) : isFinite64 d = true ↔ f64Magnitude d < 2047 * 2 ^ 52 := by
  rw [isFinite64, decide_eq_true_iff, f64Exp_eq]
  omega

theorem isNaN64_iff (d : F64) : isNaN64 d = true ↔ 2047 * 2 ^ 52 < f64Magnitude d := by
  have h := f64Magnitude_lt d
  rw [isNaN64, Bool.and_eq_true, decide_eq_true_iff, decide_eq_true_iff, f64Exp_eq, f64Frac_eq]
  omega

/-! ### The fields of a single (R101) -/

/-- The magnitude bits of a single. -/
def f32Magnitude (x : F32) : Nat := (x.extractLsb' 0 31).toNat

theorem f32Magnitude_toNat (x : F32) : f32Magnitude x = x.toNat % 2 ^ 31 := by
  simp [f32Magnitude]

theorem f32Exp_eq (x : F32) : f32Exp x = f32Magnitude x / 2 ^ 23 := by
  rw [f32Magnitude_toNat, f32Exp, BitVec.extractLsb'_toNat, Nat.shiftRight_eq_div_pow]
  omega

theorem f32Frac_eq (x : F32) : f32Frac x = f32Magnitude x % 2 ^ 23 := by
  rw [f32Magnitude_toNat, f32Frac, BitVec.extractLsb'_toNat, Nat.shiftRight_eq_div_pow]
  omega

theorem f32Magnitude_lt (x : F32) : f32Magnitude x < 2 ^ 31 := BitVec.isLt _

/-- The smallest denormal single, `2^−149`, on the scale of `exactScaled` (R111); nothing evaluates it. -/
@[irreducible] def lastPlace : Nat := 2 ^ 925

theorem lastPlace_eq : lastPlace = 2 ^ 925 := by
  unfold lastPlace
  exact Eq.refl _

theorem two_pow_eq_lastPlace {k : Nat} (h : k = 925) : 2 ^ k = lastPlace := by
  rw [h, lastPlace_eq]

theorem lastPlace_pos : 0 < lastPlace := by
  have hpos : ∀ n : Nat, 0 < 2 ^ n := fun n => by positivity
  exact lastPlace_eq ▸ hpos 925

/-- The value of the magnitude bits of a single on the scale of `exactScaled`. -/
def singleScaled (n : Nat) : Nat := scaled 23 n * lastPlace

theorem f32Scaled_eq (x : F32) : f32Scaled x = singleScaled (f32Magnitude x) := by
  rw [f32Scaled, singleScaled, lastPlace_eq, f32Exp_eq, f32Frac_eq]
  obtain h | ⟨e, f, hf, he⟩ := magnitude_cases 23 (f32Magnitude x)
  · rw [scaled_of_lt h, if_pos (Nat.div_eq_of_lt h), Nat.mod_eq_of_lt h]
  · rw [he, scaled_of_normal 23 e hf, Nat.add_comm _ f, Nat.add_mul_div_right _ _ (by positivity),
      Nat.add_mul_mod_self_right, Nat.div_eq_of_lt hf, Nat.mod_eq_of_lt hf, Nat.zero_add,
      if_neg (Nat.succ_ne_zero e), Nat.add_sub_cancel, Nat.mul_assoc, ← Nat.pow_add]

theorem singleScaled_strictMono : StrictMono singleScaled :=
  (scaled_strictMono 23).mul_const lastPlace_pos

theorem isFinite32_iff (x : F32) : isFinite32 x = true ↔ f32Magnitude x < 255 * 2 ^ 23 := by
  rw [isFinite32, decide_eq_true_iff, f32Exp_eq]
  omega

theorem isNaN32_iff (x : F32) : isNaN32 x = true ↔ 255 * 2 ^ 23 < f32Magnitude x := by
  have h := f32Magnitude_lt x
  rw [isNaN32, Bool.and_eq_true, decide_eq_true_iff, decide_eq_true_iff, f32Exp_eq, f32Frac_eq]
  omega

theorem isSNaN32_iff (x : F32) :
    isSNaN32 x = true ↔ 255 * 2 ^ 23 < f32Magnitude x ∧ f32Magnitude x < 255 * 2 ^ 23 + 2 ^ 22 := by
  have hbit : x.getLsbD 22 = decide (x.toNat / 2 ^ 22 % 2 = 1) := Nat.testBit_eq_decide_div_mod_eq
  rw [isSNaN32, Bool.and_eq_true, isNaN32_iff, hbit, Bool.not_eq_true', decide_eq_false_iff_not, f32Magnitude_toNat]
  omega

theorem isDenormal32_iff (x : F32) : isDenormal32 x = true ↔ 0 < f32Magnitude x ∧ f32Magnitude x < 2 ^ 23 := by
  rw [isDenormal32, Bool.and_eq_true, decide_eq_true_iff, decide_eq_true_iff, f32Exp_eq, f32Frac_eq]
  omega

/-! ### A single from its sign and magnitude (R101) -/

theorem packF32_magnitude (s : Bool) {n : Nat} (h : n < 2 ^ 31) : f32Magnitude (packF32 s n) = n := by
  rw [f32Magnitude, packF32, BitVec.extractLsb'_append_eq_right, BitVec.toNat_ofNat, Nat.mod_eq_of_lt h]

theorem packF32_toNat (s : Bool) {n : Nat} (h : n < 2 ^ 31) : (packF32 s n).toNat = s.toNat * 2 ^ 31 + n := by
  rw [packF32, toNat_append_add, BitVec.toNat_ofBool, BitVec.toNat_ofNat, Nat.mod_eq_of_lt h]

theorem packF32_sign (s : Bool) (n : Nat) : (packF32 s n).getLsbD 31 = s := by
  rw [packF32, BitVec.getLsbD_append, if_neg (by decide)]
  simp

/-- The last place of a single is that of its magnitude. -/
theorem packF32_getLsbD_zero (s : Bool) (n : Nat) : (packF32 s n).getLsbD 0 = decide (n % 2 = 1) := by
  rw [packF32, BitVec.getLsbD_append, if_pos (by decide), BitVec.getLsbD_ofNat, Nat.testBit_zero]
  rfl

/-- A single is its sign and its magnitude. -/
theorem packF32_eq_self (x : F32) : packF32 (x.getLsbD 31) (f32Magnitude x) = x := by
  refine BitVec.eq_of_getLsbD_eq fun k hk => ?_
  rw [packF32, f32Magnitude, BitVec.ofNat_toNat, BitVec.setWidth_eq, BitVec.getLsbD_append]
  split_ifs with h
  · rw [BitVec.getLsbD_extractLsb', Nat.zero_add, decide_eq_true h, Bool.true_and]
  · obtain rfl : k = 31 := by omega
    simp

end Sys2Proof.Machine
end

section
/-!
The conversion of one element by cases of its magnitude bits (R106 to R112): the rounding with unbounded exponent of a
double is the rounding of its magnitude bits to a multiple of `2^29`. From it where a conversion overflows and where its
result is tiny (O49, O50), and what FTZ and DAZ do (O47, O51); NaN, infinities and zeros (O45, O46).
-/

namespace Sys2Proof.Machine

/-! ### The magnitude bits rounded to 24 bits of significand (R109) -/

/-- The magnitude bits of a double without the last 29, rounded: exponent and fraction field of the rounding with unbounded
exponent (`roundUnbounded_of_normal`). -/
def roundedBits (d : F64) (rc : Rounding) : Nat := (roundInt (f64Magnitude d) (2 ^ 29) rc (f64Sign d)).1

/-- The rounding with unbounded exponent is `2^128` or more (R110). -/
abbrev Overflows (d : F64) (rc : Rounding) : Prop := 1151 * 2 ^ 23 ≤ roundedBits d rc

/-- The rounding with unbounded exponent is less than `2^−126` (R111). -/
abbrev Tiny (d : F64) (rc : Rounding) : Prop := roundedBits d rc < 897 * 2 ^ 23

/-- The least magnitude bits that are rounded to `n` or more. -/
def leastRoundedTo (n : Nat) (rc : Rounding) (s : Bool) : Nat :=
  if rc = .nearest then n * 2 ^ 29 - 2 ^ 28 else if roundsAway rc s then (n - 1) * 2 ^ 29 + 1 else n * 2 ^ 29

theorem le_roundedBits_iff {n : Nat} (hpos : 0 < n) (heven : n % 2 = 0) (d : F64) (rc : Rounding) :
    n ≤ roundedBits d rc ↔ leastRoundedTo n rc (f64Sign d) ≤ f64Magnitude d := by
  unfold roundedBits leastRoundedTo
  by_cases hrc : rc = .nearest
  · subst hrc
    rw [roundInt_nearest, if_pos rfl]
    split_ifs <;> omega
  · rw [roundInt_directed hrc, if_neg hrc]
    cases roundsAway rc (f64Sign d) with
    | false => simp only [Bool.false_eq_true, and_false, if_false]; omega
    | true => simp only [and_true, if_true]; split_ifs <;> omega

/-- The rounding with unbounded exponent of a normal double has the fields of its rounded magnitude bits. -/
theorem roundUnbounded_of_normal {d : F64} (h : 2 ^ 52 ≤ f64Magnitude d) (rc : Rounding) :
    roundUnbounded (exactScaled d) rc (f64Sign d) =
      ⟨roundedBits d rc / 2 ^ 23 + 51, 2 ^ 23 + roundedBits d rc % 2 ^ 23, decide (f64Magnitude d % 2 ^ 29 ≠ 0)⟩ := by
  obtain hlt | ⟨e, f, hf, hm⟩ := magnitude_cases 52 (f64Magnitude d)
  · omega
  have hbits : roundedBits d rc = (roundInt (2 ^ 52 + f) (2 ^ 29) rc (f64Sign d)).1 + e * 2 ^ 23 := by
    rw [roundedBits, hm, ← roundInt_add_mul _ (by decide) (by omega)]
    congr 2
    omega
  have hlo : 2 ^ 23 ≤ (roundInt (2 ^ 52 + f) (2 ^ 29) rc (f64Sign d)).1 := le_roundInt (by decide) (by omega) _ _
  have hhi : (roundInt (2 ^ 52 + f) (2 ^ 29) rc (f64Sign d)).1 ≤ 2 ^ 24 := roundInt_le (by decide) (by omega) _ _
  have hlog : (exactScaled d).log2 = 52 + e := by
    rw [exactScaled_eq, hm, scaled_of_normal 52 e hf, Nat.log2_eq_iff (by positivity), Nat.add_right_comm, Nat.pow_add,
      Nat.pow_add 2 53]
    exact ⟨Nat.mul_le_mul_right _ (by omega), Nat.mul_lt_mul_of_pos_right (by omega) (by positivity)⟩
  have hround : roundInt (exactScaled d * 2 ^ 23) (2 ^ (52 + e)) rc (f64Sign d) =
      roundInt (2 ^ 52 + f) (2 ^ 29) rc (f64Sign d) := by
    rw [← roundInt_mul_right (2 ^ 52 + f) (2 ^ 29) (c := 2 ^ e * 2 ^ 23) (by positivity), exactScaled_eq, hm,
      scaled_of_normal 52 e hf, Nat.mul_assoc, Nat.mul_left_comm (2 ^ 29), ← Nat.pow_add 2 29 23, Nat.pow_add,
      Nat.mul_comm (2 ^ 52) (2 ^ e)]
  have hinexact : (roundInt (2 ^ 52 + f) (2 ^ 29) rc (f64Sign d)).2 = decide (f64Magnitude d % 2 ^ 29 ≠ 0) := by
    rw [roundInt_inexact, decide_eq_decide]
    omega
  simp only [roundUnbounded, hlog, hround, hinexact, hbits]
  split_ifs with h24
  · simp only [Unbounded.mk.injEq, h24, and_true]
    omega
  · simp only [Unbounded.mk.injEq, and_true]
    omega

/-- A denormal double is far below `2^−126`. -/
theorem roundUnbounded_exp_of_denormal {d : F64} (h0 : f64Magnitude d ≠ 0) (h : f64Magnitude d < 2 ^ 52) (rc : Rounding) :
    (roundUnbounded (exactScaled d) rc (f64Sign d)).exp < 948 := by
  have hlog : (f64Magnitude d).log2 < 52 := (Nat.log2_lt h0).2 h
  rw [exactScaled_eq, scaled_of_lt h]
  simp only [roundUnbounded]
  split_ifs <;> dsimp only <;> omega

/-- The bits of the source that the rounding with unbounded exponent drops. -/
def lostBits (d : F64) : Nat :=
  if f64Exp d = 0 then f64Frac d % 2 ^ (Nat.log2 (f64Frac d) - 23) else f64Frac d % 2 ^ 29

/-- Inexact is where a dropped bit is not 0. -/
theorem roundUnbounded_inexact {d : F64} (h0 : f64Magnitude d ≠ 0) (rc : Rounding) :
    (roundUnbounded (exactScaled d) rc (f64Sign d)).inexact = decide (lostBits d ≠ 0) := by
  obtain h | h := Nat.lt_or_ge (f64Magnitude d) (2 ^ 52)
  · have hexp : f64Exp d = 0 := by rw [f64Exp_eq, Nat.div_eq_of_lt h]
    have hfrac : f64Frac d = f64Magnitude d := by rw [f64Frac_eq, Nat.mod_eq_of_lt h]
    obtain ⟨-, -, -, hinexact⟩ := roundUnbounded_spec h0 rc (f64Sign d)
    rw [exactScaled_eq, scaled_of_lt h, hinexact, roundInt_inexact, lostBits, if_pos hexp, hfrac, decide_eq_decide]
    obtain hlog | hlog := Nat.lt_or_ge (f64Magnitude d).log2 23
    · rw [Nat.sub_eq_zero_of_le hlog.le, Nat.pow_zero, Nat.mod_one,
        Nat.mod_eq_zero_of_dvd ((Nat.pow_dvd_pow 2 hlog.le).mul_left _)]
    · obtain ⟨k, hk⟩ := Nat.exists_eq_add_of_le' hlog
      rw [hk, Nat.add_sub_cancel, Nat.pow_add, Nat.mul_mod_mul_right]
      simp
  · have hexp : f64Exp d ≠ 0 := by rw [f64Exp_eq]; omega
    rw [roundUnbounded_of_normal h, lostBits, if_neg hexp, f64Frac_eq, decide_eq_decide]
    omega

/-- Every denormal double is tiny. -/
theorem normal_of_not_tiny {d : F64} {rc : Rounding} (h : ¬Tiny d rc) : 2 ^ 52 ≤ f64Magnitude d := by
  by_contra hlt
  have := roundInt_le (n := 2 ^ 23) (num := f64Magnitude d) (den := 2 ^ 29) (by decide) (by omega) rc (f64Sign d)
  rw [Tiny, roundedBits] at h
  omega

/-! ### A finite source that is not zero (R110, R111, R113) -/

/-- From `2^128` on: the exponent is too large. -/
theorem cvtFinite_of_overflow {d : F64} {c : Ctx} (h : Overflows d c.rc) (pre : FpFlags) :
    cvtFinite d c pre = cvtOverflow d c pre (decide (f64Magnitude d % 2 ^ 29 ≠ 0)) := by
  rw [cvtFinite, roundUnbounded_of_normal (normal_of_not_tiny (rc := c.rc) (by omega))]
  dsimp only
  rw [if_pos (by omega)]

/-- Between `2^−126` and `2^128`: a normal single. -/
theorem cvtFinite_of_normal {d : F64} {c : Ctx} (hlo : ¬Tiny d c.rc) (hhi : ¬Overflows d c.rc) (pre : FpFlags) :
    cvtFinite d c pre =
      ⟨packF32 (f64Sign d) (roundedBits d c.rc - 896 * 2 ^ 23), pre,
       { noFlags with pe := decide (f64Magnitude d % 2 ^ 29 ≠ 0) }⟩ := by
  have hmag : (roundedBits d c.rc / 2 ^ 23 + 51 - 947) * 2 ^ 23 + (2 ^ 23 + roundedBits d c.rc % 2 ^ 23 - 2 ^ 23) =
      roundedBits d c.rc - 896 * 2 ^ 23 := by omega
  rw [cvtFinite, roundUnbounded_of_normal (normal_of_not_tiny hlo)]
  dsimp only
  rw [if_neg (by omega), if_neg (by omega), hmag]

/-- Below `2^−126`: tiny. -/
theorem cvtFinite_of_tiny {d : F64} {c : Ctx} (h0 : f64Magnitude d ≠ 0) (h : Tiny d c.rc) (pre : FpFlags) :
    cvtFinite d c pre = cvtTiny d c pre (decide (lostBits d ≠ 0)) := by
  have hexp : (roundUnbounded (exactScaled d) c.rc (f64Sign d)).exp < 948 := by
    obtain hden | hnormal := Nat.lt_or_ge (f64Magnitude d) (2 ^ 52)
    · exact roundUnbounded_exp_of_denormal h0 hden c.rc
    · rw [roundUnbounded_of_normal hnormal]
      dsimp only
      omega
  rw [cvtFinite]
  dsimp only
  rw [if_neg (by omega), if_pos hexp, roundUnbounded_inexact h0]

/-! ### The cases of the conversion (R105 to R108) -/

theorem cvt_of_nan {d : F64} (h : isNaN64 d = true) (c : Ctx) : cvtF64ToF32 d c = cvtNaN d := by
  rw [isNaN64, Bool.and_eq_true, decide_eq_true_iff, decide_eq_true_iff] at h
  rw [cvtF64ToF32, if_pos h]

theorem cvt_of_infinite {d : F64} (h : f64Magnitude d = 2047 * 2 ^ 52) (c : Ctx) :
    cvtF64ToF32 d c = ⟨packF32 (f64Sign d) 0x7F800000, noFlags, noFlags⟩ := by
  have hexp : f64Exp d = 2047 := by rw [f64Exp_eq]; omega
  have hfrac : f64Frac d = 0 := by rw [f64Frac_eq]; omega
  rw [cvtF64ToF32, if_neg (fun hn => hn.2 hfrac), if_pos hexp]

theorem cvt_of_zero {d : F64} (h : f64Magnitude d = 0) (c : Ctx) :
    cvtF64ToF32 d c = ⟨packF32 (f64Sign d) 0, noFlags, noFlags⟩ := by
  have hexp : f64Exp d = 0 := by rw [f64Exp_eq]; omega
  have hfrac : f64Frac d = 0 := by rw [f64Frac_eq]; omega
  rw [cvtF64ToF32, hexp, hfrac]
  rfl

/-- With DAZ a denormal is a zero (R108). -/
theorem cvt_of_flushed {d : F64} {c : Ctx} (h : f64Exp d = 0) (hdaz : c.daz = true) :
    cvtF64ToF32 d c = ⟨packF32 (f64Sign d) 0, noFlags, noFlags⟩ := by
  rw [cvtF64ToF32, h, hdaz]
  simp

/-- A finite source that is neither zero nor flushed by DAZ. -/
theorem cvt_of_finite {d : F64} {c : Ctx} (hfin : isFinite64 d = true) (h0 : f64Magnitude d ≠ 0)
    (hdaz : f64Exp d ≠ 0 ∨ c.daz = false) :
    cvtF64ToF32 d c = cvtFinite d c { noFlags with de := decide (f64Exp d = 0) } := by
  have hexp : f64Exp d ≠ 2047 := by
    rw [isFinite64, decide_eq_true_iff] at hfin
    omega
  have hzero : ¬(f64Exp d = 0 ∧ f64Frac d = 0) := by rw [f64Exp_eq, f64Frac_eq]; omega
  have hflush : ¬(f64Exp d = 0 ∧ c.daz = true) := by
    rintro ⟨he, hd⟩
    obtain h | h := hdaz
    · exact h he
    · rw [hd] at h; cases h
  rw [cvtF64ToF32, if_neg (fun h => hexp h.1), if_neg hexp, if_neg hzero, if_neg hflush]

/-- Settles O45: the fields of the NaN, and four NaNs. -/
theorem naNConversion : Obligations.NaNConversion := by
  have hnan : ∀ (d : F64) (c : Ctx), isNaN64 d = true →
      cvtF64ToF32 d c =
        ⟨d.extractLsb' 63 1 ++ 0xFF#8 ++ 1#1 ++ d.extractLsb' 29 22, ⟨!d.getLsbD 51, false, false, false, false⟩,
         noFlags⟩ := fun d c h => by
    have hsign : BitVec.ofBool (f64Sign d) = d.extractLsb' 63 1 := by
      refine BitVec.eq_of_getLsbD_eq fun k hk => ?_
      obtain rfl : k = 0 := by omega
      simp [f64Sign]
    rw [cvt_of_nan h, cvtNaN, hsign]
    rfl
  exact ⟨hnan, fun c => ⟨hnan _ c (by decide), hnan _ c (by decide), hnan _ c (by decide), hnan _ c (by decide)⟩⟩

/-- Settles O46: by their magnitude bits. -/
theorem infinityAndZeroConversion : Obligations.InfinityAndZeroConversion := fun c =>
  ⟨cvt_of_infinite (by decide) c, cvt_of_infinite (by decide) c, cvt_of_zero (by decide) c, cvt_of_zero (by decide) c⟩

end Sys2Proof.Machine
end

section
/-!
What a finite source converts to where it overflows, where its result is a normal single and where it is tiny: the
statements about DAZ, overflow, tininess and FTZ (O47, O49, O50, O51).
-/

namespace Sys2Proof.Machine

/-! ### Thresholds in the magnitude bits (R110, R111) -/

/-- The least magnitude bits that overflow: half a unit above the largest single, next above it, or `2^128`. -/
theorem overflows_iff (d : F64) (rc : Rounding) :
    Overflows d rc ↔
      (if rc = .nearest then 0x47EFFFFFF0000000
        else if roundsAway rc (f64Sign d) then 0x47EFFFFFE0000001 else 0x47F0000000000000) ≤ f64Magnitude d :=
  le_roundedBits_iff (by decide) (by decide) d rc

/-- The magnitude bits from which a result is not tiny: those that are rounded to `2^−126` or more. -/
theorem not_tiny_iff (d : F64) (rc : Rounding) :
    ¬Tiny d rc ↔
      (if rc = .nearest then 0x380FFFFFF0000000
        else if roundsAway rc (f64Sign d) then 0x380FFFFFE0000001 else 0x3810000000000000) ≤ f64Magnitude d :=
  Nat.not_lt.trans (le_roundedBits_iff (by decide) (by decide) d rc)

theorem f64Exp_ne_zero_of_not_tiny {d : F64} {rc : Rounding} (h : ¬Tiny d rc) : f64Exp d ≠ 0 := by
  have := normal_of_not_tiny h
  rw [f64Exp_eq]
  omega

theorem f64Magnitude_ne_zero_of_not_tiny {d : F64} {rc : Rounding} (h : ¬Tiny d rc) : f64Magnitude d ≠ 0 := by
  have := normal_of_not_tiny h
  omega

theorem not_tiny_of_overflows {d : F64} {rc : Rounding} (h : Overflows d rc) : ¬Tiny d rc := by omega

/-- From `2^128` on every direction of rounding overflows. -/
theorem f64Magnitude_lt_of_not_overflows {d : F64} {rc : Rounding} (h : ¬Overflows d rc) :
    f64Magnitude d < 1151 * 2 ^ 52 := by
  by_contra hge
  exact h (le_roundInt (by decide) (by omega) rc (f64Sign d))

theorem isFinite64_of_not_overflows {d : F64} {rc : Rounding} (h : ¬Overflows d rc) : isFinite64 d = true := by
  have := f64Magnitude_lt_of_not_overflows h
  rw [isFinite64_iff]
  omega

theorem f64Magnitude_lt_of_tiny {d : F64} {rc : Rounding} (h : Tiny d rc) : f64Magnitude d < 897 * 2 ^ 52 := by
  by_contra hge
  exact absurd (le_roundInt (n := 897 * 2 ^ 23) (by decide) (by omega) rc (f64Sign d)) (Nat.not_le.2 h)

/-! ### The three ranges of a finite source (R110, R111, R113) -/

theorem cvt_of_overflows {d : F64} {c : Ctx} (hfin : isFinite64 d = true) (h : Overflows d c.rc) :
    cvtF64ToF32 d c = cvtOverflow d c noFlags (decide (f64Magnitude d % 2 ^ 29 ≠ 0)) := by
  have ht := not_tiny_of_overflows h
  have hexp := f64Exp_ne_zero_of_not_tiny ht
  rw [cvt_of_finite hfin (f64Magnitude_ne_zero_of_not_tiny ht) (.inl hexp), cvtFinite_of_overflow h,
    decide_eq_false hexp]
  rfl

theorem cvt_of_normal {d : F64} {c : Ctx} (ht : ¬Tiny d c.rc) (ho : ¬Overflows d c.rc) :
    cvtF64ToF32 d c =
      ⟨packF32 (f64Sign d) (roundedBits d c.rc - 896 * 2 ^ 23), noFlags,
       { noFlags with pe := decide (f64Magnitude d % 2 ^ 29 ≠ 0) }⟩ := by
  have hexp := f64Exp_ne_zero_of_not_tiny ht
  rw [cvt_of_finite (isFinite64_of_not_overflows ho) (f64Magnitude_ne_zero_of_not_tiny ht) (.inl hexp),
    cvtFinite_of_normal ht ho, decide_eq_false hexp]
  rfl

theorem cvt_of_tiny {d : F64} {c : Ctx} (h0 : f64Magnitude d ≠ 0) (hdaz : f64Exp d ≠ 0 ∨ c.daz = false)
    (h : Tiny d c.rc) :
    cvtF64ToF32 d c = cvtTiny d c { noFlags with de := decide (f64Exp d = 0) } (decide (lostBits d ≠ 0)) := by
  have ho : ¬Overflows d c.rc := fun ho => not_tiny_of_overflows ho h
  rw [cvt_of_finite (isFinite64_of_not_overflows ho) h0 hdaz, cvtFinite_of_tiny h0 h]

theorem cvtOverflow_masked {c : Ctx} (h : c.om = true) (d : F64) (pre : FpFlags) (inexact : Bool) :
    cvtOverflow d c pre inexact =
      ⟨packF32 (f64Sign d) (overflowMagnitude c.rc (f64Sign d)), pre, { noFlags with oe := true, pe := true }⟩ :=
  if_pos h

theorem cvtOverflow_unmasked {c : Ctx} (h : c.om = false) (d : F64) (pre : FpFlags) (inexact : Bool) :
    cvtOverflow d c pre inexact = ⟨Config.undefinedF32 d, pre, { noFlags with oe := true, pe := inexact }⟩ :=
  if_neg (Bool.eq_false_iff.1 h)

theorem cvtTiny_unmasked {c : Ctx} (h : c.um = false) (d : F64) (pre : FpFlags) (inexact : Bool) :
    cvtTiny d c pre inexact = ⟨Config.undefinedF32 d, pre, { noFlags with ue := true, pe := inexact }⟩ := by
  rw [cvtTiny, h]
  rfl

theorem cvtTiny_flushed {c : Ctx} (hum : c.um = true) (hftz : c.ftz = true) (d : F64) (pre : FpFlags)
    (inexact : Bool) :
    cvtTiny d c pre inexact = ⟨packF32 (f64Sign d) 0, pre, { noFlags with ue := true, pe := true }⟩ := by
  rw [cvtTiny, hum, hftz]
  rfl

theorem cvtTiny_rounded {c : Ctx} (hum : c.um = true) (hftz : c.ftz = false) (d : F64) (pre : FpFlags)
    (inexact : Bool) :
    cvtTiny d c pre inexact =
      ⟨packF32 (f64Sign d) (roundInt (exactScaled d) lastPlace c.rc (f64Sign d)).1, pre,
       { noFlags with
         ue := (roundInt (exactScaled d) lastPlace c.rc (f64Sign d)).2
         pe := (roundInt (exactScaled d) lastPlace c.rc (f64Sign d)).2 }⟩ := by
  rw [cvtTiny, hum, hftz, lastPlace_eq]
  rfl

theorem cvtTiny_post_oe (d : F64) (c : Ctx) (pre : FpFlags) (inexact : Bool) :
    (cvtTiny d c pre inexact).post.oe = false := by
  unfold cvtTiny
  split_ifs <;> rfl

/-- A zero, or a denormal with DAZ (R107, R108). -/
theorem cvt_of_zero_or_flushed {d : F64} {c : Ctx} (h : f64Magnitude d = 0 ∨ f64Exp d = 0 ∧ c.daz = true) :
    cvtF64ToF32 d c = ⟨packF32 (f64Sign d) 0, noFlags, noFlags⟩ := by
  obtain h | ⟨he, hdaz⟩ := h
  · exact cvt_of_zero h c
  · exact cvt_of_flushed he hdaz

/-- The kinds of double: NaN, infinite, finite (R105). -/
theorem double_cases (d : F64) : isNaN64 d = true ∨ f64Magnitude d = 2047 * 2 ^ 52 ∨ isFinite64 d = true := by
  rw [isNaN64_iff, isFinite64_iff]
  omega

/-- The four kinds of finite source: overflow, a normal result, a tiny result, and a zero. -/
theorem finite_cases (d : F64) (c : Ctx) :
    Overflows d c.rc ∨ (¬Tiny d c.rc ∧ ¬Overflows d c.rc) ∨
    (Tiny d c.rc ∧ f64Magnitude d ≠ 0 ∧ (f64Exp d ≠ 0 ∨ c.daz = false)) ∨
    (f64Magnitude d = 0 ∨ f64Exp d = 0 ∧ c.daz = true) := by
  by_cases ho : Overflows d c.rc
  · exact .inl ho
  by_cases ht : Tiny d c.rc
  · by_cases hz : f64Magnitude d = 0 ∨ f64Exp d = 0 ∧ c.daz = true
    · exact .inr (.inr (.inr hz))
    · rw [not_or, not_and_or, Bool.not_eq_true] at hz
      exact .inr (.inr (.inl ⟨ht, hz⟩))
  · exact .inr (.inl ⟨ht, ho⟩)

/-- The magnitude bits below those of `2^−126` stand for values below `2^−126`. -/
theorem exactScaled_lt {d : F64} (h : f64Magnitude d < 897 * 2 ^ 52) : exactScaled d < 2 ^ 23 * lastPlace := by
  have hlt := scaled_strictMono 52 h
  have hpow : ∀ k n, n = k + 29 → 2 ^ 52 * 2 ^ k = 2 ^ 23 * 2 ^ n := fun k n h => by rw [h, Nat.pow_add]; omega
  rw [← exactScaled_eq, ← Nat.add_zero (897 * 2 ^ 52), scaled_of_normal 52 896 (by decide), Nat.add_zero,
    hpow 896 925 rfl, ← lastPlace_eq] at hlt
  exact hlt

/-! ### Overflow, tininess, FTZ and DAZ -/

/-- Settles O49: the three ranges of the source; only the first has OE. -/
theorem overflowConversion : Obligations.OverflowConversion := by
  intro d c hfin least x
  have hiff : Overflows d c.rc ↔ least ≤ f64Magnitude d := overflows_iff d c.rc
  by_cases ho : Overflows d c.rc
  · have hx : x = cvtOverflow d c noFlags (decide (f64Magnitude d % 2 ^ 29 ≠ 0)) := cvt_of_overflows hfin ho
    refine ⟨?_, fun _ hom => ?_, fun _ hom => ?_⟩
    · rw [decide_eq_true (hiff.1 ho), hx]
      cases hom : c.om with
      | true => rw [cvtOverflow_masked hom]
      | false => rw [cvtOverflow_unmasked hom]
    · rw [hx, cvtOverflow_masked hom]
      exact ⟨rfl, by cases c.rc <;> cases f64Sign d <;> rfl⟩
    · rw [hx, cvtOverflow_unmasked hom]
  · have hoe : x.post.oe = false := by
      obtain h | ⟨ht, -⟩ | ⟨ht, h0, hdaz⟩ | hz := finite_cases d c
      · exact absurd h ho
      · simp only [x, cvt_of_normal ht ho, noFlags]
      · simp only [x, cvt_of_tiny h0 hdaz ht, cvtTiny_post_oe]
      · simp only [x, cvt_of_zero_or_flushed hz, noFlags]
    refine ⟨?_, fun h => absurd (hiff.2 h) ho, fun h => absurd (hiff.2 h) ho⟩
    rw [hoe, decide_eq_false (mt hiff.2 ho)]

/-- Settles O50: only a tiny result has UE, and it is one of three. -/
theorem underflowConversion : Obligations.UnderflowConversion := by
  intro d c hfin h0 hdaz bound lost n x
  have hiff : ¬Tiny d c.rc ↔ bound ≤ f64Magnitude d := not_tiny_iff d c.rc
  by_cases ht : Tiny d c.rc
  · have hlt : f64Magnitude d < bound := Nat.not_le.1 fun h => hiff.2 h ht
    have hx : x = cvtTiny d c { noFlags with de := decide (f64Exp d = 0) } (decide (lost ≠ 0)) := cvt_of_tiny h0 hdaz ht
    refine ⟨fun h => absurd h (Nat.not_le.2 hlt), fun _ hum => ?_, fun _ hum hftz => ?_, fun _ hum hftz => ?_⟩
    · rw [hx, cvtTiny_unmasked hum]
    · rw [hx, cvtTiny_flushed hum hftz]
      exact ⟨rfl, rfl⟩
    · have hinexact := roundInt_inexact_iff (exactScaled d) lastPlace_pos c.rc (f64Sign d)
      have hle := roundInt_le lastPlace_pos (exactScaled_lt (f64Magnitude_lt_of_tiny ht)).le c.rc (f64Sign d)
      rw [hx, cvtTiny_rounded hum hftz, hinexact]
      simp only [n, ← lastPlace_eq, and_true]
      exact hle
  · have hle := hiff.1 ht
    refine ⟨fun _ => ?_, fun h => absurd hle (Nat.not_le.2 h), fun h => absurd hle (Nat.not_le.2 h),
      fun h => absurd hle (Nat.not_le.2 h)⟩
    by_cases ho : Overflows d c.rc
    · simp only [x, cvt_of_overflows hfin ho, cvtOverflow]
      split_ifs <;> rfl
    · simp only [x, cvt_of_normal ht ho, noFlags]

/-- Settles O47: a denormal double is less than half of the smallest denormal single. -/
theorem denormalConversion : Obligations.DenormalConversion := by
  intro d c hexp hfrac
  have hlt : f64Magnitude d < 2 ^ 52 := by
    rw [f64Exp_eq] at hexp
    omega
  have h0 : f64Magnitude d ≠ 0 := fun h => hfrac (by rw [f64Frac_eq, h, Nat.zero_mod])
  have ht : Tiny d c.rc := Decidable.of_not_not fun ht => absurd (normal_of_not_tiny ht) (Nat.not_le.2 hlt)
  have hfin : isFinite64 d = true := by
    rw [isFinite64_iff]
    omega
  have hde : decide (f64Exp d = 0) = true := decide_eq_true hexp
  refine ⟨cvt_of_flushed hexp, fun hdaz => ?_, fun hdaz hum => ?_⟩
  · rw [cvt_of_finite hfin h0 (.inr hdaz), cvtFinite_pre, hde]
  · rw [cvt_of_tiny h0 (.inr hdaz) ht, hde]
    cases hftz : c.ftz with
    | true =>
      rw [cvtTiny_flushed hum hftz]
      simp
    | false =>
      have hsmall : 2 * exactScaled d < lastPlace := by
        have h53 : 2 ^ 53 ≤ 2 ^ 925 := by gcongr <;> decide
        rw [exactScaled_eq, scaled_of_lt hlt, lastPlace_eq]
        omega
      have hpos : 0 < exactScaled d := by
        rw [exactScaled_eq, scaled_of_lt hlt]
        exact Nat.pos_of_ne_zero h0
      rw [cvtTiny_rounded hum hftz, roundInt_of_small hpos hsmall]
      simp

/-- Settles O51: FTZ is tested only for a tiny result with Underflow masked. -/
theorem flushToZeroConversion : Obligations.FlushToZeroConversion := by
  intro d c bound tiny
  have hiff : ¬Tiny d c.rc ↔ bound ≤ f64Magnitude d := not_tiny_iff d c.rc
  refine ⟨fun h => ?_, fun hum ⟨h0, hlt, hdaz⟩ => ?_⟩
  · obtain hnan | hinf | hfin := double_cases d
    · rw [cvt_of_nan hnan, cvt_of_nan hnan]
    · rw [cvt_of_infinite hinf, cvt_of_infinite hinf]
    obtain ho | ⟨ht, ho⟩ | ⟨ht, h0, hdaz⟩ | hz := finite_cases d c
    · rw [cvt_of_overflows (c := { c with ftz := true }) hfin ho,
        cvt_of_overflows (c := { c with ftz := false }) hfin ho]
      rfl
    · rw [cvt_of_normal (c := { c with ftz := true }) ht ho, cvt_of_normal (c := { c with ftz := false }) ht ho]
    · have hlt : f64Magnitude d < bound := Nat.not_le.1 fun h => hiff.2 h ht
      have hum : c.um = false := Bool.eq_false_iff.2 fun hum => h ⟨hum, h0, hlt, hdaz⟩
      rw [cvt_of_tiny (c := { c with ftz := true }) h0 hdaz ht, cvt_of_tiny (c := { c with ftz := false }) h0 hdaz ht,
        cvtTiny_unmasked (c := { c with ftz := true }) hum, cvtTiny_unmasked (c := { c with ftz := false }) hum]
    · rw [cvt_of_zero_or_flushed (c := { c with ftz := true }) hz,
        cvt_of_zero_or_flushed (c := { c with ftz := false }) hz]
  · have ht : Tiny d c.rc := Decidable.of_not_not fun ht => absurd (hiff.1 ht) (Nat.not_le.2 hlt)
    rw [cvt_of_tiny (c := { c with ftz := true }) h0 hdaz ht, cvtTiny_flushed (c := { c with ftz := true }) hum rfl]
    exact ⟨rfl, rfl⟩

end Sys2Proof.Machine
end

section
/-!
The result with Underflow masked and FTZ off, below overflow, as the rounding of the exact value to one of the two singles
around it (`exists_brackets`).
-/

namespace Sys2Proof.Machine

/-! ### Singles among the doubles (R101) -/

/-- Up to `2^−126` the singles are the multiples of `2^−149`. -/
theorem singleScaled_of_le {n : Nat} (h : n ≤ 2 ^ 23) : singleScaled n = n * lastPlace := by
  obtain hlt | rfl := h.lt_or_eq
  · rw [singleScaled, scaled_of_lt hlt]
  · rfl

/-- From `2^−126` on a double whose last 29 bits are zero is a single, with another bias of the exponent. -/
theorem scaled_single {m : Nat} (h : 897 * 2 ^ 23 ≤ m) : scaled 52 (m * 2 ^ 29) = singleScaled (m - 896 * 2 ^ 23) := by
  obtain hlt | ⟨e, f, hf, hm⟩ := magnitude_cases 23 (m - 896 * 2 ^ 23)
  · omega
  have hdouble : m * 2 ^ 29 = (896 + e + 1) * 2 ^ 52 + f * 2 ^ 29 := by omega
  have hpow : 2 ^ e * lastPlace = 2 ^ 29 * 2 ^ (896 + e) := by
    rw [lastPlace_eq, ← Nat.pow_add, ← Nat.pow_add, show e + 925 = 29 + (896 + e) by omega]
  rw [hdouble, scaled_of_normal 52 _ (by omega), hm, singleScaled, scaled_of_normal 23 e hf, Nat.mul_assoc, hpow,
    ← Nat.mul_assoc, show 2 ^ 52 + f * 2 ^ 29 = (2 ^ 23 + f) * 2 ^ 29 by omega]

/-! ### The magnitude of the rounded result (R109, R111, R113) -/

/-- The magnitude bits of the result with Underflow masked and FTZ off, below overflow. -/
def singleBits (d : F64) (rc : Rounding) : Nat :=
  if Tiny d rc then (roundInt (exactScaled d) lastPlace rc (f64Sign d)).1 else roundedBits d rc - 896 * 2 ^ 23

theorem singleBits_of_tiny {d : F64} {rc : Rounding} (h : Tiny d rc) :
    singleBits d rc = (roundInt (exactScaled d) lastPlace rc (f64Sign d)).1 := if_pos h

theorem singleBits_of_not_tiny {d : F64} {rc : Rounding} (h : ¬Tiny d rc) :
    singleBits d rc = roundedBits d rc - 896 * 2 ^ 23 := if_neg h

theorem singleBits_le_of_tiny {d : F64} {rc : Rounding} (h : Tiny d rc) : singleBits d rc ≤ 2 ^ 23 := by
  rw [singleBits_of_tiny h]
  exact roundInt_le lastPlace_pos (exactScaled_lt (f64Magnitude_lt_of_tiny h)).le _ _

theorem le_singleBits_of_not_tiny {d : F64} {rc : Rounding} (h : ¬Tiny d rc) : 2 ^ 23 ≤ singleBits d rc := by
  rw [singleBits_of_not_tiny h]
  omega

theorem singleBits_lt {d : F64} {rc : Rounding} (h : ¬Overflows d rc) : singleBits d rc < 255 * 2 ^ 23 := by
  by_cases ht : Tiny d rc
  · have := singleBits_le_of_tiny ht
    omega
  · rw [singleBits_of_not_tiny ht]
    omega

/-- Whether the rounded result has another value than the source. -/
def inexact (d : F64) (rc : Rounding) : Bool := decide (singleScaled (singleBits d rc) ≠ exactScaled d)

theorem inexact_of_tiny {d : F64} {rc : Rounding} (h : Tiny d rc) :
    inexact d rc = (roundInt (exactScaled d) lastPlace rc (f64Sign d)).2 := by
  rw [inexact, singleScaled_of_le (singleBits_le_of_tiny h), singleBits_of_tiny h,
    roundInt_inexact_iff _ lastPlace_pos]

theorem inexact_of_not_tiny {d : F64} {rc : Rounding} (h : ¬Tiny d rc) :
    inexact d rc = decide (f64Magnitude d % 2 ^ 29 ≠ 0) := by
  have hvalue : singleScaled (singleBits d rc) = scaled 52 (roundedBits d rc * 2 ^ 29) := by
    rw [singleBits_of_not_tiny h, scaled_single (Nat.not_lt.1 h)]
  rw [inexact, hvalue, exactScaled_eq, ← roundInt_inexact _ _ rc (f64Sign d), roundInt_inexact_iff _ (by decide),
    decide_eq_decide, (scaled_strictMono 52).injective.ne_iff]
  rfl

/-- A zero is rounded to itself. -/
theorem singleBits_of_zero {d : F64} (h : f64Magnitude d = 0) (rc : Rounding) :
    singleBits d rc = 0 ∧ inexact d rc = false := by
  have ht : Tiny d rc := Decidable.of_not_not fun ht => f64Magnitude_ne_zero_of_not_tiny ht h
  have hzero : exactScaled d = 0 * lastPlace := by rw [exactScaled_eq, h, Nat.zero_mul]; rfl
  rw [inexact_of_tiny ht, singleBits_of_tiny ht, hzero, roundInt_exact 0 lastPlace_pos,
    roundInt_inexact, Nat.mul_mod_left]
  exact ⟨rfl, rfl⟩

/-- The conversion of a finite source that DAZ does not flush, with Underflow masked and FTZ off, below overflow. -/
theorem cvt_of_not_overflows {d : F64} {c : Ctx} (hdaz : f64Exp d ≠ 0 ∨ c.daz = false) (hum : c.um = true)
    (hftz : c.ftz = false) (ho : ¬Overflows d c.rc) :
    cvtF64ToF32 d c =
      ⟨packF32 (f64Sign d) (singleBits d c.rc), { noFlags with de := decide (f64Exp d = 0 ∧ f64Magnitude d ≠ 0) },
       { noFlags with ue := decide (Tiny d c.rc) && inexact d c.rc, pe := inexact d c.rc }⟩ := by
  by_cases ht : Tiny d c.rc
  · rw [decide_eq_true ht, Bool.true_and]
    by_cases h0 : f64Magnitude d = 0
    · obtain ⟨hbits, hexact⟩ := singleBits_of_zero h0 c.rc
      rw [cvt_of_zero h0, hbits, hexact, decide_eq_false (fun h => h.2 h0)]
      rfl
    · rw [cvt_of_tiny h0 hdaz ht, cvtTiny_rounded hum hftz, ← inexact_of_tiny ht, ← singleBits_of_tiny ht]
      simp only [h0, ne_eq, not_false_eq_true, and_true]
  · rw [cvt_of_normal ht ho, ← inexact_of_not_tiny ht, ← singleBits_of_not_tiny ht, decide_eq_false ht,
      decide_eq_false (fun h => f64Exp_ne_zero_of_not_tiny ht h.1)]
    rfl

/-! ### The two singles around a value (R109) -/

/-- The value `n` lies `rem` above the single `lo`, and the next single is `gap` above `lo`. -/
structure Brackets (n lo rem gap : Nat) : Prop where
  rem_lt : rem < gap
  value : singleScaled lo + rem = n
  next : singleScaled (lo + 1) = singleScaled lo + gap

/-- A value below `2^−126` that is rounded up to `2^−126` with 24 bits of significand is so with fewer. -/
theorem roundInt_of_not_tiny {d : F64} {rc : Rounding} (ht : ¬Tiny d rc) (hlt : f64Magnitude d < 897 * 2 ^ 52) :
    (roundInt (exactScaled d) lastPlace rc (f64Sign d)).1 = 2 ^ 23 := by
  have hle := (le_roundedBits_iff (by decide) (by decide) d rc).1 (Nat.not_lt.1 ht)
  unfold leastRoundedTo at hle
  obtain ⟨f, hf, hm⟩ : ∃ f, f < 2 ^ 52 ∧ f64Magnitude d = (895 + 1) * 2 ^ 52 + f := by
    refine ⟨f64Magnitude d - 896 * 2 ^ 52, ?_, ?_⟩ <;> split_ifs at hle <;> omega
  have hpow : ∀ k n, n = 30 + k → 2 ^ n = 2 ^ 30 * 2 ^ k := fun k n h => by rw [h, Nat.pow_add]
  rw [exactScaled_eq, hm, scaled_of_normal 52 895 hf, lastPlace_eq, hpow 895 925 rfl,
    roundInt_mul_right _ _ (Nat.two_pow_pos 895)]
  by_cases hrc : rc = .nearest
  · subst hrc
    rw [if_pos rfl] at hle
    rw [roundInt_nearest, if_pos (by omega)]
    omega
  · rw [if_neg hrc] at hle
    rw [roundInt_directed hrc]
    cases haway : roundsAway rc (f64Sign d) with
    | false =>
      rw [haway, if_neg Bool.false_ne_true] at hle
      omega
    | true =>
      rw [haway, if_pos rfl] at hle
      rw [if_pos ⟨by omega, rfl⟩]
      omega

/-- Below `2^−126` the result is always a multiple of `2^−149`. -/
theorem singleBits_of_lt {d : F64} (hlt : f64Magnitude d < 897 * 2 ^ 52) (rc : Rounding) :
    singleBits d rc = (roundInt (exactScaled d) lastPlace rc (f64Sign d)).1 := by
  by_cases ht : Tiny d rc
  · exact singleBits_of_tiny ht
  · have hle : roundedBits d rc ≤ 897 * 2 ^ 23 := roundInt_le (by decide) (by omega) rc (f64Sign d)
    rw [singleBits_of_not_tiny ht, roundInt_of_not_tiny ht hlt]
    omega

theorem not_tiny_of_ge {d : F64} (h : 897 * 2 ^ 52 ≤ f64Magnitude d) (rc : Rounding) : ¬Tiny d rc :=
  Nat.not_lt.2 (le_roundInt (by decide) (by omega) rc (f64Sign d))

/-- The exact value lies between two neighbouring singles, and every direction of rounding gives one of them. -/
theorem exists_brackets (d : F64) :
    ∃ lo rem gap, Brackets (exactScaled d) lo rem gap ∧
      ∀ rc, singleBits d rc = lo + (roundsUp lo rem gap rc (f64Sign d)).toNat := by
  obtain hlt | hge := Nat.lt_or_ge (f64Magnitude d) (897 * 2 ^ 52)
  · have hlo : exactScaled d / lastPlace < 2 ^ 23 := (Nat.div_lt_iff_lt_mul lastPlace_pos).2 (exactScaled_lt hlt)
    refine ⟨exactScaled d / lastPlace, exactScaled d % lastPlace, lastPlace,
      ⟨Nat.mod_lt _ lastPlace_pos, ?_, ?_⟩, fun rc => ?_⟩
    · rw [singleScaled_of_le hlo.le, Nat.div_add_mod']
    · rw [singleScaled_of_le hlo, singleScaled_of_le hlo.le, Nat.succ_mul]
    · rw [singleBits_of_lt hlt, roundInt_eq]
  · have hm := Nat.div_add_mod' (f64Magnitude d) (2 ^ 29)
    have hmod := Nat.mod_lt (f64Magnitude d) (y := 2 ^ 29) (by decide)
    have hlo : 897 * 2 ^ 23 ≤ f64Magnitude d / 2 ^ 29 := by omega
    have hunit : 0 < 2 ^ (f64Magnitude d / 2 ^ 29 * 2 ^ 29 / 2 ^ 52 - 1) := by positivity
    refine ⟨f64Magnitude d / 2 ^ 29 - 896 * 2 ^ 23, _, _, ⟨Nat.mul_lt_mul_of_pos_right hmod hunit, ?_, ?_⟩, fun rc => ?_⟩
    · rw [← scaled_single hlo, exactScaled_eq, ← scaled_add (by omega), hm]
    · rw [show f64Magnitude d / 2 ^ 29 - 896 * 2 ^ 23 + 1 = f64Magnitude d / 2 ^ 29 + 1 - 896 * 2 ^ 23 by omega,
        ← scaled_single hlo, ← scaled_single (by omega), ← scaled_add (by omega), Nat.succ_mul]
    · have hup := roundsUp_congr (fl := f64Magnitude d / 2 ^ 29) (fl' := f64Magnitude d / 2 ^ 29 - 896 * 2 ^ 23)
        (by omega) (f64Magnitude d % 2 ^ 29) (2 ^ 29) hunit rc (f64Sign d)
      rw [singleBits_of_not_tiny (not_tiny_of_ge hge rc), roundedBits, roundInt_eq, hup]
      omega

end Sys2Proof.Machine
end

section
/-!
What the two singles around the exact value say of the masked result: nearest and directed rounding (O54, O55), and PE and
the direction of rounding for exact results (O56).
-/

namespace Sys2Proof.Machine

/-! ### Singles beside the exact value -/

/-- No single lies strictly between two neighbours. -/
theorem singleScaled_le_or_le (lo m : Nat) :
    singleScaled m ≤ singleScaled lo ∨ singleScaled (lo + 1) ≤ singleScaled m := by
  obtain h | h := Nat.lt_or_ge lo m
  · exact .inr (singleScaled_strictMono.monotone h)
  · exact .inl (singleScaled_strictMono.monotone h)

/-- A value that a single has is rounded to it in every direction. -/
theorem singleBits_of_exact {d : F64} {m : Nat} (h : singleScaled m = exactScaled d) (rc : Rounding) :
    singleBits d rc = m := by
  obtain ⟨lo, rem, gap, ⟨hrem, hvalue, hnext⟩, hbits⟩ := exists_brackets d
  have hside := singleScaled_le_or_le lo m
  have hzero : rem = 0 := by omega
  have hlo : lo = m := singleScaled_strictMono.injective (by omega)
  have hup : roundsUp lo rem gap rc (f64Sign d) = false :=
    Bool.eq_false_iff.2 fun hup => (rem_pos_of_roundsUp (by omega) hup).ne' hzero
  rw [hbits, hup, ← hlo]
  rfl

theorem inexact_eq_false_iff (d : F64) (rc : Rounding) :
    inexact d rc = false ↔ singleScaled (singleBits d rc) = exactScaled d := by
  rw [inexact, decide_eq_false_iff_not, not_not]

/-- The largest finite single as a double. -/
theorem scaled_largest : scaled 52 ((1151 * 2 ^ 23 - 1) * 2 ^ 29) = singleScaled (255 * 2 ^ 23 - 1) :=
  scaled_single (by decide)

/-- Overflow begins above the largest finite single. -/
theorem largest_lt_of_overflows {d : F64} {rc : Rounding} (h : Overflows d rc) :
    singleScaled (255 * 2 ^ 23 - 1) < exactScaled d := by
  have hle := (overflows_iff d rc).1 h
  rw [← scaled_largest, exactScaled_eq]
  refine scaled_strictMono 52 ?_
  split_ifs at hle <;> omega

/-- A value that a finite single has does not overflow. -/
theorem not_overflows_of_exact {d : F64} {m : Nat} (hm : m < 255 * 2 ^ 23) (h : singleScaled m = exactScaled d)
    (rc : Rounding) : ¬Overflows d rc := fun ho => by
  have hle : singleScaled m ≤ singleScaled (255 * 2 ^ 23 - 1) := singleScaled_strictMono.monotone (by omega)
  have hlt := largest_lt_of_overflows ho
  omega

theorem f32Magnitude_packF32_singleBits {d : F64} {rc : Rounding} (s : Bool) (h : ¬Overflows d rc) :
    f32Magnitude (packF32 s (singleBits d rc)) = singleBits d rc := by
  have := singleBits_lt h
  exact packF32_magnitude s (by omega)

theorem isFinite32_packF32 (s : Bool) {n : Nat} (h : n < 255 * 2 ^ 23) : isFinite32 (packF32 s n) = true := by
  rw [isFinite32_iff, packF32_magnitude s (by omega)]
  exact h

/-! ### Rounding to nearest and in a direction (R109, R113) -/

theorem om_and_um_of_allMasked {c : Ctx} (h : c.allMasked = true) : c.om = true ∧ c.um = true := by
  simp only [Ctx.allMasked, Bool.and_eq_true] at h
  obtain ⟨⟨⟨-, hom⟩, hum⟩, -⟩ := h
  exact ⟨hom, hum⟩

/-- Settles O54: of the two singles around the value the nearer is taken, in the middle the one with the even last place;
every other single is farther off. -/
theorem nearestIsNearestEven : Obligations.NearestIsNearestEven := by
  intro d c y hmask hrc hftz hdaz hlt _ r
  obtain ⟨-, hum⟩ := om_and_um_of_allMasked hmask
  have ho : ¬Overflows d c.rc := by
    rw [overflows_iff, if_pos hrc]
    exact Nat.not_le.2 hlt
  have hr : r = packF32 (f64Sign d) (singleBits d c.rc) := by
    simp only [r, cvt_of_not_overflows hdaz hum hftz ho]
  obtain ⟨lo, rem, gap, ⟨hrem, hvalue, hnext⟩, hbits⟩ := exists_brackets d
  have hside := singleScaled_le_or_le lo (f32Magnitude y)
  have hbits := hbits c.rc
  rw [hr, f32Scaled_eq, f32Scaled_eq, f32Magnitude_packF32_singleBits _ ho, packF32_getLsbD_zero]
  rw [roundsUp, if_pos hrc] at hbits
  simp only [distance, decide_eq_false_iff_not]
  by_cases hup : gap < 2 * rem ∨ 2 * rem = gap ∧ lo % 2 = 1
  · rw [decide_eq_true hup, Bool.toNat_true] at hbits
    rw [hbits]
    omega
  · rw [decide_eq_false hup, Bool.toNat_false, Nat.add_zero] at hbits
    rw [hbits]
    omega

/-- Toward zero the masked overflow response is the largest finite single (the table of R110). -/
theorem overflowMagnitude_toward_zero {rc : Rounding} {s : Bool} (hrc : rc ≠ .nearest) (h : roundsAway rc s = false) :
    overflowMagnitude rc s = 255 * 2 ^ 23 - 1 := by
  cases rc with
  | nearest => exact absurd rfl hrc
  | down =>
    cases s with
    | false => rfl
    | true => cases h
  | up =>
    cases s with
    | false => cases h
    | true => rfl
  | zero => rfl

/-- Settles O55: toward zero the single below the value is taken, away from zero the one above, and no single lies between
them. -/
theorem directedRoundingIsTight : Obligations.DirectedRoundingIsTight := by
  intro d c y hmask hrc hftz hfin hdaz hy r
  obtain ⟨hom, hum⟩ := om_and_um_of_allMasked hmask
  obtain ⟨lo, rem, gap, ⟨hrem, hvalue, hnext⟩, hbits⟩ := exists_brackets d
  have hside := singleScaled_le_or_le lo (f32Magnitude y)
  have hbits := hbits c.rc
  rw [roundsUp, if_neg hrc] at hbits
  rw [isFinite32_iff] at hy
  refine ⟨fun haway => ?_, fun haway hle => ?_⟩
  · rw [haway, Bool.and_false, Bool.toNat_false, Nat.add_zero] at hbits
    by_cases ho : Overflows d c.rc
    · have hr : r = packF32 (f64Sign d) (255 * 2 ^ 23 - 1) := by
        simp only [r, cvt_of_overflows hfin ho, cvtOverflow_masked hom, overflowMagnitude_toward_zero hrc haway]
      have hbelow := largest_lt_of_overflows ho
      have hmax : singleScaled (f32Magnitude y) ≤ singleScaled (255 * 2 ^ 23 - 1) :=
        singleScaled_strictMono.monotone (by omega)
      rw [hr, f32Scaled_eq, f32Scaled_eq, packF32_magnitude _ (by decide)]
      exact ⟨isFinite32_packF32 _ (by decide), hbelow.le, fun _ => hmax⟩
    · have hr : r = packF32 (f64Sign d) (singleBits d c.rc) := by
        simp only [r, cvt_of_not_overflows hdaz hum hftz ho]
      rw [hr, f32Scaled_eq, f32Scaled_eq, f32Magnitude_packF32_singleBits _ ho]
      refine ⟨isFinite32_packF32 _ (singleBits_lt ho), ?_, fun _ => ?_⟩ <;> rw [hbits] <;> omega
  · have ho : ¬Overflows d c.rc := by
      rw [overflows_iff, if_neg hrc, if_pos haway]
      omega
    have hr : r = packF32 (f64Sign d) (singleBits d c.rc) := by
      simp only [r, cvt_of_not_overflows hdaz hum hftz ho]
    rw [hr, f32Scaled_eq, f32Scaled_eq, f32Magnitude_packF32_singleBits _ ho]
    rw [haway, Bool.and_true] at hbits
    refine ⟨isFinite32_packF32 _ (singleBits_lt ho), ?_⟩
    by_cases hzero : rem = 0
    · rw [decide_eq_false (not_not.2 hzero), Bool.toNat_false, Nat.add_zero] at hbits
      rw [hbits]
      omega
    · rw [decide_eq_true hzero, Bool.toNat_true] at hbits
      rw [hbits]
      omega

/-! ### Exact results (R121) -/

/-- Settles O56: an exact result is the single that has the value, in every direction; what overflows is above all of
them. -/
theorem precisionFlagMeansInexact : Obligations.PrecisionFlagMeansInexact := by
  intro d c hmask hftz hfin hdaz
  obtain ⟨hom, hum⟩ := om_and_um_of_allMasked hmask
  by_cases ho : Overflows d c.rc
  · have hpe : (cvtF64ToF32 d c).post.pe = true := by rw [cvt_of_overflows hfin ho, cvtOverflow_masked hom]
    rw [hpe]
    refine ⟨⟨nofun, fun ⟨y, hy, hval⟩ => ?_⟩, nofun⟩
    rw [f32Scaled_eq] at hval
    exact absurd ho (not_overflows_of_exact ((isFinite32_iff y).1 hy) hval c.rc)
  · have hlt := singleBits_lt ho
    have hpe : (cvtF64ToF32 d c).post.pe = inexact d c.rc := by rw [cvt_of_not_overflows hdaz hum hftz ho]
    rw [hpe, inexact_eq_false_iff]
    refine ⟨⟨fun h => ?_, fun ⟨y, _, hval⟩ => ?_⟩, fun h rc => ?_⟩
    · refine ⟨packF32 false (singleBits d c.rc), isFinite32_packF32 false hlt, ?_⟩
      rw [f32Scaled_eq, f32Magnitude_packF32_singleBits false ho, h]
    · rw [f32Scaled_eq] at hval
      rw [singleBits_of_exact hval, hval]
    · have ho' := not_overflows_of_exact hlt h rc
      rw [cvt_of_not_overflows (c := { c with rc := rc }) hdaz hum hftz ho', cvt_of_not_overflows hdaz hum hftz ho]
      dsimp only
      rw [singleBits_of_exact h]

end Sys2Proof.Machine
end

section
/-!
The result of every source with Overflow and Underflow masked, by its magnitude bits: it is non-decreasing (O53), and its sign,
kind and flags are few (O57). The exact double image of a single (O52).
-/

namespace Sys2Proof.Machine

/-! ### The masked result (R107 to R112) -/

/-- The magnitude bits of the result with Overflow and Underflow masked. -/
def maskedMagnitude (d : F64) (c : Ctx) : Nat :=
  if 2047 * 2 ^ 52 ≤ f64Magnitude d then 255 * 2 ^ 23
  else if f64Exp d = 0 ∧ c.daz = true then 0
  else if Overflows d c.rc then overflowMagnitude c.rc (f64Sign d)
  else if Tiny d c.rc ∧ c.ftz = true then 0
  else singleBits d c.rc

theorem cvt_r_of_masked {d : F64} {c : Ctx} (hnan : isNaN64 d = false) (hom : c.om = true) (hum : c.um = true) :
    (cvtF64ToF32 d c).r = packF32 (f64Sign d) (maskedMagnitude d c) := by
  unfold maskedMagnitude
  split_ifs with hinf hflush ho hftz
  · obtain h | h | h := double_cases d
    · rw [hnan] at h
      cases h
    · exact congrArg Converted.r (cvt_of_infinite h c)
    · exact absurd hinf (Nat.not_le.2 ((isFinite64_iff d).1 h))
  · rw [cvt_of_flushed hflush.1 hflush.2]
  · rw [cvt_of_overflows ((isFinite64_iff d).2 (Nat.not_le.1 hinf)) ho, cvtOverflow_masked hom]
  · obtain ⟨ht, hftz⟩ := hftz
    by_cases h0 : f64Magnitude d = 0
    · rw [cvt_of_zero h0]
    · rw [not_and_or, Bool.not_eq_true] at hflush
      rw [cvt_of_tiny h0 hflush ht, cvtTiny_flushed hum hftz]
  · rw [not_and_or, Bool.not_eq_true] at hflush
    by_cases ht : Tiny d c.rc
    · have hftz' : c.ftz = false := Bool.eq_false_iff.2 fun h => hftz ⟨ht, h⟩
      rw [cvt_of_not_overflows hflush hum hftz' ho]
    · rw [cvt_of_normal ht ho, singleBits_of_not_tiny ht]

theorem overflowMagnitude_bounds (rc : Rounding) (s : Bool) :
    255 * 2 ^ 23 - 1 ≤ overflowMagnitude rc s ∧ overflowMagnitude rc s ≤ 255 * 2 ^ 23 := by
  cases rc <;> cases s <;> decide

/-- A finite source gives no more than an overflow. -/
theorem maskedMagnitude_le_overflowMagnitude {d : F64} (h : f64Magnitude d < 2047 * 2 ^ 52) (c : Ctx) :
    maskedMagnitude d c ≤ overflowMagnitude c.rc (f64Sign d) := by
  obtain ⟨hover, -⟩ := overflowMagnitude_bounds c.rc (f64Sign d)
  rw [maskedMagnitude, if_neg (Nat.not_le.2 h)]
  split_ifs with _ ho
  · omega
  · exact le_rfl
  · omega
  · have := singleBits_lt ho
    omega

/-- At most infinity, so never a NaN. -/
theorem maskedMagnitude_le (d : F64) (c : Ctx) : maskedMagnitude d c ≤ 255 * 2 ^ 23 := by
  obtain h | h := Nat.lt_or_ge (f64Magnitude d) (2047 * 2 ^ 52)
  · obtain ⟨-, hover⟩ := overflowMagnitude_bounds c.rc (f64Sign d)
    exact (maskedMagnitude_le_overflowMagnitude h c).trans hover
  · rw [maskedMagnitude, if_pos h]

theorem maskedMagnitude_of_flushed {d : F64} {c : Ctx} (h : f64Exp d = 0 ∧ c.daz = true) : maskedMagnitude d c = 0 := by
  have hfin : ¬2047 * 2 ^ 52 ≤ f64Magnitude d := by
    obtain ⟨hexp, -⟩ := h
    rw [f64Exp_eq] at hexp
    omega
  rw [maskedMagnitude, if_neg hfin, if_pos h]

theorem maskedMagnitude_of_tiny {d : F64} {c : Ctx} (ht : Tiny d c.rc) (hftz : c.ftz = true) :
    maskedMagnitude d c = 0 := by
  have hlt := f64Magnitude_lt_of_tiny ht
  have ho : ¬Overflows d c.rc := fun ho => not_tiny_of_overflows ho ht
  have hflushed : Tiny d c.rc ∧ c.ftz = true := ⟨ht, hftz⟩
  rw [maskedMagnitude, if_neg (by omega), if_neg ho, if_pos hflushed, ite_self]

theorem maskedMagnitude_le_singleBits {d : F64} {c : Ctx} (ho : ¬Overflows d c.rc) :
    maskedMagnitude d c ≤ singleBits d c.rc := by
  have hlt := f64Magnitude_lt_of_not_overflows ho
  rw [maskedMagnitude, if_neg (by omega), if_neg ho]
  split_ifs
  · exact Nat.zero_le _
  · exact Nat.zero_le _
  · exact le_rfl

/-- With FTZ no result is a denormal (R112). -/
theorem maskedMagnitude_of_ftz {c : Ctx} (hftz : c.ftz = true) (d : F64) :
    maskedMagnitude d c = 0 ∨ 2 ^ 23 ≤ maskedMagnitude d c := by
  by_cases ht : Tiny d c.rc
  · exact .inl (maskedMagnitude_of_tiny ht hftz)
  · obtain ⟨hover, -⟩ := overflowMagnitude_bounds c.rc (f64Sign d)
    have hle := le_singleBits_of_not_tiny ht
    unfold maskedMagnitude
    split_ifs <;> omega

theorem f32Magnitude_masked (s : Bool) (d : F64) (c : Ctx) :
    f32Magnitude (packF32 s (maskedMagnitude d c)) = maskedMagnitude d c := by
  have := maskedMagnitude_le d c
  exact packF32_magnitude s (by omega)

/-! ### Monotonicity (R121) -/

theorem roundedBits_mono {d e : F64} (hs : f64Sign d = f64Sign e) (h : f64Magnitude d ≤ f64Magnitude e)
    (rc : Rounding) : roundedBits d rc ≤ roundedBits e rc := by
  rw [roundedBits, roundedBits, hs]
  exact roundInt_mono (by decide) h rc (f64Sign e)

theorem singleBits_mono {d e : F64} (hs : f64Sign d = f64Sign e) (h : f64Magnitude d ≤ f64Magnitude e)
    (rc : Rounding) : singleBits d rc ≤ singleBits e rc := by
  have hbits := roundedBits_mono hs h rc
  by_cases hte : Tiny e rc
  · have hval : exactScaled d ≤ exactScaled e := by
      rw [exactScaled_eq, exactScaled_eq]
      exact (scaled_strictMono 52).monotone h
    rw [singleBits_of_tiny hte, singleBits_of_tiny (hbits.trans_lt hte), hs]
    exact roundInt_mono lastPlace_pos hval rc (f64Sign e)
  · by_cases htd : Tiny d rc
    · exact (singleBits_le_of_tiny htd).trans (le_singleBits_of_not_tiny hte)
    · rw [singleBits_of_not_tiny hte, singleBits_of_not_tiny htd]
      omega

/-- For one sign the masked result grows with the source. -/
theorem maskedMagnitude_mono {d e : F64} (hs : f64Sign d = f64Sign e) (h : f64Magnitude d ≤ f64Magnitude e) (c : Ctx) :
    maskedMagnitude d c ≤ maskedMagnitude e c := by
  have hbits := roundedBits_mono hs h c.rc
  rw [maskedMagnitude.eq_def e]
  split_ifs with hinf hflush ho hftz
  · exact maskedMagnitude_le d c
  · obtain ⟨hexp, hdaz⟩ := hflush
    have hexp' : f64Exp d = 0 := by
      rw [f64Exp_eq] at hexp ⊢
      exact Nat.eq_zero_of_le_zero (hexp ▸ Nat.div_le_div_right h)
    rw [maskedMagnitude_of_flushed ⟨hexp', hdaz⟩]
  · rw [← hs]
    exact maskedMagnitude_le_overflowMagnitude (by omega) c
  · obtain ⟨ht, hftz⟩ := hftz
    rw [maskedMagnitude_of_tiny (hbits.trans_lt ht) hftz]
  · have ho' : ¬Overflows d c.rc := fun ho' => ho (ho'.trans hbits)
    exact (maskedMagnitude_le_singleBits ho').trans (singleBits_mono hs h c.rc)

theorem maskedMagnitude_of_zero {d : F64} (h : f64Magnitude d = 0) (c : Ctx) : maskedMagnitude d c = 0 := by
  have ho : ¬Overflows d c.rc := fun ho => f64Magnitude_ne_zero_of_not_tiny (not_tiny_of_overflows ho) h
  obtain ⟨hbits, -⟩ := singleBits_of_zero h c.rc
  exact Nat.eq_zero_of_le_zero ((maskedMagnitude_le_singleBits ho).trans_eq hbits)

theorem f64Key_eq (d : F64) : f64Key d = if f64Sign d then -(f64Magnitude d : Int) else f64Magnitude d := rfl

theorem f32Key_masked (s : Bool) (d : F64) (c : Ctx) :
    f32Key (packF32 s (maskedMagnitude d c)) =
      if s then -(maskedMagnitude d c : Int) else maskedMagnitude d c := by
  rw [f32Key, packF32_sign, ← f32Magnitude, f32Magnitude_masked]

/-- Settles O53: for one sign the magnitude is monotone, and the sign is kept. -/
theorem conversionIsMonotone : Obligations.ConversionIsMonotone := by
  intro d e c hmask hd he hkey
  obtain ⟨hom, hum⟩ := om_and_um_of_allMasked hmask
  rw [cvt_r_of_masked hd hom hum, cvt_r_of_masked he hom hum, f32Key_masked, f32Key_masked]
  rw [f64Key_eq, f64Key_eq] at hkey
  cases hsd : f64Sign d <;> cases hse : f64Sign e <;>
    simp only [hsd, hse, if_true, Bool.false_eq_true, if_false] at hkey ⊢
  case false.false =>
    have := maskedMagnitude_mono (hsd.trans hse.symm) (by omega) c
    omega
  case false.true =>
    rw [maskedMagnitude_of_zero (d := d) (by omega), maskedMagnitude_of_zero (d := e) (by omega)]
    exact le_rfl
  case true.false => omega
  case true.true =>
    have := maskedMagnitude_mono (hse.trans hsd.symm) (by omega) c
    omega

/-! ### Sign, kind and flags (R121) -/

/-- The NaN delivered, by its sign and magnitude (R106). -/
theorem cvtNaN_r (d : F64) :
    (cvtNaN d).r = packF32 (f64Sign d) (255 * 2 ^ 23 + 2 ^ 22 + f64Magnitude d / 2 ^ 29 % 2 ^ 22) := by
  have hmod := Nat.mod_lt (f64Magnitude d / 2 ^ 29) (y := 2 ^ 22) (by decide)
  refine BitVec.eq_of_toNat_eq ?_
  rw [packF32_toNat _ (by omega), f64Magnitude_toNat]
  simp only [cvtNaN, toNat_append_add, BitVec.toNat_ofBool, BitVec.extractLsb'_toNat, Nat.shiftRight_eq_div_pow,
    BitVec.toNat_ofNat]
  omega

theorem cvtNaN_magnitude (d : F64) :
    f32Magnitude (cvtNaN d).r = 255 * 2 ^ 23 + 2 ^ 22 + f64Magnitude d / 2 ^ 29 % 2 ^ 22 := by
  have hmod := Nat.mod_lt (f64Magnitude d / 2 ^ 29) (y := 2 ^ 22) (by decide)
  rw [cvtNaN_r, packF32_magnitude _ (by omega)]

/-- The flags that one lane can signal with Overflow and Underflow masked (R121 item 6). -/
def laneFlags : List FpFlags :=
  [noFlags, ⟨true, false, false, false, false⟩, ⟨false, false, false, false, true⟩,
   ⟨false, false, true, false, true⟩, ⟨false, false, false, true, true⟩, ⟨false, true, false, true, true⟩]

theorem cvt_flags_of_masked (d : F64) {c : Ctx} (hom : c.om = true) (hum : c.um = true) :
    (cvtF64ToF32 d c).pre.union (cvtF64ToF32 d c).post ∈ laneFlags := by
  obtain hnan | hinf | hfin := double_cases d
  · rw [cvt_of_nan hnan]
    dsimp only [cvtNaN]
    cases d.getLsbD 51 <;> decide
  · rw [cvt_of_infinite hinf]
    dsimp only
    decide
  obtain ho | ⟨ht, ho⟩ | ⟨ht, h0, hdaz⟩ | hz := finite_cases d c
  · rw [cvt_of_overflows hfin ho, cvtOverflow_masked hom]
    dsimp only
    decide
  · rw [cvt_of_normal ht ho]
    dsimp only
    cases decide (f64Magnitude d % 2 ^ 29 ≠ 0) <;> decide
  · by_cases hexp : f64Exp d = 0
    · have hfrac : f64Frac d ≠ 0 := by
        rw [f64Exp_eq] at hexp
        rw [f64Frac_eq]
        omega
      obtain ⟨-, -, hden⟩ := denormalConversion d c hexp hfrac
      rw [hden (hdaz.resolve_left (not_not.2 hexp)) hum]
      dsimp only
      decide
    · rw [cvt_of_tiny h0 hdaz ht, decide_eq_false hexp]
      cases hftz : c.ftz with
      | true =>
        rw [cvtTiny_flushed hum hftz]
        dsimp only
        decide
      | false =>
        rw [cvtTiny_rounded hum hftz]
        dsimp only
        cases (roundInt (exactScaled d) lastPlace c.rc (f64Sign d)).2 <;> decide
  · rw [cvt_of_zero_or_flushed hz]
    dsimp only
    decide

/-- Settles O57: a NaN is quieted; every other result is its sign and a magnitude up to infinity. -/
theorem signKindAndFlagsOfResult : Obligations.SignKindAndFlagsOfResult := by
  intro d c hom hum x
  have hflags := cvt_flags_of_masked d hom hum
  cases hnan : isNaN64 d with
  | true =>
    have hx : x = cvtNaN d := cvt_of_nan hnan c
    have hmag := cvtNaN_magnitude d
    rw [← hx] at hmag
    refine ⟨?_, ?_, fun _ => ?_, hflags⟩
    · rw [hx, cvtNaN_r, packF32_sign]
      rfl
    · refine Bool.eq_false_iff.2 fun h => ?_
      rw [isSNaN32_iff] at h
      omega
    · refine Bool.eq_false_iff.2 fun h => ?_
      rw [isDenormal32_iff] at h
      omega
  | false =>
    have hx : x.r = packF32 (f64Sign d) (maskedMagnitude d c) := cvt_r_of_masked hnan hom hum
    have hmag := f32Magnitude_masked (f64Sign d) d c
    rw [← hx] at hmag
    refine ⟨?_, ?_, fun hftz => ?_, hflags⟩
    · rw [hx, packF32_sign]
      rfl
    · have hle := maskedMagnitude_le d c
      refine Bool.eq_false_iff.2 fun h => ?_
      rw [isSNaN32_iff] at h
      omega
    · have hnormal := maskedMagnitude_of_ftz hftz d
      refine Bool.eq_false_iff.2 fun h => ?_
      rw [isDenormal32_iff] at h
      omega

/-! ### The double image of a single (R121) -/

theorem f64Sign_widenF32 (x : F32) : f64Sign (widenF32 x) = x.getLsbD 31 := by
  have hd : f64Sign (widenF32 x) = decide ((widenF32 x).toNat / 2 ^ 63 % 2 = 1) := Nat.testBit_eq_decide_div_mod_eq
  have hx : x.getLsbD 31 = decide (x.toNat / 2 ^ 31 % 2 = 1) := Nat.testBit_eq_decide_div_mod_eq
  rw [hd, hx, decide_eq_decide]
  unfold widenF32
  split_ifs
  all_goals
    simp only [toNat_append_add, BitVec.extractLsb'_toNat, Nat.shiftRight_eq_div_pow, BitVec.toNat_ofNat]
    omega

/-- Infinities and NaNs, with the larger bias of the exponent. -/
theorem f64Magnitude_widenF32_of_not_finite {x : F32} (h : f32Exp x = 255) :
    f64Magnitude (widenF32 x) = (f32Magnitude x + 1792 * 2 ^ 23) * 2 ^ 29 := by
  have hexp := f32Exp_eq x
  rw [widenF32, if_pos h, f64Magnitude_toNat]
  rw [f32Magnitude_toNat] at hexp ⊢
  simp only [toNat_append_add, BitVec.extractLsb'_toNat, Nat.shiftRight_eq_div_pow, BitVec.toNat_ofNat]
  omega

theorem f64Magnitude_widenF32_of_normal {x : F32} (h255 : f32Exp x ≠ 255) (h0 : f32Exp x ≠ 0) :
    f64Magnitude (widenF32 x) = (f32Magnitude x + 896 * 2 ^ 23) * 2 ^ 29 := by
  have hlt := f32Magnitude_lt x
  have hexp := f32Exp_eq x
  rw [widenF32, if_neg h255, if_pos h0, f64Magnitude_toNat]
  rw [f32Magnitude_toNat] at hexp hlt ⊢
  simp only [toNat_append_add, BitVec.extractLsb'_toNat, Nat.shiftRight_eq_div_pow, BitVec.toNat_ofNat]
  omega

theorem f64Magnitude_widenF32_of_zero {x : F32} (h : f32Magnitude x = 0) : f64Magnitude (widenF32 x) = 0 := by
  have hexp : f32Exp x = 0 := by rw [f32Exp_eq, h, Nat.zero_div]
  have hfrac : f32Frac x = 0 := by rw [f32Frac_eq, h, Nat.zero_mod]
  rw [widenF32, if_neg (by omega), if_neg (not_not.2 hexp), if_pos hfrac, f64Magnitude_toNat, toNat_append_add]
  simp

/-- A denormal single is a normal double: its leading bit becomes the hidden one. -/
theorem f64Magnitude_widenF32_of_denormal {x : F32} (h0 : f32Magnitude x ≠ 0) (h : f32Magnitude x < 2 ^ 23) :
    ∃ l f, l < 23 ∧ f < 2 ^ 52 ∧ f64Magnitude (widenF32 x) = (l + 873 + 1) * 2 ^ 52 + f ∧
      2 ^ 52 + f = f32Magnitude x * 2 ^ (52 - l) := by
  have hexp : f32Exp x = 0 := by rw [f32Exp_eq, Nat.div_eq_of_lt h]
  have hfrac : f32Frac x = f32Magnitude x := by rw [f32Frac_eq, Nat.mod_eq_of_lt h]
  have hlog : (f32Magnitude x).log2 < 23 := (Nat.log2_lt h0).2 h
  have hlo := Nat.mul_le_mul_right (2 ^ (52 - (f32Magnitude x).log2)) (Nat.log2_self_le h0)
  have hhi := Nat.mul_lt_mul_of_pos_right (Nat.lt_log2_self (n := f32Magnitude x))
    (Nat.two_pow_pos (52 - (f32Magnitude x).log2))
  rw [← Nat.pow_add, Nat.add_sub_cancel' (by omega)] at hlo
  rw [← Nat.pow_add, show (f32Magnitude x).log2 + 1 + (52 - (f32Magnitude x).log2) = 53 by omega] at hhi
  refine ⟨(f32Magnitude x).log2, f32Magnitude x * 2 ^ (52 - (f32Magnitude x).log2) - 2 ^ 52, hlog, by omega, ?_,
    by omega⟩
  rw [widenF32, if_neg (by omega), if_neg (not_not.2 hexp), hfrac, if_neg h0, f64Magnitude_toNat]
  simp only [toNat_append_add, BitVec.extractLsb'_toNat, BitVec.toNat_ofNat]
  omega

/-- The double image of a finite single has its value, and is no denormal. -/
theorem widenF32_of_finite {x : F32} (h : isFinite32 x = true) :
    exactScaled (widenF32 x) = singleScaled (f32Magnitude x) ∧
      (f64Magnitude (widenF32 x) = 0 ∧ f32Magnitude x = 0 ∨ f64Exp (widenF32 x) ≠ 0) := by
  rw [isFinite32_iff] at h
  have hexp := f32Exp_eq x
  obtain hlt | hge := Nat.lt_or_ge (f32Magnitude x) (2 ^ 23)
  · by_cases h0 : f32Magnitude x = 0
    · have hzero := f64Magnitude_widenF32_of_zero h0
      refine ⟨?_, .inl ⟨hzero, h0⟩⟩
      rw [exactScaled_eq, hzero, h0, singleScaled_of_le (by decide), Nat.zero_mul]
      rfl
    · obtain ⟨l, f, hl, hf, hm, hval⟩ := f64Magnitude_widenF32_of_denormal h0 hlt
      refine ⟨?_, .inr ?_⟩
      · rw [exactScaled_eq, hm, scaled_of_normal 52 _ hf, hval, singleScaled_of_le hlt.le, Nat.mul_assoc,
          ← Nat.pow_add, two_pow_eq_lastPlace (by omega)]
      · rw [f64Exp_eq, hm]
        omega
  · have hm := f64Magnitude_widenF32_of_normal (x := x) (by omega) (by omega)
    refine ⟨?_, .inr ?_⟩
    · rw [exactScaled_eq, hm, scaled_single (by omega), Nat.add_sub_cancel]
    · rw [f64Exp_eq, hm]
      omega

/-- A finite single comes back from its image: the image is exact, and no denormal that DAZ could flush. -/
theorem cvt_widenF32_of_finite {x : F32} {c : Ctx} (hfin : isFinite32 x = true) (hum : c.um = true)
    (hftz : c.ftz = false) : cvtF64ToF32 (widenF32 x) c = ⟨x, noFlags, noFlags⟩ := by
  have hself := packF32_eq_self x
  obtain ⟨hval, ⟨hzero, hx0⟩ | hexp⟩ := widenF32_of_finite hfin
  · rw [cvt_of_zero hzero, f64Sign_widenF32, ← hx0, hself]
  · have ho := not_overflows_of_exact ((isFinite32_iff x).1 hfin) hval.symm c.rc
    have hbits := singleBits_of_exact hval.symm c.rc
    have hexact : inexact (widenF32 x) c.rc = false := by rw [inexact_eq_false_iff, hbits, hval]
    rw [cvt_of_not_overflows (.inl hexp) hum hftz ho, hbits, hexact, f64Sign_widenF32, hself,
      decide_eq_false (fun h => hexp h.1), Bool.and_false]
    rfl

/-- A quiet NaN has its quiet bit already, and its payload fits. -/
theorem cvt_widenF32_of_quiet {x : F32} (h : 255 * 2 ^ 23 + 2 ^ 22 ≤ f32Magnitude x) (c : Ctx) :
    cvtF64ToF32 (widenF32 x) c = ⟨x, noFlags, noFlags⟩ := by
  have hlt := f32Magnitude_lt x
  have hexp : f32Exp x = 255 := by
    rw [f32Exp_eq]
    omega
  have hm := f64Magnitude_widenF32_of_not_finite hexp
  have hnan : isNaN64 (widenF32 x) = true := by
    rw [isNaN64_iff]
    omega
  have hbit : (widenF32 x).getLsbD 51 = true := by
    have hmod : (widenF32 x).getLsbD 51 = decide ((widenF32 x).toNat / 2 ^ 51 % 2 = 1) :=
      Nat.testBit_eq_decide_div_mod_eq
    rw [f64Magnitude_toNat] at hm
    rw [hmod, decide_eq_true_iff]
    omega
  have hpre : (cvtNaN (widenF32 x)).pre = noFlags := by
    simp only [cvtNaN, hbit, noFlags, Bool.not_true]
  have hmag : 255 * 2 ^ 23 + 2 ^ 22 + f64Magnitude (widenF32 x) / 2 ^ 29 % 2 ^ 22 = f32Magnitude x := by omega
  have hr : (cvtNaN (widenF32 x)).r = x := by
    rw [cvtNaN_r, hmag, f64Sign_widenF32, packF32_eq_self]
  rw [cvt_of_nan hnan]
  exact congrArg₂ (Converted.mk · · noFlags) hr hpre

/-- Infinity is the image of infinity. -/
theorem cvt_widenF32_of_infinite {x : F32} (h : f32Magnitude x = 255 * 2 ^ 23) (c : Ctx) :
    cvtF64ToF32 (widenF32 x) c = ⟨x, noFlags, noFlags⟩ := by
  have hexp : f32Exp x = 255 := by
    rw [f32Exp_eq, h]
    rfl
  have hd : f64Magnitude (widenF32 x) = 2047 * 2 ^ 52 := by
    rw [f64Magnitude_widenF32_of_not_finite hexp, h]
    decide
  have hself := packF32_eq_self x
  rw [h] at hself
  rw [cvt_of_infinite hd, f64Sign_widenF32]
  exact congrArg (Converted.mk · noFlags noFlags) hself

/-- Settles O52: a single that is not a signalling NaN is finite, infinite or a quiet NaN. -/
theorem roundTripThroughDouble : Obligations.RoundTripThroughDouble := by
  intro x c hsnan hum hftz
  obtain h | h | h :
      f32Magnitude x < 255 * 2 ^ 23 ∨ f32Magnitude x = 255 * 2 ^ 23 ∨ 255 * 2 ^ 23 + 2 ^ 22 ≤ f32Magnitude x := by
    have hnot := mt (isSNaN32_iff x).2 (by rw [hsnan]; exact Bool.false_ne_true)
    omega
  · exact cvt_widenF32_of_finite ((isFinite32_iff x).2 h) hum hftz
  · exact cvt_widenF32_of_infinite h c
  · exact cvt_widenF32_of_quiet h c

end Sys2Proof.Machine
end

section
/-!
The write-back of the legacy form, which keeps the bits above 127 (41_cvtpd2ps_legacy_sse.md R130 step 6, R131), and with
it what a completed legacy instruction leaves behind (O15).
-/

namespace Sys2Proof

/-- Every MAXVL holds the 128 bits that the legacy form replaces (R6). -/
theorem MaxVL.le_bits (v : MaxVL) : 128 ≤ v.bits := by
  cases v <;> decide

end Sys2Proof

namespace Sys2Proof.Machine

/-! ### The written value, bit by bit (R130 step 6) -/

/-- Bits 127:0 come from the elements written, the bits above from the old value. -/
theorem writeBack_legacy_getLsbD (old : Vec) (z : Bool) {rs : List (Option F32)} (hrs : rs.length ≤ 4) (k : Nat) :
    (writeBack .legacy old z rs).getLsbD k =
      if k < 128 then (ofLanes (mergeLanes old z rs)).getLsbD k else old.getLsbD k := by
  simp only [writeBack, BitVec.getLsbD_or, BitVec.getLsbD_shiftLeft, BitVec.getLsbD_ushiftRight]
  split
  next hk => simp [hk]
  next hk =>
    rw [ofLanes_getLsbD_above _ k (by rw [mergeLanes_length]; omega), show 128 + (k - 128) = k by omega]
    by_cases h512 : k < 512
    · simp [hk, h512]
    · simp [h512, BitVec.getLsbD_of_ge old k (by omega)]

/-- Two elements leave bits 127:64 zero. -/
theorem writeBack_legacy_extractLsb' (old : Vec) (z : Bool) {rs : List (Option F32)} (hrs : rs.length = 2) :
    (writeBack .legacy old z rs).extractLsb' 64 64 = 0#64 := by
  refine BitVec.eq_of_getLsbD_eq fun k hk => ?_
  rw [BitVec.getLsbD_extractLsb', writeBack_legacy_getLsbD old z (by omega), if_pos (by omega),
    ofLanes_getLsbD_above _ _ (by rw [mergeLanes_length]; omega), Bool.and_false, BitVec.getLsbD_zero]

/-- The bits above 127 keep their value. -/
theorem writeBack_legacy_ushiftRight (old : Vec) (z : Bool) {rs : List (Option F32)} (hrs : rs.length ≤ 4) :
    writeBack .legacy old z rs >>> 128 = old >>> 128 := by
  refine BitVec.eq_of_getLsbD_eq fun k _ => ?_
  rw [BitVec.getLsbD_ushiftRight, BitVec.getLsbD_ushiftRight, writeBack_legacy_getLsbD old z hrs, if_neg (by omega)]

/-! ### The destination of a form without a write mask -/

/-- A register reads as no more than MAXVL bits. -/
@[simp] theorem readZmm_and_mask (s : State) (n : Fin 32) : s.readZmm n &&& s.cfg.maxvl.mask = s.readZmm n := by
  rw [State.readZmm, BitVec.and_assoc, BitVec.and_self]

/-- Without a write mask every lane is active: the legacy and VEX forms. -/
theorem activeLane_of_not_isEvex {i : Instr} (h : i.form.isEvex = false) (s : State) (j : Nat) :
    i.activeLane s j = true := by
  obtain hevex | haaa := isEvex_or_unmasked i
  · rw [h] at hevex
    cases hevex
  · exact (active_iff s i.aaa j).2 (.inl haaa)

/-- The elements of the destination of the legacy and VEX forms are the conversions. -/
theorem lane32_nextState_of_not_isEvex {i : Instr} {s : State} {j : Nat} (h : i.form.isEvex = false)
    (hj : j < i.form.kl) (hw : 32 * i.form.kl ≤ s.cfg.maxvl.bits) :
    lane32 ((nextState i s).readZmm i.dst) j = (i.lane s j).r := by
  rw [lane32_nextState i s j hj hw, if_pos (activeLane_of_not_isEvex h s j)]

/-! ### The legacy form -/

/-- An instruction writes `KL` elements (R12). -/
theorem convertedLanes_sourceLanes_length (c : Ctx) (i : Instr) (s : State) :
    (convertedLanes c (sourceLanes i s)).length = i.form.kl := by
  rw [convertedLanes_length, sourceLanes, activeLanes_length]

/-- Bits 63:0 of the destination are the two conversions, bits 127:64 are zero, the bits above keep their value. -/
theorem nextState_elements_of_legacy {i : Instr} (h : i.form = .legacy) (s : State) :
    lane32 ((nextState i s).readZmm i.dst) 0 = (i.lane s 0).r ∧
    lane32 ((nextState i s).readZmm i.dst) 1 = (i.lane s 1).r ∧
    ((nextState i s).readZmm i.dst).extractLsb' 64 64 = 0#64 ∧
    (nextState i s).readZmm i.dst >>> 128 = s.readZmm i.dst >>> 128 := by
  have hevex : i.form.isEvex = false := by rw [h]; rfl
  have hkl : i.form.kl = 2 := by rw [h]; rfl
  have hv := s.cfg.maxvl.le_bits
  have hlane : ∀ j, j < 2 → lane32 ((nextState i s).readZmm i.dst) j = (i.lane s j).r := fun j hj =>
    lane32_nextState_of_not_isEvex hevex (by omega) (by omega)
  have hrs := (convertedLanes_sourceLanes_length (s.ctx i.rounding) i s).trans hkl
  have hread := nextState_readZmm_dst i s
  rw [h] at hread
  refine ⟨hlane 0 (by omega), hlane 1 (by omega), ?_, ?_⟩
  · rw [hread, BitVec.extractLsb'_and, writeBack_legacy_extractLsb' _ _ hrs, BitVec.zero_and]
  · calc (nextState i s).readZmm i.dst >>> 128
        = (s.readZmm i.dst >>> 128) &&& (s.cfg.maxvl.mask >>> 128) := by
          rw [hread, BitVec.ushiftRight_and_distrib, writeBack_legacy_ushiftRight _ _ (by omega)]
      _ = s.readZmm i.dst >>> 128 := by rw [← BitVec.ushiftRight_and_distrib, readZmm_and_mask]

/-- Settles O15: a ready legacy instruction goes to `nextState`, whose destination, flags and frame are known. -/
theorem legacyFormCompletes : Obligations.LegacyFormCompletes := by
  intro i s hf hr
  obtain ⟨hlane0, hlane1, hzero, hupper⟩ := nextState_elements_of_legacy hf s
  exact ⟨nextState i s, exec_of_ready hr, hlane0, hlane1, hzero, hupper, mxcsrAfter_of_form_ne (by rw [hf]; decide), rfl,
    frame_nextState i s⟩

end Sys2Proof.Machine
end

section
/-!
What a completed VEX instruction leaves behind: the conversions of all its lanes, and zero above them
(42_vcvtpd2ps_vex.md R140 and R141 step 7, R142, R145; O16, O17).
-/

namespace Sys2Proof.Machine

/-- Both VEX widths: `KL` conversions, and zero above them (R142). No MAXVL is too narrow for them. -/
theorem nextState_elements_of_vex {i : Instr} (h : i.form = .vex128 ∨ i.form = .vex256) (s : State) :
    (∀ j, j < i.form.kl → lane32 ((nextState i s).readZmm i.dst) j = (i.lane s j).r) ∧
    (nextState i s).readZmm i.dst >>> (32 * i.form.kl) = 0#512 := by
  obtain ⟨hevex, hlegacy, hkl⟩ : i.form.isEvex = false ∧ i.form ≠ .legacy ∧ i.form.kl ≤ 4 := by
    obtain h | h := h <;> rw [h] <;> decide
  have hv := s.cfg.maxvl.le_bits
  exact ⟨fun j hj => lane32_nextState_of_not_isEvex hevex hj (by omega), nextState_readZmm_ushiftRight i s hlegacy⟩

/-- Settles O16: a ready VEX.128 instruction goes to `nextState`, with two elements. -/
theorem vex128FormCompletes : Obligations.Vex128FormCompletes := by
  intro i s hf hr
  obtain ⟨hlanes, habove⟩ := nextState_elements_of_vex (.inl hf) s
  rw [hf] at hlanes habove
  exact ⟨nextState i s, exec_of_ready hr, hlanes 0 (by decide), hlanes 1 (by decide), habove,
    mxcsrAfter_of_form_ne (by rw [hf]; decide), rfl, frame_nextState i s⟩

/-- Settles O17: a ready VEX.256 instruction goes to `nextState`, with four elements. -/
theorem vex256FormCompletes : Obligations.Vex256FormCompletes := by
  intro i s hf hr
  obtain ⟨hlanes, habove⟩ := nextState_elements_of_vex (.inr hf) s
  rw [hf] at hlanes habove
  exact ⟨nextState i s, exec_of_ready hr, hlanes 0 (by decide), hlanes 1 (by decide), hlanes 2 (by decide),
    hlanes 3 (by decide), habove, mxcsrAfter_of_form_ne (by rw [hf]; decide), rfl, frame_nextState i s⟩

end Sys2Proof.Machine
end

section
/-!
What a completed EVEX.128 or EVEX.256 instruction leaves behind under its write mask (43_vcvtpd2ps_evex.md R150, R151,
R156 step 8; O18, O19).
-/

namespace Sys2Proof.Machine

/-- Both widths under a write mask: every element converted, zeroed or kept, and zero above them. No MAXVL is too narrow
for them. -/
theorem exec_of_ready_of_evex {i : Instr} {s : State} (hf : i.form = .evex128 ∨ i.form = .evex256)
    (hr : i.ready s = true) :
    ∃ t, exec i s = .next t ∧
      (∀ j, j < i.form.kl → lane32 (t.readZmm i.dst) j =
        if i.aaa = 0#3 ∨ s.k[i.aaa.toFin].getLsbD j = true then (i.lane s j).r
        else if i.zeroing then 0#32 else lane32 (s.readZmm i.dst) j) ∧
      t.readZmm i.dst >>> (32 * i.form.kl) = 0#512 ∧
      t.mxcsr = s.mxcsr ||| ((i.preFlags s).union (i.postFlags s)).bits ∧ t.rip = s.nextIp i.len ∧
      Frame i.dst s t := by
  obtain ⟨hlegacy, her, hkl⟩ : i.form ≠ .legacy ∧ i.form ≠ .evex512Er ∧ i.form.kl ≤ 4 := by
    obtain hf | hf := hf <;> rw [hf] <;> decide
  have hv := s.cfg.maxvl.le_bits
  refine ⟨nextState i s, exec_of_ready hr, fun j hj => ?_, nextState_readZmm_ushiftRight i s hlegacy,
    mxcsrAfter_of_form_ne her, rfl, frame_nextState i s⟩
  rw [lane32_nextState i s j hj (by omega), Instr.activeLane]
  simp only [active_iff]

/-- Settles O18: a ready EVEX.128 instruction writes two elements. -/
theorem evex128FormCompletes : Obligations.Evex128FormCompletes := by
  intro i s hf hr
  have h := exec_of_ready_of_evex (.inl hf) hr
  rw [hf] at h
  exact h

/-- Settles O19: a ready EVEX.256 instruction writes four elements. -/
theorem evex256FormCompletes : Obligations.Evex256FormCompletes := by
  intro i s hf hr
  have h := exec_of_ready_of_evex (.inr hf) hr
  rw [hf] at h
  exact h

end Sys2Proof.Machine
end

section
/-!
Two instructions of one width that name the same operands without a write mask (43_vcvtpd2ps_evex.md R162): they read the
same elements and detect the same flags, and what their forms write differs above the elements at most (O40).
-/

namespace Sys2Proof.Machine

/-! ### What a form changes where there is no write mask -/

/-- The elements written without a write mask are the conversions; the old value and zeroing do not count. -/
theorem mergeLanes_of_active {kl : Nat} {p : Nat → Bool} (hp : ∀ j, p j = true) (old : Vec) (z : Bool) (c : Ctx)
    (x : Nat → F64) :
    mergeLanes old z (convertedLanes c (activeLanes kl p x)) = (List.range kl).map fun j => (cvtF64ToF32 (x j) c).r := by
  refine List.ext_getElem? fun j => ?_
  by_cases hj : j < kl
  · rw [mergeLanes_converted old z c kl p x j hj, if_pos (hp j), List.getElem?_map, List.getElem?_range hj,
      Option.map_some]
  · rw [List.getElem?_eq_none (by simpa using hj), List.getElem?_eq_none (by simpa using hj)]

/-- Every form but the legacy one writes its elements and zero above them (R140, R141, R156 step 8). -/
theorem writeBack_of_ne_legacy {f : Form} (hf : f ≠ .legacy) (old : Vec) (z : Bool) (rs : List (Option F32)) :
    writeBack f old z rs = ofLanes (mergeLanes old z rs) := by
  cases f with
  | legacy => exact absurd rfl hf
  | _ => rfl

/-- In bits 127:0 the legacy form writes what the others write (R130 step 6). -/
theorem writeBack_legacy_extractLsb'_low (old : Vec) (z : Bool) {rs : List (Option F32)} (hrs : rs.length ≤ 4) :
    (writeBack .legacy old z rs).extractLsb' 0 128 = (ofLanes (mergeLanes old z rs)).extractLsb' 0 128 := by
  refine BitVec.eq_of_getLsbD_eq fun k hk => ?_
  rw [BitVec.getLsbD_extractLsb', BitVec.getLsbD_extractLsb', writeBack_legacy_getLsbD old z hrs, if_pos (by omega)]

/-- Without a write mask, forms of one width other than the legacy one read a source alike (R140, R141, R156 step 5). -/
theorem readSource_congr_form {f g : Form} (hkl : g.kl = f.kl) (hf : f ≠ .legacy) (hg : g ≠ .legacy) (s : State)
    (src : Source) : readSource s g src 0#3 = readSource s f src 0#3 := by
  cases src with
  | reg n => simp only [readSource, hkl]
  | mem la =>
    simp only [readSource_mem (.inr rfl), hkl, hf, hg, false_and, if_false]
  | bcst la => rw [readSource_bcst, readSource_bcst, hkl]

/-- A source that the legacy form accepts is ready for VEX.128, which does not ask for its alignment (R51). -/
theorem sourceReady_vex128_of_legacy {s : State} {aaa : BitVec 3} {src : Source}
    (h : s.sourceReady .legacy aaa src = true) : s.sourceReady .vex128 aaa src = true := by
  cases src with
  | reg n => rfl
  | mem la =>
    simp only [State.sourceReady, Bool.and_eq_true] at h ⊢
    obtain ⟨⟨-, hspace⟩, hread⟩ := h
    exact ⟨⟨rfl, hspace⟩, hread⟩
  | bcst la => exact h

/-- Two states that differ from a third in no other part do not differ from each other in one. -/
theorem SameElse.of_common {s t u : State} (ht : SameElse s t) (hu : SameElse s u) : SameElse t u where
  k := hu.k.trans ht.k.symm
  gpr := hu.gpr.trans ht.gpr.symm
  rflags := hu.rflags.trans ht.rflags.symm
  cr0 := hu.cr0.trans ht.cr0.symm
  cr4 := hu.cr4.trans ht.cr4.symm
  xcr0 := hu.xcr0.trans ht.xcr0.symm
  fsBase := hu.fsBase.trans ht.fsBase.symm
  gsBase := hu.gsBase.trans ht.gsBase.symm
  mem := fun a => (hu.mem a).trans (ht.mem a).symm
  cfg := hu.cfg.trans ht.cfg.symm

/-! ### Instructions that differ in the form and the length at most -/

/-- A function applied to the state of a completed execution; a fault or a refusal stays as it is. -/
def mapNext (g : State → State) : Host.Outcome State Fault Refusal → Host.Outcome State Fault Refusal
  | .next t => .next (g t)
  | .fault f => .fault f
  | .refused r => .refused r

/-- Two instructions of one width with the same operands, no write mask and no embedded rounding. -/
structure SameOperands (i j : Instr) (s : State) : Prop where
  kl : j.form.kl = i.form.kl
  dst : j.dst = i.dst
  source : j.source s = i.source s
  unmasked : i.aaa = 0#3 ∧ j.aaa = 0#3
  contextOfMxcsr : i.form ≠ .evex512Er ∧ j.form ≠ .evex512Er

/-- What R162 asks of two instructions: a legacy or VEX form, which has no write mask, on the one side; a form with no
write mask and no embedded rounding on the other. -/
theorem sameOperands_of_not_isEvex {i j : Instr} {s : State} (hi : i.form.isEvex = false) (hj : j.aaa = 0#3)
    (her : j.form ≠ .evex512Er) (hkl : j.form.kl = i.form.kl) (hdst : i.dst = j.dst)
    (hsrc : i.source s = j.source s) : SameOperands i j s where
  kl := hkl
  dst := hdst.symm
  source := hsrc.symm
  unmasked := ⟨(isEvex_or_unmasked i).resolve_left (Bool.eq_false_iff.1 hi), hj⟩
  contextOfMxcsr := ⟨fun h => absurd hi (by rw [h]; decide), her⟩

section
variable {i j : Instr} {s : State}

theorem SameOperands.rounding_eq (h : SameOperands i j s) : j.rounding = i.rounding := by
  obtain ⟨hi, hj⟩ := h.contextOfMxcsr
  rw [rounding_eq_none hi, rounding_eq_none hj]

/-- They read the same elements. -/
theorem SameOperands.sourceLanes_eq (h : SameOperands i j s) : sourceLanes j s = sourceLanes i s := by
  obtain ⟨hi, hj⟩ := h.unmasked
  rw [sourceLanes, sourceLanes, h.kl, h.source, hi, hj]

/-- They detect the same flags. -/
theorem SameOperands.flags_eq (h : SameOperands i j s) :
    j.preFlags s = i.preFlags s ∧ j.postFlags s = i.postFlags s := by
  rw [preFlags_eq, preFlags_eq, postFlags_eq, postFlags_eq, h.sourceLanes_eq, h.rounding_eq]
  exact ⟨rfl, rfl⟩

/-- They leave the same MXCSR. -/
theorem SameOperands.mxcsrAfter_eq (h : SameOperands i j s) : j.mxcsrAfter s = i.mxcsrAfter s := by
  obtain ⟨hpre, hpost⟩ := h.flags_eq
  rw [Instr.mxcsrAfter, Instr.mxcsrAfter, h.rounding_eq, hpre, hpost]

/-- They detect an unmasked exception in the same states. -/
theorem SameOperands.unmaskedDetected_eq (h : SameOperands i j s) : j.unmaskedDetected s = i.unmaskedDetected s := by
  obtain ⟨hpre, hpost⟩ := h.flags_eq
  rw [Instr.unmaskedDetected, Instr.unmaskedDetected, h.rounding_eq, hpre, hpost]

/-- They write the same elements. -/
theorem SameOperands.mergeLanes_eq (h : SameOperands i j s) (old : Vec) (z z' : Bool) (c : Ctx) :
    mergeLanes old z' (convertedLanes c (sourceLanes j s)) = mergeLanes old z (convertedLanes c (sourceLanes i s)) := by
  have hact : ∀ n, s.active i.aaa n = true := fun n => (active_iff s i.aaa n).2 (.inl h.unmasked.1)
  rw [h.sourceLanes_eq, sourceLanes, mergeLanes_of_active hact, mergeLanes_of_active hact]

/-- Where neither is the legacy form, they complete in the same state but for the instruction pointer. -/
theorem SameOperands.nextState_eq (h : SameOperands i j s) (hi : i.form ≠ .legacy) (hj : j.form ≠ .legacy) :
    nextState j s = (nextState i s).setRip (s.nextIp j.len) := by
  rw [nextState, nextState, h.dst, h.rounding_eq, h.mxcsrAfter_eq, writeBack_of_ne_legacy hj, writeBack_of_ne_legacy hi,
    h.mergeLanes_eq _ i.zeroing]
  rfl

/-- With both forms enabled, VEX and EVEX do the same: they complete, fault or refuse alike, and only the instruction
pointer of a completed execution differs (R162). -/
theorem SameOperands.exec_eq_mapNext (h : SameOperands i j s) (hi : i.form ≠ .legacy) (hj : j.form ≠ .legacy)
    (hei : s.enabled i.form = true) (hej : s.enabled j.form = true) :
    exec j s = mapNext (fun t => t.setRip (s.nextIp j.len)) (exec i s) := by
  have hread : readSource s j.form (j.source s) j.aaa = readSource s i.form (i.source s) i.aaa := by
    rw [h.source, h.unmasked.1, h.unmasked.2, readSource_congr_form h.kl hi hj]
  cases hxs : readSource s i.form (i.source s) i.aaa with
  | error e =>
    rw [hxs] at hread
    rw [exec_eq j, exec_eq i, gate_of_enabled hei, gate_of_enabled hej]
    simp only [hread, hxs]
    cases e <;> rfl
  | ok xs =>
    have hri := sourceReady_of_ok (isEvex_or_unmasked i) hxs
    have hrj := sourceReady_of_ok (isEvex_or_unmasked j) (hread.trans hxs)
    obtain ⟨hpre, hpost⟩ := h.flags_eq
    rw [exec_of_readable hej hrj h.contextOfMxcsr.2, exec_of_readable hei hri h.contextOfMxcsr.1, hpre, hpost,
      h.nextState_eq hi hj]
    split_ifs <;> rfl

/-- Where the legacy form completes, VEX.128 is ready (R51, R162). -/
theorem SameOperands.ready_vex128 (h : SameOperands i j s) (hi : i.form = .legacy) (hj : j.form = .vex128)
    (hej : s.enabled .vex128 = true) (hr : i.ready s = true) : j.ready s = true := by
  simp only [Instr.ready, Bool.and_eq_true, Bool.not_eq_true'] at hr ⊢
  obtain ⟨⟨-, hsrc⟩, hexc⟩ := hr
  rw [hi, h.unmasked.1] at hsrc
  rw [hj, h.source, h.unmasked.2, h.unmaskedDetected_eq]
  exact ⟨⟨hej, sourceReady_vex128_of_legacy hsrc⟩, hexc⟩

/-- In bits 127:0 of the destination VEX.128 leaves what the legacy form leaves, and zero above (R162). -/
theorem SameOperands.destination_vex128 (h : SameOperands i j s) (hi : i.form = .legacy) (hj : j.form = .vex128) :
    ((nextState j s).readZmm i.dst).extractLsb' 0 128 = ((nextState i s).readZmm i.dst).extractLsb' 0 128 ∧
    (nextState j s).readZmm i.dst >>> 128 = 0#512 := by
  have hj' : j.form ≠ .legacy := by rw [hj]; decide
  have hrs := convertedLanes_sourceLanes_length (s.ctx i.rounding) i s
  rw [hi] at hrs
  have hreadj := nextState_readZmm_dst j s
  rw [h.dst, h.rounding_eq, writeBack_of_ne_legacy hj', h.mergeLanes_eq _ i.zeroing] at hreadj
  constructor
  · rw [hreadj, nextState_readZmm_dst i s, hi, BitVec.extractLsb'_and, BitVec.extractLsb'_and,
      writeBack_legacy_extractLsb'_low _ _ (hrs.trans_le (by decide))]
  · have habove := nextState_readZmm_ushiftRight j s hj'
    rw [h.dst, hj] at habove
    calc (nextState j s).readZmm i.dst >>> 128
        = (nextState j s).readZmm i.dst >>> 64 >>> 64 := BitVec.shiftRight_add _ 64 64
      _ = 0#512 := by rw [show (nextState j s).readZmm i.dst >>> 64 = 0#512 from habove, BitVec.zero_ushiftRight]

end

/-- Settles O40: VEX and EVEX instructions with the same operands have one outcome but for the instruction pointer; the
legacy form and VEX.128 write the same elements, which the one joins to the old bits above 127 and the other to zero. -/
theorem formsAgree : Obligations.FormsAgree := by
  constructor
  · intro i j s hforms haaa hdst hsrc hei hej
    obtain ⟨hevex, hi, hj, her, hkl⟩ : i.form.isEvex = false ∧ i.form ≠ .legacy ∧ j.form ≠ .legacy ∧
        j.form ≠ .evex512Er ∧ j.form.kl = i.form.kl := by
      obtain ⟨hi, hj⟩ | ⟨hi, hj⟩ := hforms <;> rw [hi, hj] <;> decide
    have hexec := (sameOperands_of_not_isEvex hevex haaa her hkl hdst hsrc).exec_eq_mapNext hi hj hei hej
    refine ⟨fun t h => ?_, fun f h => ?_, fun r h => ?_⟩ <;> rw [hexec, h] <;> rfl
  · intro i j s t hi hj hdst hsrc hej hexec
    have haaa : j.aaa = 0#3 := (isEvex_or_unmasked j).resolve_left (by rw [hj]; decide)
    have hsame : SameOperands i j s :=
      sameOperands_of_not_isEvex (by rw [hi]; rfl) haaa (by rw [hj]; decide) (by rw [hi, hj]; rfl) hdst hsrc
    obtain ⟨hlow, habove⟩ := hsame.destination_vex128 hi hj
    obtain rfl := exec_next hexec
    refine ⟨nextState j s, exec_of_ready (hsame.ready_vex128 hi hj hej (ready_of_exec_next hexec)),
      hsame.mxcsrAfter_eq, (frame_nextState i s).else_.of_common (frame_nextState j s).else_, fun n hn => ?_,
      hlow, habove⟩
    rw [nextState_zmm_other i s hn, nextState_zmm_other j s (hdst ▸ hn)]

end Sys2Proof.Machine
end

section
/-!
Exceptions (60_exceptions.md): the availability checks answer before everything else (R174, R175, R179), settled in O24
and O25, and a fault of a step holds the state before it (R180, R181), settled in O30.
-/

namespace Sys2Proof.Machine

/-! ### A stop of the availability checks (R174, R175, R179) -/

/-- An instruction stops as its availability checks do: nothing else is looked at. -/
theorem exec_of_gate_error {i : Instr} {s : State} {e : Stop} (h : gate i.form s = .error e) :
    exec i s = e.outcome s := by
  rw [exec_eq, h]

theorem gate_of_unavailable {s : State} {f : Form} (h : s.cfg.available f = false) :
    gate f s = .error (.exception .ud) := by
  rw [gate, h]
  rfl

/-- A missing feature is `#UD` as well, so a disabled state needs no other condition. -/
theorem gate_of_disabled {s : State} {f : Form} (h : s.envOk f = false) : gate f s = .error (.exception .ud) := by
  cases ha : s.cfg.available f with
  | false => exact gate_of_unavailable ha
  | true =>
    rw [gate, ha, h]
    rfl

theorem gate_of_taskSwitched {s : State} {f : Form} (ha : s.cfg.available f = true) (hok : s.envOk f = true)
    (hts : s.envTs = true) : gate f s = .error (.exception .nm) := by
  rw [gate, ha, hok, hts]
  rfl

/-! ### A missing feature (R174) -/

theorem available_eq_false_iff (c : Config) (f : Form) :
    c.available f = false ↔
      f = .legacy ∧ c.fSSE2 = false ∨
      (f = .vex128 ∨ f = .vex256) ∧ c.fAVX = false ∨
      (f = .evex128 ∨ f = .evex256) ∧ (c.fAVX512VL = false ∨ c.fAVX512F = false) ∧ c.fAVX10_1 = false ∨
      (f = .evex512 ∨ f = .evex512Er) ∧ c.fAVX512F = false ∧ c.fAVX10_1 = false := by
  cases f with
  | legacy | vex128 | vex256 | evex512 | evex512Er => simp [Config.available]
  | evex128 | evex256 => simp [Config.available, -Bool.and_eq_false_imp, Bool.and_eq_false_iff]

/-- Settles O24: the features named are those of `Config.available`, the first of the availability checks. -/
theorem missingFeatureRaisesUd : Obligations.MissingFeatureRaisesUd := by
  intro i s h
  exact exec_of_gate_error (gate_of_unavailable ((available_eq_false_iff s.cfg i.form).2 h))

/-! ### State that is not enabled, and CR0.TS (R175) -/

/-- A field holds only ones where each of its bits is set. -/
theorem extractLsb'_eq_allOnes_iff {w : Nat} (x : BitVec w) (k n : Nat) :
    x.extractLsb' k n = BitVec.allOnes n ↔ ∀ j : Fin n, x.getLsbD (k + j) = true := by
  constructor
  · intro h ⟨j, hj⟩
    have hbit : (x.extractLsb' k n).getLsbD j = (BitVec.allOnes n).getLsbD j := by rw [h]
    rwa [BitVec.getLsbD_extractLsb', BitVec.getLsbD_allOnes, decide_eq_true hj, Bool.true_and] at hbit
  · intro h
    refine BitVec.eq_of_getLsbD_eq fun j hj => ?_
    rw [BitVec.getLsbD_extractLsb', BitVec.getLsbD_allOnes, h ⟨j, hj⟩, Bool.and_true]

theorem osLegacy_iff (s : State) : s.osLegacy = true ↔ s.cr0.getLsbD 2 = false ∧ s.cr4.getLsbD 9 = true := by
  rw [State.osLegacy, Bool.and_eq_true, Bool.not_eq_true']

theorem osAvx_iff (s : State) : s.osAvx = true ↔ s.cr4.getLsbD 18 = true ∧ s.xcr0.extractLsb' 1 2 = 3#2 := by
  rw [show 3#2 = BitVec.allOnes 2 from rfl, extractLsb'_eq_allOnes_iff]
  simp [State.osAvx, Fin.forall_fin_succ, and_assoc]

theorem osAvx512_iff (s : State) : s.osAvx512 = true ↔ s.osAvx = true ∧ s.xcr0.extractLsb' 5 3 = 7#3 := by
  rw [show 7#3 = BitVec.allOnes 3 from rfl, extractLsb'_eq_allOnes_iff]
  simp [State.osAvx512, Fin.forall_fin_succ, and_assoc]

/-- `ENV_OK` in the bits that the columns of R175 name. -/
theorem envOk_iff (s : State) (f : Form) :
    s.envOk f = true ↔
      f = .legacy ∧ s.cr0.getLsbD 2 = false ∧ s.cr4.getLsbD 9 = true ∨
      f ≠ .legacy ∧ s.cr4.getLsbD 18 = true ∧ s.xcr0.extractLsb' 1 2 = 3#2 ∧
        (f.isEvex = true → s.xcr0.extractLsb' 5 3 = 7#3) := by
  cases f with
  | legacy => simp [State.envOk, osLegacy_iff]
  | vex128 | vex256 => simp [State.envOk, osAvx_iff, Form.isEvex]
  | evex128 | evex256 | evex512 | evex512Er =>
    simp [State.envOk, osAvx512_iff, osAvx_iff, Form.isEvex, and_assoc]

/-- The `#UD` columns of R175. -/
theorem envOk_eq_false_of_disabled {s : State} {f : Form}
    (h : f = .legacy ∧ (s.cr0.getLsbD 2 = true ∨ s.cr4.getLsbD 9 = false) ∨
      f ≠ .legacy ∧ (s.cr4.getLsbD 18 = false ∨ s.xcr0.extractLsb' 1 2 ≠ 3#2) ∨
      f.isEvex = true ∧ s.xcr0.extractLsb' 5 3 ≠ 7#3) : s.envOk f = false := by
  have hvex : f.isEvex = true → f ≠ .legacy := by rintro he rfl; cases he
  rw [Bool.eq_false_iff, ne_eq, envOk_iff]
  simp only [← Bool.not_eq_true] at h ⊢
  tauto

/-- Settles O25: a disabled state and CR0.TS are the second and the third of the availability checks. -/
theorem disabledStateRaisesUdOrNm : Obligations.DisabledStateRaisesUdOrNm := by
  intro i s
  refine ⟨fun h => ?_, fun ha hok hts => ?_⟩
  · exact exec_of_gate_error (gate_of_disabled (envOk_eq_false_of_disabled h))
  · exact exec_of_gate_error (gate_of_taskSwitched ha ((envOk_iff s i.form).2 hok) hts)

/-! ### The state in a fault (R177, R180, R181) -/

/-- A step that faults gives the exception of the fetch, in the state before it, or that of the instruction fetched. -/
theorem step_fault {s : State} {f : Fault} (h : step s = .fault f) :
    f.state = s ∨ ∃ i, s.fetch = .instr i ∧ exec i s = .fault f := by
  unfold step at h
  split at h
  next => cases h
  next i hi => exact .inr ⟨i, hi, h⟩
  next e _ =>
    cases e with
    | exception x =>
      injection h with h
      exact .inl (h ▸ raise_state x s)
    | refuse r => cases h

/-- Only a SIMD floating-point exception holds another state than the one before the instruction. -/
theorem exec_fault_exc {i : Instr} {s : State} {f : Fault} (h : exec i s = .fault f) :
    f.state = s ∨ f.exc = s.simdException := by
  rw [exec_eq_convert] at h
  obtain ⟨x, -, rfl⟩ | ⟨-, x, -, rfl⟩ | ⟨-, _, _, -, -, hf⟩ := convert_fault h
  · exact .inl (raise_state x s)
  · exact .inl (raise_state x s)
  · exact .inr (exc_of_raise_eq hf)

/-- `#XM`, or the `#UD` that replaces it where CR4.OSXMMEXCPT is 0. -/
theorem simdException_cases (s : State) :
    s.simdException = .xm ∨ s.simdException = .ud ∧ s.cr4.getLsbD 10 = false := by
  rw [State.simdException, State.envXmmExcpt]
  cases s.cr4.getLsbD 10 with
  | true => exact .inl rfl
  | false => exact .inr ⟨rfl, rfl⟩

/-- Settles O30: a fetch and a check stop in the state before, and the conversion ORs flags into its MXCSR. -/
theorem faultKeepsThePreState : Obligations.FaultKeepsThePreState := by
  intro s f h
  obtain hs | ⟨i, -, hexec⟩ := step_fault h
  · exact .inl hs
  obtain hs | hexc := exec_fault_exc hexec
  · exact .inl hs
  obtain hs | ⟨-, g, hg⟩ := exec_fault_state hexec
  · exact .inl hs
  · exact .inr ⟨hexc ▸ simdException_cases s, g, hg⟩

end Sys2Proof.Machine
end

section
/-!
The launch state satisfies the invariant (O59). The run ends at END, and a fetch outside the text is refused (O13): of an
instruction that the text cuts off, its first bytes are fetched (`fetchBytes_of_cut`), and they decode to nothing but
truncation (`decode_take_encode`), as bytes that follow what is decoded do not change the verdict (`decode_append`).
-/

namespace Sys2Proof

/-! ### Bytes behind what is decoded (30_encoding.md R76) -/

/-- Bytes put behind those that ModRM, SIB and displacement take. -/
def ModRMResult.followedBy (more : List Byte) : ModRMResult → ModRMResult
  | .ok reg rm rest => .ok reg rm (rest ++ more)
  | r => r

/-- Bytes put behind the opcode. -/
def OpcodeResult.followedBy (more : List Byte) : OpcodeResult → OpcodeResult
  | .form ud build rest => .form ud build (rest ++ more)
  | r => r

/-- Bytes put behind the instruction. -/
def DecodeResult.followedBy (more : List Byte) : DecodeResult → DecodeResult
  | .instr i rest => .instr i (rest ++ more)
  | d => d

/-- Once the scan has found the first byte of the opcode, what follows is not scanned. -/
theorem scanPrefixes_append_of_ne_nil {m : Mode} {bs : List Byte} (h : (scanPrefixes m bs).2.2 ≠ [])
    (more : List Byte) :
    scanPrefixes m (bs ++ more) =
      ((scanPrefixes m bs).1, (scanPrefixes m bs).2.1, (scanPrefixes m bs).2.2 ++ more) := by
  induction bs with
  | nil => exact absurd rfl h
  | cons b bs ih =>
    cases hl : legacyPrefix b with
    | some p =>
      rw [scanPrefixes_legacy hl] at h ⊢
      rw [List.cons_append, scanPrefixes_legacy hl, ih h]
    | none =>
      by_cases hr : m = .m32 ∨ rexOf b = none
      · rw [List.cons_append, scanPrefixes_of_opcode hl hr, scanPrefixes_of_opcode hl hr, List.cons_append]
      · obtain ⟨hm, hrex⟩ := not_or.1 hr
        obtain ⟨rex, hrex⟩ := Option.ne_none_iff_exists'.1 hrex
        obtain rfl : m = .m64 := by
          cases m with
          | m64 => rfl
          | m32 => exact absurd rfl hm
        cases bs with
        | nil => exact absurd (congrArg (·.2.2) (scanPrefixes_rex hl hrex (bs := []) (by simp))) h
        | cons c bs =>
          cases hc : legacyPrefix c with
          | none =>
            have hnext (cs : List Byte) : ∀ d ∈ (c :: cs).head?, legacyPrefix d = none := by simpa using hc
            rw [List.cons_append, List.cons_append, scanPrefixes_rex hl hrex (hnext _),
              scanPrefixes_rex hl hrex (hnext _), List.cons_append]
          | some p =>
            have hsome : (legacyPrefix c).isSome = true := by rw [hc]; rfl
            rw [scanPrefixes_droppedRex hl hrex hsome] at h ⊢
            rw [List.cons_append, List.cons_append, scanPrefixes_droppedRex hl hrex hsome, ← List.cons_append, ih h]

theorem opcodeLegacy_append {pfx : List Prefix} {rex : Option Rex} {bs : List Byte}
    (h : opcodeLegacy pfx rex bs ≠ .truncated) (more : List Byte) :
    opcodeLegacy pfx rex (bs ++ more) = (opcodeLegacy pfx rex bs).followedBy more := by
  cases bs with
  | nil => exact absurd rfl h
  | cons op rest =>
    simp only [List.cons_append, opcodeLegacy]
    split_ifs <;> rfl

theorem opcodeC5_append {m : Mode} {pfx : List Prefix} {rex : Option Rex} {bs : List Byte}
    (h : opcodeC5 m pfx rex bs ≠ .truncated) (more : List Byte) :
    opcodeC5 m pfx rex (bs ++ more) = (opcodeC5 m pfx rex bs).followedBy more := by
  match bs with
  | [] => exact absurd rfl h
  | [v1] =>
    simp only [List.cons_append, opcodeC5] at h ⊢
    split_ifs at h ⊢
    · rfl
    · rfl
    all_goals exact absurd rfl h
  | v1 :: op :: rest =>
    simp only [List.cons_append, opcodeC5]
    split_ifs <;> rfl

theorem opcodeC4_append {m : Mode} {pfx : List Prefix} {rex : Option Rex} {bs : List Byte}
    (h : opcodeC4 m pfx rex bs ≠ .truncated) (more : List Byte) :
    opcodeC4 m pfx rex (bs ++ more) = (opcodeC4 m pfx rex bs).followedBy more := by
  match bs with
  | [] => exact absurd rfl h
  | [v1] | [v1, v2] =>
    simp only [List.cons_append, opcodeC4] at h ⊢
    split_ifs at h ⊢
    · rfl
    · rfl
    · exact absurd rfl h
  | v1 :: v2 :: op :: rest =>
    simp only [List.cons_append, opcodeC4]
    split_ifs <;> rfl

theorem opcode62_append {m : Mode} {pfx : List Prefix} {rex : Option Rex} {bs : List Byte}
    (h : opcode62 m pfx rex bs ≠ .truncated) (more : List Byte) :
    opcode62 m pfx rex (bs ++ more) = (opcode62 m pfx rex bs).followedBy more := by
  match bs with
  | [] => exact absurd rfl h
  | [p0] | [p0, p1] | [p0, p1, p2] =>
    simp only [List.cons_append, opcode62] at h ⊢
    split_ifs at h ⊢
    · rfl
    · exact absurd rfl h
  | p0 :: p1 :: p2 :: op :: rest =>
    simp only [List.cons_append, opcode62]
    split_ifs <;> rfl

/-- Step 3 of R76 looks at no byte behind the opcode. -/
theorem parseOpcode_append {m : Mode} {pfx : List Prefix} {rex : Option Rex} {bs : List Byte}
    (h : parseOpcode m pfx rex bs ≠ .truncated) (more : List Byte) :
    parseOpcode m pfx rex (bs ++ more) = (parseOpcode m pfx rex bs).followedBy more := by
  cases bs with
  | nil => exact absurd rfl h
  | cons b rest =>
    simp only [List.cons_append, parseOpcode] at h ⊢
    split_ifs at h ⊢
    · exact opcodeLegacy_append h more
    · exact opcodeC5_append h more
    · exact opcodeC4_append h more
    · exact opcode62_append h more
    · rfl

theorem parseDisp_ne_address16 {mod : BitVec 2} {reg : BitVec 3} {mk : Disp → MemOperand} {bs : List Byte} :
    parseDisp mod reg mk bs ≠ .address16 := by
  unfold parseDisp
  split_ifs
  · nofun
  · split <;> nofun
  · split <;> nofun

theorem parseDisp32_ne_address16 {reg : BitVec 3} {mk : BitVec 32 → MemOperand} {bs : List Byte} :
    parseDisp32 reg mk bs ≠ .address16 := by
  unfold parseDisp32
  split <;> nofun

/-- 16-bit addressing is a matter of the ModRM byte alone. -/
theorem parseModRM_address16_append {a16 : Bool} {bs : List Byte} (h : parseModRM a16 bs = .address16)
    (more : List Byte) : parseModRM a16 (bs ++ more) = .address16 := by
  cases bs with
  | nil => cases h
  | cons modrm rest =>
    simp only [List.cons_append, parseModRM] at h ⊢
    split_ifs at h ⊢
    · rfl
    · cases rest with
      | nil => cases h
      | cons sib rest =>
        simp only at h
        split_ifs at h
        · exact absurd h parseDisp32_ne_address16
        · exact absurd h parseDisp_ne_address16
    · exact absurd h parseDisp32_ne_address16
    · exact absurd h parseDisp_ne_address16

/-- Step 4 of R76 looks at no byte behind the operand. -/
theorem parseModRM_append {a16 : Bool} {bs : List Byte} (h : parseModRM a16 bs ≠ .truncated) (more : List Byte) :
    parseModRM a16 (bs ++ more) = (parseModRM a16 bs).followedBy more := by
  cases hp : parseModRM a16 bs with
  | truncated => exact absurd hp h
  | address16 => exact parseModRM_address16_append hp more
  | ok reg rm rest =>
    obtain ⟨rfl, hwf, h16⟩ := eq_encode_of_parseModRM hp
    rw [List.append_assoc]
    exact parseModRM_encode hwf h16 reg _

/-- A verdict other than truncation stays, whatever bytes follow. -/
theorem decode_append {m : Mode} {bs : List Byte} (h : decode m bs ≠ .truncated) (more : List Byte) :
    decode m (bs ++ more) = (decode m bs).followedBy more := by
  have hop : parseOpcode m (scanPrefixes m bs).1 (scanPrefixes m bs).2.1 (scanPrefixes m bs).2.2 ≠ .truncated :=
    fun hop => h (by simp only [decode, hop])
  have hscan : (scanPrefixes m bs).2.2 ≠ [] := fun hnil => hop (by rw [hnil]; rfl)
  simp only [decode, scanPrefixes_append_of_ne_nil hscan, parseOpcode_append hop] at h ⊢
  cases hp : parseOpcode m (scanPrefixes m bs).1 (scanPrefixes m bs).2.1 (scanPrefixes m bs).2.2 with
  | truncated => exact absurd hp hop
  | otherInstruction => rfl
  | extensionInM32 => rfl
  | form ud build rest =>
    simp only [hp] at h
    have hrm : parseModRM (m == .m32 && (scanPrefixes m bs).1.contains .addrSize) rest ≠ .truncated :=
      fun hrm => h (by rw [hrm])
    simp only [OpcodeResult.followedBy, parseModRM_append hrm]
    cases parseModRM (m == .m32 && (scanPrefixes m bs).1.contains .addrSize) rest with
    | truncated => rfl
    | address16 => rfl
    | ok reg rm rest' =>
      simp only [ModRMResult.followedBy, List.length_append, Nat.add_sub_add_right]
      split_ifs
      · rfl
      · rfl
      · cases build reg rm <;> rfl

/-- An instruction cut off before its end is no other instruction and no `#UD`. -/
theorem decode_take_encode {m : Mode} {i : Instr} (hwf : i.wf m = true) {n : Nat} (hn : n < i.len) :
    decode m ((encode i).take n) = .truncated := by
  by_contra h
  have hall : decode m (encode i) = .instr i [] := by
    simpa only [List.append_nil] using decodeOfEncodedInstruction m i [] hwf
  have hmore := decode_append h ((encode i).drop n)
  rw [List.take_append_drop, hall] at hmore
  cases hd : decode m ((encode i).take n) with
  | instr j rest =>
    rw [hd] at hmore
    injection hmore with _ hrest
    exact absurd (List.drop_eq_nil_iff.1 (List.append_eq_nil_iff.1 hrest.symm).2) (Nat.not_le.2 hn)
  | _ => rw [hd] at hmore; cases hmore

end Sys2Proof

namespace Sys2Proof.Machine

/-! ### The launch state (R203) -/

/-- Settles O59: no register of the launch state holds a bit that MAXVL or the mode leaves out. -/
theorem resetSatisfiesTheInvariant : Obligations.ResetSatisfiesTheInvariant where
  mem := reset_mem_wf
  mxcsr := by decide
  zmm n := by simp [State.reset]
  rip := rfl
  cfg := rfl

/-! ### The edge of the text (R206) -/

theorem readBytes_of_holds_length {mem : Memory} {bs : List Byte} :
    ∀ {a : Nat}, mem.Holds a bs → readBytes mem a bs.length = bs := by
  induction bs with
  | nil => exact fun _ => rfl
  | cons b bs ih =>
    intro a h
    obtain ⟨hb, hbs⟩ := Memory.holds_cons h
    rw [List.length_cons, readBytes, hb, ih hbs]

/-- Of bytes in memory, prefixes first and then an opcode and its operand, the fetch takes as many as it may. -/
theorem fetchFrom_eq_take {m : Mode} {mem : Memory} {front : List Byte} {b : Byte} {body : List Byte}
    (hfront : ∀ c ∈ front, isPrefixByte m c = true) (hb : isPrefixByte m b = false)
    (hbody : (b :: body).length ≤ longestBody) : ∀ {a n : Nat}, n ≤ (front ++ b :: body).length →
      mem.Holds a ((front ++ b :: body).take n) → fetchFrom m mem n a = (front ++ b :: body).take n := by
  induction front with
  | nil =>
    intro a n hn h
    cases n with
    | zero => rfl
    | succ n =>
      obtain ⟨hread, -⟩ := Memory.holds_cons h
      have hall := readBytes_of_holds_length h
      rw [List.length_take_of_le hn] at hall
      rw [fetchFrom, hread, hb, Nat.min_eq_left (Nat.le_trans hn hbody)]
      exact hall
  | cons c front ih =>
    intro a n hn h
    cases n with
    | zero => rfl
    | succ n =>
      obtain ⟨hread, hrest⟩ := Memory.holds_cons h
      rw [fetchFrom, hread, if_pos (hfront c List.mem_cons_self),
        ih (fun d hd => hfront d (List.mem_cons_of_mem _ hd)) (Nat.le_of_succ_le_succ hn) hrest]
      rfl

/-- The encoding of an instruction as the fetch divides it: bytes that the scan can pass over, then few enough
bytes, the first of which it cannot. -/
theorem encode_eq_front_body {m : Mode} {i : Instr} (hshape : i.shapeWf m = true) :
    ∃ front b body, encode i = front ++ b :: body ∧ (∀ c ∈ front, isPrefixByte m c = true) ∧
      isPrefixByte m b = false ∧ (b :: body).length ≤ longestBody := by
  obtain ⟨hpfx, hrex, -⟩ := (i.shapeWf_iff_parts m).1 hshape
  obtain ⟨b, bs, hb, hl, hr⟩ := i.opcode.bytes_head
  refine ⟨i.prefixes.map Prefix.toByte ++ rexBytes i.rex?, b, bs ++ i.regMem.encode i.reg, ?_, ?_, ?_, ?_⟩
  · rw [encode_eq_parts, hb, List.append_assoc, List.cons_append]
  · exact List.forall_mem_append.2 ⟨isPrefixByte_of_mem_prefixes hpfx, isPrefixByte_of_mem_rexBytes hrex⟩
  · simp [isPrefixByte, hl, hr]
  · have ho := opcode_length_le i.opcode
    have hrm := regMem_size_le i.regMem
    rw [← List.cons_append, ← hb, List.length_append, RegMem.encode_length, longestBody]
    omega

/-- Of an instruction that ends behind the last byte to fetch, the bytes before are fetched. -/
theorem fetchBytes_of_cut {s : State} {i : Instr} (hshape : i.shapeWf s.cfg.mode = true)
    (hend : s.fetchEnd ≤ s.ip.toNat + i.len)
    (h : s.mem.Holds s.ip.toNat ((encode i).take (s.fetchEnd - s.ip.toNat))) :
    s.fetchBytes = (encode i).take (s.fetchEnd - s.ip.toNat) := by
  have hlen : s.fetchEnd - s.ip.toNat ≤ (encode i).length := by
    rw [← Instr.len]
    omega
  obtain ⟨front, b, body, henc, hfront, hb, hbody⟩ := encode_eq_front_body hshape
  rw [henc] at h hlen ⊢
  exact fetchFrom_eq_take hfront hb hbody hlen h

theorem inText_eq_false {s : State} (h : s.ip.toNat < s.cfg.textLo ∨ s.cfg.textHi ≤ s.ip.toNat) :
    s.inText = false := by
  have hend : s.fetchEnd ≤ s.cfg.textHi := Nat.min_le_left ..
  simp only [State.inText, Bool.and_eq_false_iff, decide_eq_false_iff_not]
  omega

/-- Settles O13: at END nothing is fetched; outside the text the fetch stops before decoding; an instruction that the text
cuts off is decoded from its first bytes, which are truncated. -/
theorem endOfRunAndEdgeOfText : Obligations.EndOfRunAndEdgeOfText := by
  refine ⟨fun s hip => ?_, fun s hip hout => ?_, fun s i hwf he ht hcut hspace hmem => ?_⟩
  · rw [step, (fetch_eq_done_iff s).2 (decide_eq_true hip)]
  · exact step_of_fetch_stop (fetch_of_not_inText (decide_eq_false hip) (inText_eq_false hout))
  · have hend : s.fetchEnd = s.cfg.textHi := Nat.min_eq_left hspace.le
    have hip : s.ip.toNat < s.fetchEnd := by
      simp only [State.inText, Bool.and_eq_true, decide_eq_true_eq] at ht
      exact ht.2
    have hholds : s.mem.Holds s.ip.toNat ((encode i).take (s.fetchEnd - s.ip.toNat)) := by
      intro k hk
      rw [List.length_take] at hk
      rw [List.getElem_take]
      exact hmem k (by omega) (by omega)
    have hbytes := fetchBytes_of_cut (Bool.and_eq_true_iff.1 hwf).1 (by omega) hholds
    have htrunc : decode s.cfg.mode s.fetchBytes = .truncated := by
      rw [hbytes]
      exact decode_take_encode hwf (by omega)
    obtain ⟨-, -, -, -, -, -, hstep⟩ := stepOnOtherDecodings s he ht
    rw [hstep htrunc, if_pos hspace]

end Sys2Proof.Machine
end
